-- ==== Sys2Proof/Word.lean ====
section
/-! DEFINITION. The words of QRE: bytes, 32-bit bus words and 20-bit byte offsets (00_scope.md R7, R8). -/

namespace Sys2Proof

/-- One byte: a codeword, a GF entry, a toggle vector (R95). -/
abbrev Byte := BitVec 8

/-- One word of the register bus (R7). -/
abbrev Word := BitVec 32

/-- A byte offset inside the block, `addr[19:0]` (R7). -/
abbrev Offset := BitVec 20

/-- Addition in GF(2⁸) is the exclusive-or of the byte codes (R9). -/
abbrev gfAdd (a b : Byte) : Byte := a ^^^ b

end Sys2Proof
end

