-- ==== Sys2Proof/Config.lean ====
section
/-! DEFINITION. What an implementation of QRE fixes (00_scope.md R6, 92_eei_decisions.md "Open parameters"), and the
free values: constants with no body, so that no proof can know them. -/

namespace Sys2Proof

/-- Parameter N3_RULE (D11): the spec's default, or some other function from a line to an occurrence count. -/
inductive N3Rule where
  | ratioRuns
  | other (k : Nat)
  deriving DecidableEq, Repr

/-- Parameter N4_RULE (D12): the spec's default, or some other function from (D, T) to points. -/
inductive N4Rule where
  | exactBands
  | other (k : Nat)
  deriving DecidableEq, Repr

/-- The implementation parameters of R6 and the open parameters that change what the block does. They never change
while the machine runs; State carries them so that every statement holds for every choice (log 11). -/
structure Params where
  eccMax     : Nat
  blkDepth   : Nat
  cwDepth    : Nat
  plDepth    : Nat
  n4Weight   : Nat
  n3Rule     : N3Rule
  n4Rule     : N4Rule
  busOrdered : Bool
  deriving DecidableEq, Repr

/-- The defaults of R6 and of 92_eei_decisions.md. DESIGN CHOICE (log 11). -/
def Params.default : Params :=
  { eccMax := 32, blkDepth := 128, cwDepth := 4096, plDepth := 32768, n4Weight := 10,
    n3Rule := .ratioRuns, n4Rule := .exactBands, busOrdered := true }

namespace Config

/-- ID (R23): 'Q' 'R' 'E', revision 1. -/
def idValue : Word := 0x51524501#32

/-- MAX_SIDE (R6): fixed, 4·40+17. -/
def maxSide : Nat := 177

/-- The free word of draw `draw` at byte offset `off`: what a location that the spec calls unspecified reads as
(R70, R271; log 4). Nothing constrains it. -/
opaque freeWord (draw off : Nat) : Word

/-- The line function of an N3_RULE other than RATIO_RUNS (D11; log 11). -/
opaque otherN3Rule (k : Nat) (line : List Bool) : Nat

/-- The points function of an N4_RULE other than EXACT_BANDS (D12; log 11). -/
opaque otherN4Rule (k dark total : Nat) : Nat

/-- QRE_BASE (D2): the platform's base address of the block; open, no default (log 15). -/
opaque qreBase : Nat

/-- QRE_IRQ (D20): the platform's interrupt line that irq drives; open, no default (log 15). -/
opaque qreIrq : Nat

end Config

end Sys2Proof
end

