-- ==== Sys2Proof/Syntax.lean ====
section
/-! DEFINITION. The commands of QRE (30_encoding.md R91) and the host's bus accesses (20_memory.md R63). -/

namespace Sys2Proof

/-- One constructor per row of the opcode map (R91). No command has an operand field (R90, R94). -/
inductive Instr where
  /-- NOP, R119. -/
  | nop
  /-- CLEAR, R120. -/
  | clear
  /-- RS_ENCODE, R130. -/
  | rsEncode
  /-- PLACE, R150. -/
  | place
  /-- SCORE, R170. -/
  | score
  /-- FINALIZE, R200. -/
  | finalize
  /-- ENCODE_ALL, R121. -/
  | encodeAll
  deriving DecidableEq, Repr

/-- One bus access by the host (R63): a read gives the full word, of which a platform that issued a narrower read
keeps its lanes; a write carries one strobe per byte lane. -/
inductive BusAccess where
  | read (off : Offset)
  | write (off : Offset) (data : Word) (strobes : BitVec 4)
  deriving DecidableEq, Repr

/-- `MemWrite(addr, 4, v)` of R8: a write of all four byte lanes. -/
abbrev BusAccess.writeWord (off : Offset) (data : Word) : BusAccess := .write off data 0xF#4

end Sys2Proof
end

