-- ==== Sys2Proof/WellFormed.lean ====
section
/-! DEFINITION. Well-formed instructions, bus accesses and parameters. A command has no operand, so every `Instr` is
well formed; what can be ill formed is the command word (R90, R93), the access (R63, R64) and the parameters (R6). -/

namespace Sys2Proof

/-- A command has no operand field that could hold a bad value (R90). -/
def Instr.wellFormed : Instr → Bool
  | .nop => true
  | .clear => true
  | .rsEncode => true
  | .place => true
  | .score => true
  | .finalize => true
  | .encodeAll => true

/-- Field ZERO, bits [31:8] of a command word, must be 0 (R90). -/
def zeroFieldOk (w : Word) : Bool := w.extractLsb' 8 24 == 0#24

/-- Field OPCODE, bits [7:0], must be a value of the opcode map (R91, R93). -/
def opcodeAssigned (w : Word) : Bool :=
  [0x00#8, 0x01#8, 0x10#8, 0x20#8, 0x30#8, 0x40#8, 0x50#8].contains (w.extractLsb' 0 8)

/-- The words that are commands (R90, R93). -/
def commandWordOk (w : Word) : Bool := zeroFieldOk w && opcodeAssigned w

/-- The access offset is a multiple of 4 (R64). -/
def Offset.aligned (off : Offset) : Bool := off.extractLsb' 0 2 == 0#2

/-- A full-word aligned access (R63, R64). -/
def BusAccess.wellFormed : BusAccess → Bool
  | .read off => Offset.aligned off
  | .write off _ strobes => Offset.aligned off && strobes == 0xF#4

/-- The legal ranges of R6. -/
def Params.legal (p : Params) : Bool :=
  1 ≤ p.eccMax && p.eccMax ≤ 128 && 1 ≤ p.blkDepth && p.blkDepth ≤ 255 && 1 ≤ p.cwDepth && p.cwDepth ≤ 16384
    && 1 ≤ p.plDepth && p.plDepth ≤ 65536 && p.n4Weight ≤ 2 ^ 20

end Sys2Proof
end

