-- ==== Sys2Proof/Decode.lean ====
section
/-! DEFINITION. The decoder (30_encoding.md R90 to R93), total on every word and on every list of bytes, and after it the
encoder, each written from the opcode map of R91. -/

namespace Sys2Proof

/-- Why a word or a list of bytes is no command. Every such word is ILLEGAL (R92, R93). -/
inductive Reject where
  /-- Some bit of ZERO, bits [31:8], is set (R90). -/
  | zeroFieldSet (w : Word)
  /-- ZERO is 0 and OPCODE is no value of R91. -/
  | opcodeUnassigned (opcode : Byte)
  /-- Fewer than the four bytes of a command word (R96: there is no shorter form). -/
  | truncated
  deriving DecidableEq, Repr

/-- Field OPCODE, bits [7:0] (R90). -/
def opcodeField (w : Word) : Byte := w.extractLsb' 0 8

/-- Field ZERO, bits [31:8] (R90). -/
def zeroField (w : Word) : BitVec 24 := w.extractLsb' 8 24

/-- `decode` of R92. -/
def decodeWord (w : Word) : Except Reject Instr :=
  if w = 0x00#32 then .ok .nop
  else if w = 0x01#32 then .ok .clear
  else if w = 0x10#32 then .ok .rsEncode
  else if w = 0x20#32 then .ok .place
  else if w = 0x30#32 then .ok .score
  else if w = 0x40#32 then .ok .finalize
  else if w = 0x50#32 then .ok .encodeAll
  else if zeroField w ≠ 0#24 then .error (.zeroFieldSet w)
  else .error (.opcodeUnassigned (opcodeField w))

/-- A word from its four bytes, the byte at word offset +0 lowest (R68: little-endian lanes). -/
def wordOfBytes (b0 b1 b2 b3 : Byte) : Word := b3 ++ b2 ++ b1 ++ b0

/-- The four bytes of a word in lane order (R68). -/
def bytesOfWord (w : Word) : List Byte :=
  [w.extractLsb' 0 8, w.extractLsb' 8 8, w.extractLsb' 16 8, w.extractLsb' 24 8]

/-- Decodes one command word at the head of a list of bytes and gives the bytes after it. -/
def decode : List Byte → Except Reject (Instr × List Byte)
  | b0 :: b1 :: b2 :: b3 :: rest =>
    match decodeWord (wordOfBytes b0 b1 b2 b3) with
    | .ok i => .ok (i, rest)
    | .error r => .error r
  | _ => .error .truncated

/-- The decoder on a word numbered as spec/opcode_table.json numbers it: the low `nbits` bits of `w`, every bit above
them 0, laid out in lane order (log 21). -/
def decodeTableWord (nbits w : Nat) : Option Instr :=
  match decode (bytesOfWord (BitVec.ofNat 32 (w % 2 ^ nbits))) with
  | .ok (i, _) => some i
  | .error _ => none

/-- The OPCODE of each command (R91). -/
def opcodeOf : Instr → Byte
  | .nop => 0x00#8
  | .clear => 0x01#8
  | .rsEncode => 0x10#8
  | .place => 0x20#8
  | .score => 0x30#8
  | .finalize => 0x40#8
  | .encodeAll => 0x50#8

/-- The command word: ZERO and OPCODE side by side (R90). -/
def encode (i : Instr) : Word := 0#24 ++ opcodeOf i

end Sys2Proof
end

