-- ==== Sys2Proof/Machine/State.lean ====
section
/-! DEFINITION. The state of QRE as plain data (10_state.md), what can stop a step, and the state after reset
(70_reset_and_hazards.md R270, R271). Every field's width, rule and reset value is listed in INVENTORY.md. -/

namespace Sys2Proof.Machine

/-- STATUS.PHASE (R40): the sequencer's position. The codes 6 and 7 are never taken, so they have no constructor. -/
inductive Phase where
  | idle
  | ctrl
  | rs
  | place
  | score
  | final
  deriving DecidableEq, Repr

/-- A result register: its value, or "unspecified" after an abort (60_exceptions.md R244), and every read of an unspecified
one draws a value of its own (R271; log 6). Every result register holds a value at reset. -/
inductive RegVal (w : Nat) where
  | known (v : BitVec w)
  | unspecified
  deriving DecidableEq, Repr

/-- A memory of `w`-bit entries: pairs (entry number, value), entry numbers strictly rising; an entry that is not listed
is unspecified (R271; log 4). `Mem 8` is a list of `Host.Cell`. -/
abbrev Mem (w : Nat) := List (Nat × BitVec w)

/-- A matrix memory, PLANE or OUT (R50), by cell number 256·y + x. When `cleared`, an unlisted cell is 0 (PLACE and
FINALIZE write every cell, R153, R202) and no listed cell is 0; otherwise an unlisted cell is unspecified (log 18). -/
structure Matrix (w : Nat) where
  cleared : Bool
  cells   : Mem w
  deriving DecidableEq, Repr

/-- The interrupt enables of CTRL (R25). -/
structure Ctrl where
  ieDone   : Bool
  ieFault  : Bool
  ieBuserr : Bool
  deriving DecidableEq, Repr

/-- The sequence flags (R41). -/
structure SeqFlags where
  eccValid : Bool
  placed   : Bool
  scored   : Bool
  final    : Bool
  deriving DecidableEq, Repr

/-- The stored fields of STATUS (R26). BUSY and IRQ are computed (log 17). -/
structure Status where
  done   : Bool
  fault  : Bool
  buserr : Bool
  flags  : SeqFlags
  phase  : Phase
  deriving DecidableEq, Repr

/-- ERR and ERRINFO (R28, R29). -/
structure ErrRegs where
  code  : BitVec 4
  cmd   : Byte
  phase : BitVec 3
  info  : Word
  deriving DecidableEq, Repr

/-- The configuration registers (R30 to R34). -/
structure ConfigRegs where
  version : BitVec 6
  eccode  : BitVec 2
  ecclen  : BitVec 8
  nblocks : BitVec 8
  rembits : BitVec 3
  deriving DecidableEq, Repr

/-- The six penalty registers of one mask candidate (R39). -/
structure Pen where
  n1    : RegVal 32
  n2    : RegVal 32
  n3    : RegVal 32
  n4    : RegVal 32
  total : RegVal 32
  dark  : RegVal 32
  deriving DecidableEq, Repr

/-- The result registers (R36 to R39). -/
structure ResultRegs where
  ndata    : RegVal 16
  ntotal   : RegVal 16
  selMask  : RegVal 3
  fmtIndex : RegVal 5
  fmtBits  : RegVal 15
  pen      : Vector Pen 8
  deriving DecidableEq, Repr

/-- The sequencer's internal state (R42): the command in flight as its accepted word, the abort request latch, the ECC
register, and where the step in progress stands: its loop counters as one number, the iterations made so far (log 2),
and whether it has set its success flag, so that only completion (R112) or the next step (R116) is left (log 25). BUSY
is "some command is in flight". -/
structure Sequencer where
  inflight : Option Word
  abortReq : Bool
  esr      : List Byte
  loops    : Nat
  ended    : Bool
  deriving DecidableEq, Repr

/-- The memories (R43 to R50), by the entry numbers of their windows (20_memory.md R60). -/
structure Memories where
  blk      : Mem 8
  cw       : Mem 8
  gf       : Mem 8
  pl       : Mem 24
  frame    : Mem 1
  plane    : Matrix 8
  out      : Matrix 1
  fmtC1    : Mem 16
  fmtC2    : Mem 16
  fmtTable : Mem 15
  deriving DecidableEq, Repr

/-- The bus's response to an access (R67 items 1 and 3): the data of a read (0 for a write or a bus error) and whether
the response is an error. -/
structure BusResp where
  data : Word
  err  : Bool
  deriving DecidableEq, Repr

/-- Which agent moves next (R283, R284; log 1). -/
inductive Turn where
  /-- The host's `k`-th pending access takes effect; `k` counts only where the interconnect may reorder (log 14). -/
  | host (k : Nat)
  /-- The sequencer runs the command in flight to its completion. -/
  | run
  /-- The sequencer runs the step in progress up to its success flag or its fault; where the step has ended, it makes the
  completion, or starts the next step of ENCODE_ALL (R110, R112, R116; log 25). -/
  | body
  /-- The sequencer makes one loop iteration of the step in progress, which only takes time (R283; log 2). -/
  | work
  /-- The sequencer sees ABORT_REQ, if it is set, where the step in progress stands (R118; log 8). -/
  | abort
  /-- The reset input is asserted (R270). -/
  | reset
  deriving DecidableEq, Repr

/-- The whole machine. `host`, `turns`, `resp` and `draws` are the model's own fields (log 1, 13, 16). -/
structure State where
  params : Params
  ctrl   : Ctrl
  status : Status
  err    : ErrRegs
  cfg    : ConfigRegs
  res    : ResultRegs
  seq    : Sequencer
  mem    : Memories
  host   : List BusAccess
  turns  : List Turn
  resp   : Option BusResp
  draws  : Nat
  deriving DecidableEq, Repr

/-- What stops the machine with a fault: nothing. Every fault of the spec (R241) and every bus error (R67) is recorded
in registers and the machine goes on, so no step raises one (safe: nothing is left out). -/
inductive Fault where
  deriving DecidableEq, Repr

/-- What the model refuses. -/
inductive Refusal where
  /-- Raised by `exec` alone, for an instruction that has no meaning yet; safe. No arm raises it. -/
  | notModelled (mnemonic : String)
  deriving DecidableEq, Repr

/-- The penalty registers of a mask after reset (R270). -/
def Pen.zero : Pen :=
  { n1 := .known 0#32, n2 := .known 0#32, n3 := .known 0#32, n4 := .known 0#32, total := .known 0#32,
    dark := .known 0#32 }

/-- ERR and ERRINFO with no fault recorded (R28, R29, R245). -/
def ErrRegs.zero : ErrRegs := { code := 0#4, cmd := 0#8, phase := 0#3, info := 0#32 }

/-- No sequence flag set (R114). -/
def SeqFlags.none : SeqFlags := { eccValid := false, placed := false, scored := false, final := false }

/-- The result registers after reset, and after CLEAR (R270, R120). -/
def ResultRegs.zero : ResultRegs :=
  { ndata := .known 0#16, ntotal := .known 0#16, selMask := .known 0#3, fmtIndex := .known 0#5,
    fmtBits := .known 0#15, pen := Vector.replicate 8 Pen.zero }

/-- Memories in which every entry is unspecified (R271). -/
def Memories.unspecified : Memories :=
  { blk := [], cw := [], gf := [], pl := [], frame := [], plane := ⟨false, []⟩, out := ⟨false, []⟩,
    fmtC1 := [], fmtC2 := [], fmtTable := [] }

/-- The state after reset for a choice of the parameters (R270, R271). ESR resets to no particular value: zero in every
entry is a DESIGN CHOICE (log 7), and so are the loop counters' zero (log 2) and the ended mark's false (log 25). -/
def State.resetWith (p : Params) : State :=
  { params := p
    ctrl   := { ieDone := false, ieFault := false, ieBuserr := false }
    status := { done := false, fault := false, buserr := false, flags := SeqFlags.none, phase := .idle }
    err    := ErrRegs.zero
    cfg    := { version := 0#6, eccode := 0#2, ecclen := 0#8, nblocks := 0#8, rembits := 0#3 }
    res    := ResultRegs.zero
    seq    := { inflight := none, abortReq := false, esr := List.replicate p.eccMax 0#8, loops := 0,
                ended := false }
    mem    := Memories.unspecified
    host   := []
    turns  := []
    resp   := none
    draws  := 0 }

/-- The state after reset of the block with the default parameters (R270; log 11). -/
def State.reset : State := State.resetWith Params.default

end Sys2Proof.Machine
end

