-- ==== Sys2Proof/Machine/Flags.lean ====
section
/-! DEFINITION. STATUS and everything computed from it: the phase codes (10_state.md R40), the sequence flags
(40_control.md R114), BUSY (R26), the interrupt output (60_exceptions.md R250) and the STATUS word (R26). -/

namespace Sys2Proof.Machine

/-- The 3-bit value of a phase (R40). -/
def Phase.code : Phase → BitVec 3
  | .idle => 0#3
  | .ctrl => 1#3
  | .rs => 2#3
  | .place => 3#3
  | .score => 4#3
  | .final => 5#3

/-- STATUS.BUSY (R26, R42): a command is in flight. -/
def State.busy (s : State) : Bool := s.seq.inflight.isSome

/-- The irq output, and STATUS.IRQ (R250). -/
def State.irq (s : State) : Bool :=
  (s.status.done && s.ctrl.ieDone) || (s.status.fault && s.ctrl.ieFault) || (s.status.buserr && s.ctrl.ieBuserr)

/-- What the start of the step of phase `p` does to the sequence flags: its own flag and every later one are cleared
(R114). -/
def startFlags (p : Phase) (f : SeqFlags) : SeqFlags :=
  match p with
  | .idle => f
  | .ctrl => f
  | .rs => { eccValid := false, placed := false, scored := false, final := false }
  | .place => { f with placed := false, scored := false, final := false }
  | .score => { f with scored := false, final := false }
  | .final => { f with final := false }

/-- What the success of the step of phase `p` does to the sequence flags: it sets its own flag (R114). -/
def successFlags (p : Phase) (f : SeqFlags) : SeqFlags :=
  match p with
  | .idle => f
  | .ctrl => f
  | .rs => { f with eccValid := true }
  | .place => { f with placed := true }
  | .score => { f with scored := true }
  | .final => { f with final := true }

/-- The first phase of a command (R111, R116). -/
def firstPhaseOf : Instr → Phase
  | .nop => .ctrl
  | .clear => .ctrl
  | .rsEncode => .rs
  | .place => .place
  | .score => .score
  | .finalize => .final
  | .encodeAll => .rs

/-- The first phase of an accepted word; CTRL for an ILLEGAL word (R111, R116). -/
def firstPhase (w : Word) : Phase :=
  match decodeWord w with
  | .ok i => firstPhaseOf i
  | .error _ => .ctrl

/-- The sequence flags that the acceptance of a word clears (R111, R114): CLEAR clears all four (log 9), NOP and an
ILLEGAL word none. -/
def acceptFlags (w : Word) (f : SeqFlags) : SeqFlags :=
  match decodeWord w with
  | .ok .clear => SeqFlags.none
  | .ok i => startFlags (firstPhaseOf i) f
  | .error _ => f

/-- The STATUS word (R26). -/
def State.statusWord (s : State) : Word :=
  0#13 ++ s.status.phase.code ++ 0#4
    ++ BitVec.ofBool s.status.flags.final ++ BitVec.ofBool s.status.flags.scored
    ++ BitVec.ofBool s.status.flags.placed ++ BitVec.ofBool s.status.flags.eccValid
    ++ 0#3 ++ BitVec.ofBool s.irq ++ BitVec.ofBool s.status.buserr ++ BitVec.ofBool s.status.fault
    ++ BitVec.ofBool s.status.done ++ BitVec.ofBool s.busy

/-- The ERR word (R28). -/
def ErrRegs.word (e : ErrRegs) : Word := 0#13 ++ e.phase ++ e.cmd ++ 0#4 ++ e.code

end Sys2Proof.Machine
end

