-- ==== Sys2Proof/Machine/Ops.lean ====
section
/-! DEFINITION. The named operations over memories and registers: reading and writing one entry (20_memory.md R70),
unspecified values (R271), acceptance and completion of a command (40_control.md R111, R112), raising a fault and
acknowledging it (60_exceptions.md R242, R245), a bus error (R67) and reset (R270). -/

namespace Sys2Proof.Machine

/-! ### Unspecified values -/

/-- `w` bits, from bit `lo` up, of the free word of draw `draw` at offset `off` (R271; log 4). -/
def freeField (draw off lo w : Nat) : BitVec w := (Config.freeWord draw off).extractLsb' lo w

/-- The value a read of a result register gives: its value, or a free one (R244, R271; log 6). -/
def RegVal.get {w : Nat} (r : RegVal w) (free : BitVec w) : BitVec w :=
  match r with
  | .known v => v
  | .unspecified => free

/-! ### Memories -/

/-- The last value written to entry `k`, if any (R70). -/
def Mem.read {w : Nat} : Mem w → Nat → Option (BitVec w)
  | [], _ => none
  | (a, v) :: m, k => if k = a then some v else Mem.read m k

/-- Writes entry `k`, keeping the entry numbers rising. -/
def Mem.write {w : Nat} : Mem w → Nat → BitVec w → Mem w
  | [], k, v => [(k, v)]
  | (a, x) :: m, k, v =>
    if k < a then (k, v) :: (a, x) :: m else if k = a then (k, v) :: m else (a, x) :: Mem.write m k v

/-- Writes consecutive entries from `k` up, in ascending order. -/
def Mem.writeList {w : Nat} : Mem w → Nat → List (BitVec w) → Mem w
  | m, _, [] => m
  | m, k, v :: vs => Mem.writeList (Mem.write m k v) (k + 1) vs

/-- Makes the `n` entries from `k` up unspecified (R244). -/
def Mem.forget {w : Nat} (m : Mem w) (k n : Nat) : Mem w :=
  m.filter (fun c => !(decide (k ≤ c.1) && decide (c.1 < k + n)))

/-- The canonical form: entry numbers strictly rising, so that equal memories are equal lists (log 4). -/
abbrev Mem.wf {w : Nat} (m : Mem w) : Prop := m.Pairwise (fun c d => c.1 < d.1)

/-- Every listed entry is one of the first `n`. -/
abbrev Mem.below {w : Nat} (m : Mem w) (n : Nat) : Prop := ∀ c ∈ m, c.1 < n

/-- The number of a matrix cell in its window (R60): `256·y + x`. -/
def cellIndex (x y : Nat) : Nat := 256 * y + x

/-- A matrix in which every cell is 0 (R153). -/
def Matrix.zero (w : Nat) : Matrix w := { cleared := true, cells := [] }

/-- A matrix in which every cell is unspecified (R244, R271). -/
def Matrix.unspecified (w : Nat) : Matrix w := { cleared := false, cells := [] }

/-- The value of cell `k`, if it is specified (log 18). -/
def Matrix.read {w : Nat} (m : Matrix w) (k : Nat) : Option (BitVec w) :=
  match m.cells.read k with
  | some v => some v
  | none => if m.cleared then some 0#w else none

/-- Writes cell `k`; in a cleared matrix a 0 is not listed (log 18). -/
def Matrix.write {w : Nat} (m : Matrix w) (k : Nat) (v : BitVec w) : Matrix w :=
  if m.cleared && v == 0#w then { m with cells := Mem.forget m.cells k 1 }
  else { m with cells := Mem.write m.cells k v }

/-- Writes the cell of number `k`, where there is one. -/
def Matrix.writeAt {w : Nat} (m : Matrix w) (k : Option Nat) (v : BitVec w) : Matrix w :=
  match k with
  | some k => Matrix.write m k v
  | none => m

/-- The canonical form of a matrix (log 18). -/
abbrev Matrix.wf {w : Nat} (m : Matrix w) : Prop :=
  Mem.wf m.cells ∧ (m.cleared = true → ∀ c ∈ m.cells, c.2 ≠ 0#w)

/-- The canonical form of every memory. -/
abbrev Memories.wf (m : Memories) : Prop :=
  Mem.wf m.blk ∧ Mem.wf m.cw ∧ Mem.wf m.gf ∧ Mem.wf m.pl ∧ Mem.wf m.frame ∧ Matrix.wf m.plane ∧ Matrix.wf m.out
    ∧ Mem.wf m.fmtC1 ∧ Mem.wf m.fmtC2 ∧ Mem.wf m.fmtTable

/-! ### Byte offsets of the entries (R22, R60) -/

def blkOffset (b : Nat) : Nat := 0x400 + 4 * b
def cwOffset (i : Nat) : Nat := 0x10000 + 4 * i
def gfEntry (p : Params) (c j : Nat) : Nat := c * p.eccMax + j
def gfOffset (e : Nat) : Nat := 0x20000 + 4 * e
def plOffset (i : Nat) : Nat := 0x40000 + 4 * i
def frameOffset (k : Nat) : Nat := 0x80000 + 4 * k
def matOffset (k : Nat) : Nat := 0xC0000 + 4 * k
def fmtC1Offset (k : Nat) : Nat := 0x200 + 4 * k
def fmtC2Offset (k : Nat) : Nat := 0x240 + 4 * k
def fmtTableOffset (i : Nat) : Nat := 0x280 + 4 * i
def penOffset (m : Nat) : Nat := 0x100 + 0x20 * m

/-- ESR has no offset on the bus; its free values are drawn above the 20-bit space (log 7). -/
def esrOffset (j : Nat) : Nat := 0x100000 + j

/-! ### The life of a command -/

/-- Acceptance of a command word, one atomic step (R111). -/
def accept (w : Word) (s : State) : State :=
  { s with
    seq := { s.seq with inflight := some w, abortReq := false, loops := 0, ended := false }
    status := { s.status with done := false, flags := acceptFlags w s.status.flags, phase := firstPhase w } }

/-- The start of the step of phase `p`: PHASE and the flags it clears (R114, R116); its loops have yet to run. -/
def startStep (p : Phase) (s : State) : State :=
  { s with
    seq := { s.seq with loops := 0, ended := false }
    status := { s.status with phase := p, flags := startFlags p s.status.flags } }

/-- The success of the step of phase `p` (R114). -/
def succeedStep (p : Phase) (s : State) : State :=
  { s with status := { s.status with flags := successFlags p s.status.flags } }

/-- The step in progress has set its success flag; completion, or the next step, is left (R110; log 25). -/
def endStep (s : State) : State := { s with seq := { s.seq with ended := true } }

/-- Completion of a command (R112). -/
def complete (s : State) : State :=
  { s with
    seq := { s.seq with inflight := none, loops := 0, ended := false }
    status := { s.status with phase := .idle, done := true } }

/-! ### Faults -/

/-- The fault codes a command can raise (R241). Codes 0 and 12 to 15 are never raised. -/
inductive FaultCode where
  | badOpcode
  | badVersion
  | badEcclen
  | badNblocks
  | badBlock
  | cwOverflow
  | plOverflow
  | badCoord
  | badFmtCoord
  | sequence
  | aborted
  deriving DecidableEq, Repr

/-- The value of a fault code (R241). -/
def FaultCode.value : FaultCode → BitVec 4
  | .badOpcode => 1#4
  | .badVersion => 2#4
  | .badEcclen => 3#4
  | .badNblocks => 4#4
  | .badBlock => 5#4
  | .cwOverflow => 6#4
  | .plOverflow => 7#4
  | .badCoord => 8#4
  | .badFmtCoord => 9#4
  | .sequence => 10#4
  | .aborted => 11#4

/-- `raise Fault(code, info)` in a command whose accepted word is `w`: the fault is recorded, with the phase that raised
it, and the command completes (R242, R112). -/
def takeFault (code : FaultCode) (info w : Word) (s : State) : State :=
  complete
    { s with
      err := { code := code.value, cmd := opcodeField w, phase := s.status.phase.code, info := info }
      status := { s.status with fault := true } }

/-- Acknowledging a fault: FAULT, ERR and ERRINFO are cleared; nothing is restored (R245). -/
def ackFault (s : State) : State :=
  { s with err := ErrRegs.zero, status := { s.status with fault := false } }

/-- A write to STATUS (R26): each W1C bit written 1 is cleared; bit 2 also clears ERR and ERRINFO (R245). -/
def writeStatus (v : Word) (s : State) : State :=
  let s := if v.getLsbD 1 then { s with status := { s.status with done := false } } else s
  let s := if v.getLsbD 2 then ackFault s else s
  if v.getLsbD 3 then { s with status := { s.status with buserr := false } } else s

/-- How the body of a step ends: it succeeds, or it raises a fault in the state it has reached. -/
inductive Body where
  | done (s : State)
  | raise (code : FaultCode) (info : Word) (s : State)
  deriving DecidableEq, Repr

/-- The next body of ENCODE_ALL runs where the one before it succeeded; a fault ends the chain (R121). -/
def Body.andThen (b : Body) (next : State → Body) : Body :=
  match b with
  | .done s => next s
  | .raise code info s => .raise code info s

/-- A body on its own: after its success flag the completion, or the next step, is left (R110; log 25); a fault is one
atomic step with its completion (R242, R112). -/
def Body.pause (w : Word) : Body → State
  | .done s => endStep s
  | .raise code info s => takeFault code info w s

/-- The end of a command after its last body: completion, or the fault and completion (R112, R242). -/
def Body.finish (w : Word) : Body → State
  | .done s => complete s
  | .raise code info s => takeFault code info w s

/-! ### Bus errors, responses and reset -/

/-- A bus error (R67): BUSERR, an error response with data 0, nothing else. -/
def busError (s : State) : State :=
  { s with status := { s.status with buserr := true }, resp := some { data := 0#32, err := true } }

/-- A good response to a read. -/
def respond (data : Word) (s : State) : State := { s with resp := some { data := data, err := false } }

/-- The reset input (R270, R271): every register at its reset value and every memory entry unspecified. The parameters
are the block's; the host's pending accesses, the schedule, the last response and the draw counter are outside it
(log 12). -/
def applyReset (s : State) : State :=
  { State.resetWith s.params with host := s.host, turns := s.turns, resp := s.resp, draws := s.draws }

end Sys2Proof.Machine
end

