-- ==== Sys2Proof/Machine/Operands.lean ====
section
/-! DEFINITION. The operands of the commands (30_encoding.md R94, R95): memory entries as a command reads them, the block
list and its validation (41_rs_encode.md R131), coordinates and toggles (R48, R95), the merged module (42_place.md R156)
and the format index (R203). Each read of the pseudocode takes a draw number of its own, with which an unspecified entry
is drawn (R271; log 4, 5). -/

namespace Sys2Proof.Machine

/-- An entry's value, or a free value of its field where nothing has written it (R70, R271). -/
def orFree {w : Nat} (v : Option (BitVec w)) (draw off lo : Nat) : BitVec w :=
  match v with
  | some x => x
  | none => freeField draw off lo w

/-- BLK[b] (R45). -/
def blkAt (s : State) (draw b : Nat) : BitVec 8 := orFree (s.mem.blk.read b) draw (blkOffset b) 0

/-- CW[i] (R46). -/
def cwAt (s : State) (draw i : Nat) : Byte := orFree (s.mem.cw.read i) draw (cwOffset i) 0

/-- GF[c][j] (R47). -/
def gfAt (s : State) (draw c j : Nat) : Byte :=
  orFree (s.mem.gf.read (gfEntry s.params c j)) draw (gfOffset (gfEntry s.params c j)) 0

/-- PL[i] (R48). -/
def plAt (s : State) (draw i : Nat) : BitVec 24 := orFree (s.mem.pl.read i) draw (plOffset i) 0

/-- FRAME[x][y] (R49). -/
def frameAt (s : State) (draw x y : Nat) : BitVec 1 :=
  orFree (s.mem.frame.read (cellIndex x y)) draw (frameOffset (cellIndex x y)) 0

/-- PLANE[x][y], bits [7:0] of its MAT word (R50, R61). -/
def planeAt (s : State) (draw x y : Nat) : BitVec 8 :=
  orFree (s.mem.plane.read (cellIndex x y)) draw (matOffset (cellIndex x y)) 0

/-- OUT[x][y], bit 8 of its MAT word (R50, R61). -/
def outAt (s : State) (draw x y : Nat) : BitVec 1 :=
  orFree (s.mem.out.read (cellIndex x y)) draw (matOffset (cellIndex x y)) 8

/-- FMT_C1[k] (R43). -/
def fmtC1At (s : State) (draw k : Nat) : BitVec 16 := orFree (s.mem.fmtC1.read k) draw (fmtC1Offset k) 0

/-- FMT_C2[k] (R43). -/
def fmtC2At (s : State) (draw k : Nat) : BitVec 16 := orFree (s.mem.fmtC2.read k) draw (fmtC2Offset k) 0

/-- FMT_TABLE[i] (R44). -/
def fmtTableAt (s : State) (draw i : Nat) : BitVec 15 := orFree (s.mem.fmtTable.read i) draw (fmtTableOffset i) 0

/-- Field X, bits [7:0] of a coordinate entry (R43, R48): the column. -/
def coordX {w : Nat} (e : BitVec w) : Nat := (e.extractLsb' 0 8).toNat

/-- Field Y, bits [15:8] of a coordinate entry (R43, R48): the row. -/
def coordY {w : Nat} (e : BitVec w) : Nat := (e.extractLsb' 8 8).toNat

/-- Field TOG, bits [23:16] of a PL entry (R48). -/
def toggleOf (e : BitVec 24) : Byte := e.extractLsb' 16 8

/-- A coordinate is legal when X < S and Y < S (R95). -/
def coordOk {w : Nat} (side : Nat) (e : BitVec w) : Bool := decide (coordX e < side) && decide (coordY e < side)

/-- SIDE as a function of VERSION (R35). -/
def sideOf (version : BitVec 6) : Nat :=
  if 1 ≤ version.toNat ∧ version.toNat ≤ 40 then 4 * version.toNat + 17 else 0

/-- The cell that a write at a coordinate entry lands on. A coordinate of MAX_SIDE or more names no cell (R50); a check
comes before every such write, so only an unwritten entry, whose check and use are two reads (R271), gives one, and the
spec does not say where that write lands: on a free cell, or on none (log 5). -/
def landing {w : Nat} (e : BitVec w) (draw off : Nat) : Option Nat :=
  let free : BitVec 16 := freeField draw off 0 16
  if coordX e < Config.maxSide ∧ coordY e < Config.maxSide then some (cellIndex (coordX e) (coordY e))
  else if coordX free < Config.maxSide ∧ coordY free < Config.maxSide then some (cellIndex (coordX free) (coordY free))
  else none

/-- VERSION ∈ 1..40 (R30, R241). -/
def versionOk (s : State) : Bool := decide (1 ≤ s.cfg.version.toNat) && decide (s.cfg.version.toNat ≤ 40)

/-- The lowest index whose element satisfies `p`, counting from `k`. -/
def firstIndex {α : Type} (p : α → Bool) : Nat → List α → Option Nat
  | _, [] => none
  | k, a :: as => if p a then some k else firstIndex p (k + 1) as

/-- BLK[0..NBLOCKS−1] in ascending order (R45), read at draw `draw`. The checks of R131, its sum and the block split of
R130 are three reads of each entry (R271; log 5). -/
def blockSizes (s : State) (draw : Nat) : List Nat :=
  (List.range s.cfg.nblocks.toNat).map (fun b => (blkAt s draw b).toNat)

/-- How the block-list validation ends: with NTOTAL, or with the first check that fails (R131). -/
inductive Validation where
  | ok (total : Nat)
  | bad (code : FaultCode) (info : Nat)
  deriving DecidableEq, Repr

/-- `ValidateBlocks()` up to its writes (R131): the block checks read BLK at draw `draw`, the sum at the next one. -/
def validateBlocks (s : State) (draw : Nat) : Validation :=
  let n := s.cfg.ecclen.toNat
  let nblocks := s.cfg.nblocks.toNat
  if n = 0 ∨ n > s.params.eccMax then .bad .badEcclen n
  else if nblocks = 0 ∨ nblocks > s.params.blkDepth then .bad .badNblocks nblocks
  else
    match firstIndex (fun k => decide (k < n)) 0 (blockSizes s draw) with
    | some b => .bad .badBlock b
    | none =>
      let total := (blockSizes s (draw + 1)).sum
      if total > s.params.cwDepth then .bad .cwOverflow total else .ok total

/-- The number of ECC codewords, NBLOCKS·ECCLEN (R36, R135). -/
def eccCount (s : State) : Nat := s.cfg.nblocks.toNat * s.cfg.ecclen.toNat

/-- NDATA for a value of NTOTAL (R36, R131), where NTOTAL is at least NBLOCKS·ECCLEN; 0 where it is less, so that
CW[NDATA..NTOTAL−1] are then the entries below NTOTAL (log 5). -/
def dataCount (s : State) (total : Nat) : Nat := total - eccCount s

/-- The value written to NDATA (R131). Unwritten BLK entries may give a sum below NBLOCKS·ECCLEN, for which the spec states
no NDATA: the value written is then a free one (log 5). -/
def ndataValue (s : State) (total : Nat) : BitVec 16 :=
  if eccCount s ≤ total then BitVec.ofNat 16 (dataCount s total) else freeField s.draws 0x038 0 16

/-- The two writes of `ValidateBlocks()` after its checks (R131). -/
def writeCounts (total : Nat) (s : State) : State :=
  { s with res := { s.res with ntotal := .known (BitVec.ofNat 16 total), ndata := .known (ndataValue s total) } }

/-- Advances the draw counter past the draws a body has used (log 16). -/
def advanceDraws (n : Nat) (s : State) : State := { s with draws := s.draws + n }

/-- `Module(m, x, y)` (R156): the plane bit of candidate `m` or the frame bit. -/
def moduleAt (s : State) (draw m x y : Nat) : Bool :=
  (planeAt s draw x y).getLsbD m || (frameAt s draw x y).getLsbD 0

/-- The format index `ECCODE<<3 | SEL_MASK` (R95, R203), 5 bits. -/
def formatIndex (eccode : BitVec 2) (mask : BitVec 3) : BitVec 5 := eccode ++ mask

end Sys2Proof.Machine
end

