-- ==== Sys2Proof/Machine/Format.lean ====
section
/-! DEFINITION. The format-information embedder, command FINALIZE (44_format.md R200 to R206). -/

namespace Sys2Proof.Machine

/-- FMT_C1[0..14] as the coordinate check reads them (R201). -/
def formatCoords1 (s : State) (draw : Nat) : List (BitVec 16) := (List.range 15).map (fmtC1At s draw)

/-- FMT_C2[0..14] as the coordinate check reads them (R201). -/
def formatCoords2 (s : State) (draw : Nat) : List (BitVec 16) := (List.range 15).map (fmtC2At s draw)

/-- The cells of the two regions as the writes read them (R202): a second read of each entry (R271; log 5). -/
def formatTargets1 (s : State) (draw : Nat) : List (Option Nat) :=
  (List.range 15).map (fun k => landing (fmtC1At s draw k) (draw + 1) (fmtC1Offset k))
def formatTargets2 (s : State) (draw : Nat) : List (Option Nat) :=
  (List.range 15).map (fun k => landing (fmtC2At s draw k) (draw + 1) (fmtC2Offset k))

/-- The info value of the first coordinate that is not legal (R201): k in FMT_C1, else 16 + k in FMT_C2. -/
def badFormatCoord (side : Nat) (c1 c2 : List (BitVec 16)) : Option Nat :=
  match firstIndex (fun e => !coordOk side e) 0 c1 with
  | some k => some k
  | none => firstIndex (fun e => !coordOk side e) 16 c2

/-- The cells of the S × S matrix in ascending cell number, as (x, y). -/
def sideCells (side : Nat) : List (Nat × Nat) :=
  (List.range side).flatMap (fun y => (List.range side).map (fun x => (x, y)))

/-- OUT before the format bits (R202): the merged module inside S × S, 0 outside. -/
def mergedOut (dark : Nat → Nat → Bool) (side : Nat) : Matrix 1 :=
  { cleared := true
    cells := (sideCells side).foldr (fun c m => if dark c.1 c.2 then Mem.write m (cellIndex c.1 c.2) 1#1 else m) [] }

/-- Writes string bit `k`, which is `bits[14 − k]`, at coordinate `k` of a region, in ascending `k` (R202, R204). -/
def embedBits (bits : BitVec 15) : Matrix 1 → Nat → List (Option Nat) → Matrix 1
  | m, _, [] => m
  | m, k, c :: cs => embedBits bits (Matrix.writeAt m c (BitVec.ofBool (bits.getLsbD (14 - k)))) (k + 1) cs

/-- SEL_MASK as FINALIZE reads it (R202). -/
def selMaskAt (s : State) (draw : Nat) : BitVec 3 := s.res.selMask.get (freeField draw 0x040 0 3)

/-- The writes of FINALIZE (R202): OUT merged, then the primary region, then the secondary one; FMT_INDEX, FMT_BITS. -/
def writeFormat (s : State) : State :=
  let mask := selMaskAt s s.draws
  let index := formatIndex s.cfg.eccode mask
  let bits := fmtTableAt s s.draws index.toNat
  let merged := mergedOut (fun x y => moduleAt s s.draws mask.toNat x y) (sideOf s.cfg.version)
  { s with
    mem := { s.mem with
      out := embedBits bits (embedBits bits merged 0 (formatTargets1 s (s.draws + 1))) 0
        (formatTargets2 s (s.draws + 1)) }
    res := { s.res with fmtIndex := .known index, fmtBits := .known bits } }

/-- The body of FINALIZE (R201, R202), which ENCODE_ALL runs too. The SEQUENCE check of R115 comes first (R243). It uses
draws up to `draws + 2`. -/
def finalizeBody (s : State) : Body :=
  let s := startStep .final s
  if !s.status.flags.scored then .raise .sequence (encode .finalize) s
  else if !versionOk s then .raise .badVersion (s.cfg.version.setWidth 32) s
  else
    match badFormatCoord (sideOf s.cfg.version) (formatCoords1 s s.draws) (formatCoords2 s s.draws) with
    | some k => .raise .badFmtCoord (BitVec.ofNat 32 k) (advanceDraws 3 s)
    | none => .done (succeedStep .final (advanceDraws 3 (writeFormat s)))

/-- FINALIZE (R200). -/
def execFinalize (s : State) : Host.Outcome State Fault Refusal :=
  .next (Body.finish (encode .finalize) (finalizeBody s))

end Sys2Proof.Machine
end

