-- ==== Sys2Proof/Machine/Place.lean ====
section
/-! DEFINITION. The module placer, command PLACE (42_place.md R150 to R158). -/

namespace Sys2Proof.Machine

/-- The number of bits PLACE places (R150): `B = 8·NTOTAL + REMBITS`. -/
def bitCount (s : State) (total : Nat) : Nat := 8 * total + s.cfg.rembits.toNat

/-- PL[0..B−1] as the coordinate check reads them (R151). -/
def plEntries (s : State) (draw count : Nat) : List (BitVec 24) := (List.range count).map (plAt s draw)

/-- The cell and the toggle of each bit as the writes read them (R153): a second read of each entry (R271; log 5). -/
def plTargets (s : State) (draw count : Nat) : List (Option Nat × Byte) :=
  (List.range count).map (fun i => (landing (plAt s draw i) (draw + 1) (plOffset i), toggleOf (plAt s draw i)))

/-- The data bit of global bit index `i` (R152, R153): bit `7 − i mod 8` of codeword `i / 8`, and 0 for a remainder bit
(R155). Every bit is a read of its own (log 4). -/
def dataBit (s : State) (draw ntotal i : Nat) : Bool :=
  if i < 8 * ntotal then (cwAt s (draw + i % 8) (i / 8)).getLsbD (7 - i % 8) else false

/-- The plane byte of a bit (R153, R154): the bit copied to all eight planes, xor the toggle. -/
def planeByte (bit : Bool) (toggle : Byte) : Byte := (if bit then 0xFF#8 else 0x00#8) ^^^ toggle

/-- The PLANE writes in ascending bit index (R153). -/
def placeBits (bit : Nat → Bool) : Matrix 8 → Nat → List (Option Nat × Byte) → Matrix 8
  | m, _, [] => m
  | m, i, e :: es => placeBits bit (Matrix.writeAt m e.1 (planeByte (bit i) e.2)) (i + 1) es

/-- PLANE and OUT after the writes of PLACE (R153). -/
def writePlanes (total : Nat) (s : State) : State :=
  { s with
    mem := { s.mem with
      plane := placeBits (dataBit s s.draws total) (Matrix.zero 8) 0 (plTargets s (s.draws + 1) (bitCount s total))
      out := Matrix.zero 1 } }

/-- PLANE and OUT after a BAD_COORD fault, and after an abort in PLACE (R151, R244). -/
def forgetPlanes (s : State) : State :=
  { s with mem := { s.mem with plane := Matrix.unspecified 8, out := Matrix.unspecified 1 } }

/-- The body of PLACE (R151, R153), which ENCODE_ALL runs too. It uses draws up to `draws + 7`. -/
def placeBody (s : State) : Body :=
  let s := startStep .place s
  if !versionOk s then .raise .badVersion (s.cfg.version.setWidth 32) s
  else
    match validateBlocks s s.draws with
    | .bad code info => .raise code (BitVec.ofNat 32 info) (advanceDraws 8 s)
    | .ok total =>
      let count := bitCount s total
      if count > s.params.plDepth then
        .raise .plOverflow (BitVec.ofNat 32 count) (advanceDraws 8 (writeCounts total s))
      else
        match firstIndex (fun e => !coordOk (sideOf s.cfg.version) e) 0 (plEntries s s.draws count) with
        | some i => .raise .badCoord (BitVec.ofNat 32 i) (advanceDraws 8 (writeCounts total (forgetPlanes s)))
        | none => .done (succeedStep .place (advanceDraws 8 (writeCounts total (writePlanes total s))))

/-- PLACE (R150). -/
def execPlace (s : State) : Host.Outcome State Fault Refusal :=
  .next (Body.finish (encode .place) (placeBody s))

end Sys2Proof.Machine
end

