-- ==== Sys2Proof/Machine/RsEncode.lean ====
section
/-! DEFINITION. The Reed–Solomon ECC encoder, command RS_ENCODE (41_rs_encode.md R130 to R139). -/

namespace Sys2Proof.Machine

/-- GF[f][0..n−1] (R133), read at draw `draw`. -/
def gfRow (s : State) (draw n : Nat) (f : Byte) : List Byte := (List.range n).map (gfAt s draw f.toNat)

/-- One step of the division register (R134): the leading coefficient, the shift, and the row where the coefficient is
not 0. -/
def divideStep (row : Byte → List Byte) (esr : List Byte) (d : Byte) : List Byte :=
  let f := gfAdd d (esr.headD 0#8)
  let shifted := esr.tail ++ [0#8]
  if f = 0#8 then shifted else List.zipWith gfAdd shifted (row f)

/-- The steps of `DivideBlock` over the data codewords of a block (R134). `row t` reads the table at step `t`, counted
from the first step of the command. -/
def divideBlock (row : Nat → Byte → List Byte) : Nat → List Byte → List Byte → List Byte
  | _, esr, [] => esr
  | t, esr, d :: ds => divideBlock row (t + 1) (divideStep (row t) esr d) ds

/-- CW[off..off+k−1], the data codewords of a block (R132). -/
def blockData (s : State) (draw off k : Nat) : List Byte := (List.range k).map (fun t => cwAt s draw (off + t))

/-- The ECC codewords of every block, in block order (R130, R135). Block sizes are BLK entries; each block takes the next
`size − n` data codewords (R132). Table reads of step `t` use draw `draw + 1 + t` (log 4). -/
def eccCodewords (s : State) (draw n : Nat) : Nat → List Nat → List Byte
  | _, [] => []
  | off, size :: sizes =>
    divideBlock (fun t => gfRow s (draw + 1 + t) n) off (List.replicate n 0#8) (blockData s draw off (size - n))
      ++ eccCodewords s draw n (off + (size - n)) sizes

/-- ESR after RS_ENCODE: unspecified (R138), so free values (log 7). -/
def freeEsr (s : State) (draw : Nat) : List Byte :=
  (List.range s.params.eccMax).map (fun j => freeField draw (esrOffset j) 0 8)

/-- CW with CW[NDATA..NTOTAL−1] unspecified (R135, R244). -/
def forgetEccEntries (total : Nat) (s : State) : Mem 8 :=
  Mem.forget s.mem.cw (dataCount s total) (total - dataCount s total)

/-- Free values for CW[NDATA..NTOTAL−1], which RS_ENCODE writes also where the spec states no ECC codewords (R135, R139
item 8; log 5). -/
def freeEcc (s : State) (draw total : Nat) : List Byte :=
  (List.range (total - dataCount s total)).map (fun e => freeField draw (cwOffset (dataCount s total + e)) 0 8)

/-- The block split reads the data codewords CW[0..NDATA−1] alone (R132), as it does for every written block list. -/
def splitFits (s : State) (total : Nat) (sizes : List Nat) : Bool :=
  decide (eccCount s ≤ total) && sizes.all (fun k => decide (s.cfg.ecclen.toNat ≤ k))
    && decide ((sizes.map (fun k => k - s.cfg.ecclen.toNat)).sum ≤ dataCount s total)

/-- The values that RS_ENCODE writes to CW[NDATA..NTOTAL−1] (R130, R135). The split reads BLK a third time, at draw
`draws + 2`; where those values of unwritten entries do not fit the NDATA of the sum, the spec states no ECC codewords, and
free values are written (log 5). -/
def eccWritten (total : Nat) (s : State) : List Byte :=
  let sizes := blockSizes s (s.draws + 2)
  if splitFits s total sizes then eccCodewords s (s.draws + 2) s.cfg.ecclen.toNat 0 sizes
  else freeEcc s (s.draws + 2) total

/-- CW after the writes of RS_ENCODE (R130, R135). -/
def encodedCw (total : Nat) (s : State) : Mem 8 := Mem.writeList s.mem.cw (dataCount s total) (eccWritten total s)

/-- The writes of RS_ENCODE to CW and ESR after its checks (R130, R135, R138). -/
def writeEcc (total : Nat) (s : State) : State :=
  { s with mem := { s.mem with cw := encodedCw total s }, seq := { s.seq with esr := freeEsr s s.draws } }

/-- The body of RS_ENCODE (R130), which ENCODE_ALL runs too (R121). It uses draws up to `draws + NDATA + 2`. -/
def rsBody (s : State) : Body :=
  let s := startStep .rs s
  match validateBlocks s s.draws with
  | .bad code info => .raise code (BitVec.ofNat 32 info) (advanceDraws 2 s)
  | .ok total =>
    .done (succeedStep .rs (advanceDraws (dataCount s total + 3) (writeCounts total (writeEcc total s))))

/-- RS_ENCODE (R130). -/
def execRsEncode (s : State) : Host.Outcome State Fault Refusal :=
  .next (Body.finish (encode .rsEncode) (rsBody s))

end Sys2Proof.Machine
end

