-- ==== Sys2Proof/Machine/Score.lean ====
section
/-! DEFINITION. The penalty evaluator and mask selection, command SCORE (43_score.md R170 to R184). -/

namespace Sys2Proof.Machine

/-- A candidate matrix: its rows from y = 0 up, each the modules from x = 0 up; `true` is dark (R171, R173). -/
abbrev Grid := List (List Bool)

/-- The candidate matrix of mask `m` (R171): every module read once, at draw `draw` (log 4). -/
def candidate (s : State) (draw m : Nat) : Grid :=
  (List.range (sideOf s.cfg.version)).map (fun y =>
    (List.range (sideOf s.cfg.version)).map (fun x => moduleAt s draw m x y))

/-- The columns of a matrix of side `side` (R173). -/
def columns (side : Nat) (g : Grid) : List (List Bool) :=
  (List.range side).map (fun x => g.map (fun row => row.getD x false))

/-- The 2·S lines: the rows, then the columns (R173). -/
def gridLines (side : Nat) (g : Grid) : List (List Bool) := g ++ columns side g

/-- Puts one module in front of a run list. -/
def consRun (c : Bool) : List (Bool × Nat) → List (Bool × Nat)
  | [] => [(c, 1)]
  | (c', l) :: rs => if c = c' then (c', l + 1) :: rs else (c, 1) :: (c', l) :: rs

/-- The run list of a line (R173): colours and lengths, in order. -/
def runs : List Bool → List (Bool × Nat)
  | [] => []
  | c :: cs => consRun c (runs cs)

/-- The N1 points of a run of length `l` (R174): `3 + (l − 5)` from length 5 up. -/
def n1Run (l : Nat) : Nat := if 5 ≤ l then 3 + (l - 5) else 0

/-- The N1 points of a line (R174). -/
def n1Line (line : List Bool) : Nat := ((runs line).map (fun r => n1Run r.2)).sum

/-- Rule N1 (R174). -/
def n1Score (side : Nat) (g : Grid) : Nat := ((gridLines side g).map n1Line).sum

/-- The uniform 2×2 windows of two adjacent rows (R175). -/
def windows : List Bool → List Bool → Nat
  | a :: b :: as, c :: d :: cs => (if a = b ∧ a = c ∧ a = d then 1 else 0) + windows (b :: as) (d :: cs)
  | _, _ => 0

/-- The uniform 2×2 windows of a matrix (R175). -/
def gridWindows : Grid → Nat
  | r :: r' :: rest => windows r r' + gridWindows (r' :: rest)
  | _ => 0

/-- Rule N2 (R175). -/
def n2Score (g : Grid) : Nat := 3 * gridWindows g

/-- Whether a run list begins with five runs of lengths w, w, 3w, w, w whose middle one is dark (R176). -/
def patternHere : List (Bool × Nat) → Bool
  | (_, a) :: (_, b) :: (c, m) :: (_, d) :: (_, e) :: _ => c && a == b && b == d && d == e && m == 3 * b
  | _ => false

/-- The occurrences of the pattern in a run list (R176). -/
def patternCount : List (Bool × Nat) → Nat
  | [] => 0
  | r :: rs => (if patternHere (r :: rs) then 1 else 0) + patternCount rs

/-- The occurrences in a line, by the parameter N3_RULE (R176, D11). -/
def n3Line (rule : N3Rule) (line : List Bool) : Nat :=
  match rule with
  | .ratioRuns => patternCount (runs line)
  | .other k => Config.otherN3Rule k line

/-- Rule N3 (R176). -/
def n3Score (rule : N3Rule) (side : Nat) (g : Grid) : Nat := 40 * ((gridLines side g).map (n3Line rule)).sum

/-- The number of dark modules (R177). -/
def darkCount (g : Grid) : Nat := (g.map (fun row => row.count true)).sum

/-- The distance of two numbers. -/
def absDiff (a b : Nat) : Nat := (a - b) + (b - a)

/-- Rule N4 by the parameter N4_RULE (R177, D12): whole 5 % bands of the deviation from one half. -/
def n4Score (p : Params) (dark total : Nat) : Nat :=
  match p.n4Rule with
  | .exactBands => p.n4Weight * (absDiff (20 * dark) (10 * total) / total)
  | .other k => Config.otherN4Rule k dark total

/-- The scores of one candidate (R172). -/
structure PenScore where
  n1   : Nat
  n2   : Nat
  n3   : Nat
  n4   : Nat
  dark : Nat
  deriving DecidableEq, Repr

/-- The scores of a candidate matrix (R172). -/
def scoreGrid (p : Params) (side : Nat) (g : Grid) : PenScore :=
  { n1 := n1Score side g, n2 := n2Score g, n3 := n3Score p.n3Rule side g,
    n4 := n4Score p (darkCount g) (side * side), dark := darkCount g }

/-- PEN_TOTAL (R178), in 32 bits. -/
def PenScore.total (c : PenScore) : Word := BitVec.ofNat 32 (c.n1 + c.n2 + c.n3 + c.n4)

/-- The six registers of a candidate (R39, R172). -/
def PenScore.regs (c : PenScore) : Pen :=
  { n1 := .known (BitVec.ofNat 32 c.n1), n2 := .known (BitVec.ofNat 32 c.n2), n3 := .known (BitVec.ofNat 32 c.n3),
    n4 := .known (BitVec.ofNat 32 c.n4), total := .known c.total, dark := .known (BitVec.ofNat 32 c.dark) }

/-- The selection loop (R179): a later index replaces the best only when its total is strictly lower. -/
def selectMask (totals : List Word) : Nat :=
  [1, 2, 3, 4, 5, 6, 7].foldl
    (fun best m => if totals.getD m 0#32 < totals.getD best 0#32 then m else best) 0

/-- The scores of the eight candidates (R172), candidate `m` read at draw `draws + m`. -/
def candidateScores (s : State) : Vector PenScore 8 :=
  Vector.ofFn (fun m : Fin 8 =>
    scoreGrid s.params (sideOf s.cfg.version) (candidate s (s.draws + m.val) m.val))

/-- The writes of SCORE (R172): the penalty registers and SEL_MASK. -/
def writeScores (scores : Vector PenScore 8) (s : State) : State :=
  { s with
    res := { s.res with
      pen := scores.map PenScore.regs
      selMask := .known (BitVec.ofNat 3 (selectMask (scores.toList.map PenScore.total))) } }

/-- The body of SCORE (R172), which ENCODE_ALL runs too. The SEQUENCE check of R115 comes first (R243). -/
def scoreBody (s : State) : Body :=
  let s := startStep .score s
  if !s.status.flags.placed then .raise .sequence (encode .score) s
  else if !versionOk s then .raise .badVersion (s.cfg.version.setWidth 32) s
  else .done (succeedStep .score (advanceDraws 8 (writeScores (candidateScores s) s)))

/-- SCORE (R170). -/
def execScore (s : State) : Host.Outcome State Fault Refusal :=
  .next (Body.finish (encode .score) (scoreBody s))

end Sys2Proof.Machine
end

