-- ==== Sys2Proof/Machine/EncodeAll.lean ====
section
/-! DEFINITION. The chained command ENCODE_ALL (40_control.md R121, R122). -/

namespace Sys2Proof.Machine

/-- The bodies of ENCODE_ALL from the step of phase `p` to the last (R116, R121). The phases IDLE and CTRL, which no
ENCODE_ALL in flight is in, start at the first step (log 23). -/
def encodeAllFrom (p : Phase) (s : State) : Body :=
  match p with
  | .final => finalizeBody s
  | .score => (scoreBody s).andThen finalizeBody
  | .place => ((placeBody s).andThen scoreBody).andThen finalizeBody
  | .idle => (((rsBody s).andThen placeBody).andThen scoreBody).andThen finalizeBody
  | .ctrl => (((rsBody s).andThen placeBody).andThen scoreBody).andThen finalizeBody
  | .rs => (((rsBody s).andThen placeBody).andThen scoreBody).andThen finalizeBody

/-- ENCODE_ALL (R121), from the step that PHASE names to its completion. -/
def execEncodeAll (s : State) : Host.Outcome State Fault Refusal :=
  .next (Body.finish (encode .encodeAll) (encodeAllFrom s.status.phase s))

/-- The body of the step of ENCODE_ALL that PHASE names (R116, R121). -/
def encodeAllBody (s : State) : Body :=
  match s.status.phase with
  | .final => finalizeBody s
  | .score => scoreBody s
  | .place => placeBody s
  | .idle => rsBody s
  | .ctrl => rsBody s
  | .rs => rsBody s

/-- The step of ENCODE_ALL after the step of phase `p` (R116). -/
def nextPhase : Phase → Option Phase
  | .rs => some .place
  | .place => some .score
  | .score => some .final
  | .idle => none
  | .ctrl => none
  | .final => none

end Sys2Proof.Machine
end

