-- ==== Sys2Proof/Machine/Abort.lean ====
section
/-! DEFINITION. The end of a command by ABORT (40_control.md R118) and the state it leaves (60_exceptions.md R244). -/

namespace Sys2Proof.Machine

/-- NDATA and NTOTAL after an abort: unspecified where the abort fell at or after the block-list validation, whose loop
over the blocks is the first of RS and of PLACE, the step of a single command that has ended among
them (R131, R244; log 8, 25). -/
def forgetCounts (s : State) : State :=
  if s.seq.loops = 0 ∧ s.seq.ended = false then s else { s with res := { s.res with ndata := .unspecified, ntotal := .unspecified } }

/-- NTOTAL of an aborted RS step. A step that has ended has written it (R131); one that has not has it from its own reads of
the block list, where these pass the validation, and otherwise has written no CW entry (log 22). -/
def abortedTotal (s : State) : Option Nat :=
  if s.seq.ended then
    match s.res.ntotal with
    | .known v => some v.toNat
    | .unspecified => none
  else
    match validateBlocks s s.draws with
    | .ok total => some total
    | .bad _ _ => none

/-- CW[NDATA..NTOTAL−1] after an abort in RS (R244), where NTOTAL is the aborted step's; ESR is unspecified too (R138). -/
def forgetEcc (s : State) : State :=
  let s' := { s with seq := { s.seq with esr := freeEsr s s.draws } }
  match abortedTotal s with
  | none => s'
  | some total => { s' with mem := { s.mem with cw := forgetEccEntries total s } }

/-- The penalty registers of a mask, all unspecified. -/
def Pen.unspecified : Pen :=
  { n1 := .unspecified, n2 := .unspecified, n3 := .unspecified, n4 := .unspecified, total := .unspecified,
    dark := .unspecified }

/-- PEN_* and SEL_MASK after an abort in SCORE (R39, R244). -/
def forgetScores (s : State) : State :=
  { s with res := { s.res with pen := Vector.replicate 8 Pen.unspecified, selMask := .unspecified } }

/-- OUT, FMT_INDEX and FMT_BITS after an abort in FINAL (R244). -/
def forgetFormat (s : State) : State :=
  { s with
    res := { s.res with fmtIndex := .unspecified, fmtBits := .unspecified }
    mem := { s.mem with out := Matrix.unspecified 1 } }

/-- A register of an aborted CLEAR: cleared or unchanged, by a free bit of its own (R120, R244; log 9). -/
def clearedOrKept {w : Nat} (draw off : Nat) (r : RegVal w) : RegVal w :=
  if freeField draw off 0 1 = 1#1 then .known 0#w else r

/-- The penalty registers of mask `m` after an aborted CLEAR (R120). -/
def clearedOrKeptPen (draw m : Nat) (p : Pen) : Pen :=
  { n1 := clearedOrKept draw (penOffset m + 0x00) p.n1
    n2 := clearedOrKept draw (penOffset m + 0x04) p.n2
    n3 := clearedOrKept draw (penOffset m + 0x08) p.n3
    n4 := clearedOrKept draw (penOffset m + 0x0C) p.n4
    total := clearedOrKept draw (penOffset m + 0x10) p.total
    dark := clearedOrKept draw (penOffset m + 0x14) p.dark }

/-- The result registers after an aborted CLEAR (R120). -/
def abortedClear (s : State) : State :=
  { s with
    res :=
      { ndata := clearedOrKept s.draws 0x038 s.res.ndata
        ntotal := clearedOrKept s.draws 0x03C s.res.ntotal
        selMask := clearedOrKept s.draws 0x040 s.res.selMask
        fmtIndex := clearedOrKept s.draws 0x044 s.res.fmtIndex
        fmtBits := clearedOrKept s.draws 0x048 s.res.fmtBits
        pen := Vector.ofFn (fun m : Fin 8 => clearedOrKeptPen s.draws m.val s.res.pen[m]) } }

/-- What an abort in the phase PHASE names leaves unspecified (R244). -/
def abortEffects (w : Word) (s : State) : State :=
  match s.status.phase with
  | .idle => s
  | .ctrl => if decodeWord w = .ok .clear then abortedClear s else s
  | .rs => forgetCounts (forgetEcc s)
  | .place => forgetCounts (forgetPlanes s)
  | .score => forgetScores s
  | .final => forgetFormat s

/-- The sequence flags of an aborted step: as its start set them, its own flag 0 (R114). -/
def dropStepFlags (s : State) : State :=
  { s with status := { s.status with flags := startFlags s.status.phase s.status.flags } }

/-- The step in progress is a body of ENCODE_ALL that has succeeded: "every body that succeeded before the fault keeps its
results" (R244). -/
def bodyKept (w : Word) (s : State) : Bool := s.seq.ended && decide (decodeWord w = .ok .encodeAll)

/-- What an abort leaves of the step in progress (R114, R118, R244): a body of ENCODE_ALL that has succeeded keeps its flag
and its results; every other step, the step of a single command that has ended among them (log 25), is dropped. -/
def dropStep (w : Word) (s : State) : State :=
  if bodyKept w s then s else advanceDraws 2 (abortEffects w (dropStepFlags s))

/-- The command in flight, with accepted word `w`, ends with `Fault(ABORTED, PHASE)` (R118). -/
def takeAbort (w : Word) (s : State) : State :=
  takeFault .aborted (s.status.phase.code.setWidth 32) w (dropStep w s)

end Sys2Proof.Machine
end

