-- ==== Sys2Proof/Machine/Bus.lean ====
section
/-! DEFINITION. The register bus: the address map (10_state.md R22, 20_memory.md R60), reads and writes of every location
(R61, R65), the access rules (R63 to R67) and the command and control writes (R25 to R27, R111, R118, R245). -/

namespace Sys2Proof.Machine

/-- The six penalty registers of a mask (R39). -/
inductive PenField where
  | n1
  | n2
  | n3
  | n4
  | total
  | dark
  deriving DecidableEq, Repr

/-- What an aligned offset names (R22, R60). -/
inductive Loc where
  | id | params0 | ctrl | status | cmd | err | errinfo | params1
  | version | eccode | ecclen | nblocks | rembits | side | ndata | ntotal | selMask | fmtIndex | fmtBits
  | pen (m : Fin 8) (f : PenField)
  | fmtC1 (k : Nat) | fmtC2 (k : Nat) | fmtTable (i : Nat)
  | blk (b : Nat) | cw (i : Nat) | gf (e : Nat) | pl (i : Nat)
  | frame (x y : Nat) | mat (x y : Nat)
  | reserved
  deriving DecidableEq, Repr

/-- The registers at 0x000–0x0FF (R22). -/
def locateRegister (off : Nat) : Loc :=
  match off / 4 with
  | 0 => .id
  | 1 => .params0
  | 2 => .ctrl
  | 3 => .status
  | 4 => .cmd
  | 5 => .err
  | 6 => .errinfo
  | 7 => .params1
  | 8 => .version
  | 9 => .eccode
  | 10 => .ecclen
  | 11 => .nblocks
  | 12 => .rembits
  | 13 => .side
  | 14 => .ndata
  | 15 => .ntotal
  | 16 => .selMask
  | 17 => .fmtIndex
  | 18 => .fmtBits
  | _ => .reserved

/-- The penalty registers at 0x100–0x1FF (R39). -/
def locatePen (off : Nat) : Loc :=
  let m := Fin.ofNat 8 ((off - 0x100) / 0x20)
  match (off - 0x100) % 0x20 / 4 with
  | 0 => .pen m .n1
  | 1 => .pen m .n2
  | 2 => .pen m .n3
  | 3 => .pen m .n4
  | 4 => .pen m .total
  | 5 => .pen m .dark
  | _ => .reserved

/-- The format registers at 0x200–0x3FF (R43, R44). -/
def locateFormat (off : Nat) : Loc :=
  if off < 0x240 then (if (off - 0x200) / 4 < 15 then .fmtC1 ((off - 0x200) / 4) else .reserved)
  else if off < 0x280 then (if (off - 0x240) / 4 < 15 then .fmtC2 ((off - 0x240) / 4) else .reserved)
  else if off < 0x300 then .fmtTable ((off - 0x280) / 4)
  else .reserved

/-- A cell of a matrix window, 256·y + x, where it names one (R60). -/
def locateCell (mk : Nat → Nat → Loc) (cell : Nat) : Loc :=
  if cell % 256 < Config.maxSide ∧ cell / 256 < Config.maxSide then mk (cell % 256) (cell / 256) else .reserved

/-- The location that an aligned offset names (R22, R60). -/
def locate (p : Params) (off : Nat) : Loc :=
  if off < 0x100 then locateRegister off
  else if off < 0x200 then locatePen off
  else if off < 0x400 then locateFormat off
  else if off < 0x10000 then (if (off - 0x400) / 4 < p.blkDepth then .blk ((off - 0x400) / 4) else .reserved)
  else if off < 0x20000 then (if (off - 0x10000) / 4 < p.cwDepth then .cw ((off - 0x10000) / 4) else .reserved)
  else if off < 0x40000 then (if (off - 0x20000) / 4 < 256 * p.eccMax then .gf ((off - 0x20000) / 4) else .reserved)
  else if off < 0x80000 then (if (off - 0x40000) / 4 < p.plDepth then .pl ((off - 0x40000) / 4) else .reserved)
  else if off < 0xC0000 then locateCell .frame ((off - 0x80000) / 4)
  else locateCell .mat ((off - 0xC0000) / 4)

/-- PARAMS0 (R24). -/
def params0Word (p : Params) : Word :=
  BitVec.ofNat 16 p.cwDepth ++ BitVec.ofNat 8 p.blkDepth ++ BitVec.ofNat 8 p.eccMax

/-- PARAMS1 (R24). -/
def params1Word (p : Params) : Word := BitVec.ofNat 8 Config.maxSide ++ 0#7 ++ BitVec.ofNat 17 p.plDepth

/-- The register of a penalty field (R39). -/
def Pen.field (p : Pen) : PenField → RegVal 32
  | .n1 => p.n1
  | .n2 => p.n2
  | .n3 => p.n3
  | .n4 => p.n4
  | .total => p.total
  | .dark => p.dark

/-- The word offset of a penalty field in its block (R39). -/
def PenField.index : PenField → Nat
  | .n1 => 0
  | .n2 => 1
  | .n3 => 2
  | .n4 => 3
  | .total => 4
  | .dark => 5

/-- The word a read of a location gives (R22 to R50, R61); an unspecified location is drawn at `draw`. -/
def readLoc (s : State) (draw : Nat) : Loc → Word
  | .id => Config.idValue
  | .params0 => params0Word s.params
  | .ctrl => 0#29 ++ BitVec.ofBool s.ctrl.ieBuserr ++ BitVec.ofBool s.ctrl.ieFault ++ BitVec.ofBool s.ctrl.ieDone
  | .status => s.statusWord
  | .cmd => 0#32
  | .err => s.err.word
  | .errinfo => s.err.info
  | .params1 => params1Word s.params
  | .version => s.cfg.version.setWidth 32
  | .eccode => s.cfg.eccode.setWidth 32
  | .ecclen => s.cfg.ecclen.setWidth 32
  | .nblocks => s.cfg.nblocks.setWidth 32
  | .rembits => s.cfg.rembits.setWidth 32
  | .side => BitVec.ofNat 32 (sideOf s.cfg.version)
  | .ndata => (s.res.ndata.get (freeField draw 0x038 0 16)).setWidth 32
  | .ntotal => (s.res.ntotal.get (freeField draw 0x03C 0 16)).setWidth 32
  | .selMask => (s.res.selMask.get (freeField draw 0x040 0 3)).setWidth 32
  | .fmtIndex => (s.res.fmtIndex.get (freeField draw 0x044 0 5)).setWidth 32
  | .fmtBits => (s.res.fmtBits.get (freeField draw 0x048 0 15)).setWidth 32
  | .pen m f => (s.res.pen[m].field f).get (freeField draw (penOffset m + 4 * f.index) 0 32)
  | .fmtC1 k => (fmtC1At s draw k).setWidth 32
  | .fmtC2 k => (fmtC2At s draw k).setWidth 32
  | .fmtTable i => (fmtTableAt s draw i).setWidth 32
  | .blk b => (blkAt s draw b).setWidth 32
  | .cw i => (cwAt s draw i).setWidth 32
  | .gf e => (orFree (s.mem.gf.read e) draw (gfOffset e) 0).setWidth 32
  | .pl i => (plAt s draw i).setWidth 32
  | .frame x y => (frameAt s draw x y).setWidth 32
  | .mat x y => 0#23 ++ outAt s draw x y ++ planeAt s draw x y
  | .reserved => 0#32

/-- A write to CTRL (R25): the enables, and an abort request where bit 8 is 1 and a command is in flight (R118). -/
def writeCtrl (v : Word) (s : State) : State :=
  { s with
    ctrl := { ieDone := v.getLsbD 0, ieFault := v.getLsbD 1, ieBuserr := v.getLsbD 2 }
    seq := { s.seq with abortReq := s.seq.abortReq || (v.getLsbD 8 && s.busy) } }

/-- The effect of a full-word write on a location (R22 to R50, R61); read-only and reserved locations ignore it (R65). -/
def writeLoc (v : Word) (s : State) : Loc → State
  | .ctrl => writeCtrl v s
  | .status => writeStatus v s
  | .cmd => accept v s
  | .version => { s with cfg := { s.cfg with version := v.extractLsb' 0 6 } }
  | .eccode => { s with cfg := { s.cfg with eccode := v.extractLsb' 0 2 } }
  | .ecclen => { s with cfg := { s.cfg with ecclen := v.extractLsb' 0 8 } }
  | .nblocks => { s with cfg := { s.cfg with nblocks := v.extractLsb' 0 8 } }
  | .rembits => { s with cfg := { s.cfg with rembits := v.extractLsb' 0 3 } }
  | .fmtC1 k => { s with mem := { s.mem with fmtC1 := Mem.write s.mem.fmtC1 k (v.extractLsb' 0 16) } }
  | .fmtC2 k => { s with mem := { s.mem with fmtC2 := Mem.write s.mem.fmtC2 k (v.extractLsb' 0 16) } }
  | .fmtTable i => { s with mem := { s.mem with fmtTable := Mem.write s.mem.fmtTable i (v.extractLsb' 0 15) } }
  | .blk b => { s with mem := { s.mem with blk := Mem.write s.mem.blk b (v.extractLsb' 0 8) } }
  | .cw i => { s with mem := { s.mem with cw := Mem.write s.mem.cw i (v.extractLsb' 0 8) } }
  | .gf e => { s with mem := { s.mem with gf := Mem.write s.mem.gf e (v.extractLsb' 0 8) } }
  | .pl i => { s with mem := { s.mem with pl := Mem.write s.mem.pl i (v.extractLsb' 0 24) } }
  | .frame x y => { s with mem := { s.mem with frame := Mem.write s.mem.frame (cellIndex x y) (v.extractLsb' 0 1) } }
  | .id => s
  | .params0 => s
  | .params1 => s
  | .err => s
  | .errinfo => s
  | .side => s
  | .ndata => s
  | .ntotal => s
  | .selMask => s
  | .fmtIndex => s
  | .fmtBits => s
  | .pen _ _ => s
  | .mat _ _ => s
  | .reserved => s

/-- Reads that take effect while BUSY = 1: offsets 0x000–0x01F (R66). -/
def readAllowed (s : State) (off : Offset) : Bool := Offset.aligned off && (!s.busy || decide (off.toNat < 0x20))

/-- Writes that take effect: full aligned words (R63, R64); only CTRL and STATUS while BUSY = 1 (R66); CMD only while
FAULT = 0 too (R111). -/
def writeAllowed (s : State) (off : Offset) (strobes : BitVec 4) : Bool :=
  Offset.aligned off && strobes == 0xF#4
    && (!s.busy || off == 0x00008#20 || off == 0x0000C#20)
    && !(off == 0x00010#20 && s.status.fault)

/-- One bus access by the host (R63 to R69). A read that takes effect uses one draw (log 16). -/
def busAccess (a : BusAccess) (s : State) : State :=
  match a with
  | .read off =>
    if readAllowed s off then respond (readLoc s s.draws (locate s.params off.toNat)) (advanceDraws 1 s)
    else busError s
  | .write off v strobes =>
    if writeAllowed s off strobes then respond 0#32 (writeLoc v s (locate s.params off.toNat))
    else busError s

end Sys2Proof.Machine
end

