-- ==== Sys2Proof/Machine/Control.lean ====
section
/-! DEFINITION. The control commands NOP and CLEAR (40_control.md R119, R120). -/

namespace Sys2Proof.Machine

/-- The body of NOP (R119): PHASE CTRL, and nothing. -/
def nopBody (s : State) : Body := .done (startStep .ctrl s)

/-- NOP (R119). -/
def execNop (s : State) : Host.Outcome State Fault Refusal :=
  .next (Body.finish (encode .nop) (nopBody s))

/-- The writes of CLEAR (R120): the sequence flags and the result registers. -/
def clearBody (s : State) : Body :=
  let s := startStep .ctrl s
  .done { s with status := { s.status with flags := SeqFlags.none }, res := ResultRegs.zero }

/-- CLEAR (R120). -/
def execClear (s : State) : Host.Outcome State Fault Refusal :=
  .next (Body.finish (encode .clear) (clearBody s))

end Sys2Proof.Machine
end

