-- ==== Sys2Proof/Machine/Dispatch.lean ====
section
/-! DEFINITION. The meaning of every command of the opcode map (30_encoding.md R91): one arm per constructor. -/

namespace Sys2Proof.Machine

def exec (i : Instr) (s : State) : Host.Outcome State Fault Refusal :=
  match i with
  | .nop => Sys2Proof.Machine.execNop s
  | .clear => Sys2Proof.Machine.execClear s
  | .rsEncode => Sys2Proof.Machine.execRsEncode s
  | .place => Sys2Proof.Machine.execPlace s
  | .score => Sys2Proof.Machine.execScore s
  | .finalize => Sys2Proof.Machine.execFinalize s
  | .encodeAll => Sys2Proof.Machine.execEncodeAll s

end Sys2Proof.Machine
end

