-- ==== Sys2Proof/Machine/Sequencer.lean ====
section
/-! DEFINITION. The turns of the two agents (00_scope.md R11, 70_reset_and_hazards.md R283, R284): the sequencer fetches
the command in flight, decodes it and runs it; the host's next access takes effect; the reset input acts. -/

namespace Sys2Proof.Machine

/-- The answer of one step. -/
abbrev StepResult := Host.Outcome State Fault Refusal

/-- Runs the command whose accepted word is `w` to its completion; an ILLEGAL word raises BAD_OPCODE (R92). -/
def runWord (w : Word) (s : State) : StepResult :=
  match decodeWord w with
  | .ok i => exec i s
  | .error _ => .next (takeFault .badOpcode w w s)

/-- The body of the step in progress of the command whose accepted word is `w` (R110, R116, R121). -/
def stepBody (w : Word) (s : State) : Body :=
  match decodeWord w with
  | .ok .nop => nopBody s
  | .ok .clear => clearBody s
  | .ok .rsEncode => rsBody s
  | .ok .place => placeBody s
  | .ok .score => scoreBody s
  | .ok .finalize => finalizeBody s
  | .ok .encodeAll => encodeAllBody s
  | .error _ => .raise .badOpcode w s

/-- The step that follows the step in progress: ENCODE_ALL alone has one (R116). -/
def nextOf (w : Word) (s : State) : Option Phase :=
  if decodeWord w = .ok .encodeAll then nextPhase s.status.phase else none

/-- What follows a step that has ended: the start of the next step, or the completion (R112, R116, R121). -/
def afterBody (w : Word) (s : State) : State :=
  match nextOf w s with
  | some p => startStep p s
  | none => complete s

/-- Runs the command whose accepted word is `w`, the step in progress of which has ended, to its completion. -/
def runRest (w : Word) (s : State) : StepResult :=
  match nextOf w s with
  | some p => runWord w (startStep p s)
  | none => .next (complete s)

/-- The sequencer runs the command in flight to completion; with none it waits in IDLE (R270). -/
def runTurn (s : State) : StepResult :=
  match s.seq.inflight with
  | some w => if s.seq.ended then runRest w s else runWord w s
  | none => .next s

/-- The sequencer runs the step in progress up to its success flag or its fault, or makes what follows it. Between the two
turns the host sees BUSY = 1, the step's own flag 1 and PHASE still its own (R110, R284; log 25). -/
def bodyTurn (s : State) : StepResult :=
  match s.seq.inflight with
  | some w => .next (if s.seq.ended then afterBody w s else (stepBody w s).pause w)
  | none => .next s

/-- One loop iteration of the step in progress (R42, R283): only the loop counters change (log 2). A step that has ended
has none left. -/
def workTurn (s : State) : StepResult :=
  if s.busy && !s.seq.ended then .next { s with seq := { s.seq with loops := s.seq.loops + 1 } } else .next s

/-- The fault of the checks that belong to acceptance: BAD_OPCODE (R92) and SEQUENCE (R115). No abort comes before them
(R243; log 10). They lie behind a step that has ended. -/
def acceptanceFault (w : Word) (s : State) : Option FaultCode :=
  if s.seq.ended then none
  else match decodeWord w with
  | .ok .score => if s.status.flags.placed then none else some .sequence
  | .ok .finalize => if s.status.flags.scored then none else some .sequence
  | .ok _ => none
  | .error _ => some .badOpcode

/-- The sequencer sees an abort request (R118), where the checks at acceptance passed; the info value of their faults is
the command word. Without a request the command only takes more time. -/
def abortTurn (s : State) : StepResult :=
  match s.seq.inflight with
  | some w =>
    match acceptanceFault w s with
    | some code => .next (takeFault code w w s)
    | none => if s.seq.abortReq then .next (takeAbort w s) else .next s
  | none => .next s

/-- The `k`-th element of a list and the list without it. -/
def takeAt {α : Type} : Nat → List α → Option (α × List α)
  | _, [] => none
  | 0, a :: as => some (a, as)
  | k + 1, a :: as => (takeAt k as).map (fun r => (r.1, a :: r.2))

/-- The access that reaches QRE next: the oldest pending one, or any of them where the interconnect does not keep the
host's order (R71, D31; log 14). -/
def nextAccess (k : Nat) (s : State) : Option (BusAccess × List BusAccess) :=
  takeAt (if s.params.busOrdered then 0 else k) s.host

/-- The host's next access takes effect (R69, R71). -/
def hostTurn (k : Nat) (s : State) : StepResult :=
  match nextAccess k s with
  | some (a, rest) => .next (busAccess a { s with host := rest })
  | none => .next s

/-- One turn of the schedule. -/
def takeTurn (t : Turn) (s : State) : StepResult :=
  match t with
  | .host k => hostTurn k s
  | .run => runTurn s
  | .body => bodyTurn s
  | .work => workTurn s
  | .abort => abortTurn s
  | .reset => .next (applyReset s)

/-- One step: the next turn of the schedule; where the schedule is empty, the command in flight runs, and with none in
flight the host's oldest pending access takes effect (log 1). -/
def stepTurn (s : State) : StepResult :=
  match s.turns with
  | t :: ts => takeTurn t { s with turns := ts }
  | [] => if s.busy then runTurn s else hostTurn 0 s

/-- The command word `w` in flight, and the sequencer's turn next (log 3). -/
def fetchWord (w : Word) (s : State) : State :=
  let s := accept w s
  match s.turns with
  | [] => s
  | ts => { s with turns := .run :: ts }

end Sys2Proof.Machine
end

