-- ==== Sys2Proof/Machine/Step.lean ====
section
/-! DEFINITION. One step of the machine, and where it fetches its next command (10_state.md R21, R27, R42): the machine
has no program counter; the next command is the word in flight, which a host write to CMD puts there (R111). -/

namespace Sys2Proof.Machine

/-- One step (R283, R284; log 1). -/
def step (s : State) : Host.Outcome State Fault Refusal := stepTurn s

/-- The state in which the next step runs the command word `w` (its low `nbits` bits): the word is accepted (R111) and
the sequencer moves next. It stands for the host's write to CMD (log 3). -/
def State.withFetchWord (s : State) (nbits w : Nat) : State := fetchWord (BitVec.ofNat 32 (w % 2 ^ nbits)) s

end Sys2Proof.Machine
end

