-- ==== Sys2Proof/Machine/HostProgram.lean ====
section
/-! DEFINITION. The host's side of the bus: the platform parameters (20_memory.md R62, 60_exceptions.md R250), the host
assembler (30_encoding.md R97) with its pseudo-statements (R98), and a host processor that runs such a program beside
the machine. No part of this is in State (log 20). -/

namespace Sys2Proof.Machine

/-! ### The platform -/

/-- The block's offset of a platform address, where the address falls in the block (R7, R62, D2; log 15). -/
def platformOffset (addr : Nat) : Option Offset :=
  if Config.qreBase ≤ addr ∧ addr < Config.qreBase + 2 ^ 20 then some (BitVec.ofNat 20 (addr - Config.qreBase)) else none

/-- The level of interrupt line `line` as the block drives it (R250, D20; log 15). -/
def platformIrq (line : Nat) (s : State) : Bool := decide (line = Config.qreIrq) && s.irq

/-! ### Statements and pseudo-statements -/

/-- The base statements (R97). Host variables and labels are numbered. -/
inductive HostStmt where
  | wr (off : Offset) (v : Word)
  | rd (off : Offset) (name : Nat)
  | label (l : Nat)
  | bnz (name l : Nat)
  | bz (name l : Nat)
  | and (name : Nat) (v : Word)
  deriving DecidableEq, Repr

/-- `wr OFF, V` with OFF given as a number. The spec does not bound OFF nor say what an OFF of 2^20 or more does (`ld.frame`
with y = 512 gives one): it is taken modulo 2^20, a DESIGN CHOICE (log 20). -/
def wrAt (off : Nat) (v : Word) : HostStmt := .wr (BitVec.ofNat 20 off) v

/-- `rd OFF -> N` with OFF given as a number, an OFF of 2^20 or more taken modulo 2^20 as in `wrAt` (log 20). -/
def rdAt (off name : Nat) : HostStmt := .rd (BitVec.ofNat 20 off) name

/-- `cmd MNEMONIC`. -/
def asmCmd (i : Instr) : List HostStmt := [wrAt 0x010 (encode i)]
/-- `wait`, with the label and the variable it uses. -/
def asmWait (l t : Nat) : List HostStmt := [.label l, .rd 0x0000C#20 t, .and t 1#32, .bnz t l]
/-- `ack`. -/
def asmAck : List HostStmt := [wrAt 0x00C 0xE#32]
/-- `set.version V`. -/
def asmSetVersion (v : Word) : List HostStmt := [wrAt 0x020 v]
/-- `set.eccode V`. -/
def asmSetEccode (v : Word) : List HostStmt := [wrAt 0x024 v]
/-- `set.ecclen V`. -/
def asmSetEcclen (v : Word) : List HostStmt := [wrAt 0x028 v]
/-- `set.nblocks V`. -/
def asmSetNblocks (v : Word) : List HostStmt := [wrAt 0x02C v]
/-- `set.rembits V`. -/
def asmSetRembits (v : Word) : List HostStmt := [wrAt 0x030 v]
/-- `ld.blk b, V`. -/
def asmLdBlk (b : Nat) (v : Word) : List HostStmt := [wrAt (blkOffset b) v]
/-- `ld.cw i, V`. -/
def asmLdCw (i : Nat) (v : Word) : List HostStmt := [wrAt (cwOffset i) v]
/-- `ld.gf c, j, V`. -/
def asmLdGf (p : Params) (c j : Nat) (v : Word) : List HostStmt := [wrAt (gfOffset (gfEntry p c j)) v]
/-- `ld.pl i, X, Y, T`. -/
def asmLdPl (i : Nat) (x y t : Byte) : List HostStmt := [wrAt (plOffset i) (0#8 ++ t ++ y ++ x)]
/-- `ld.frame x, y, V`. -/
def asmLdFrame (x y : Nat) (v : Word) : List HostStmt := [wrAt (frameOffset (cellIndex x y)) v]
/-- `ld.fc1 k, X, Y`. -/
def asmLdFc1 (k : Nat) (x y : Byte) : List HostStmt := [wrAt (fmtC1Offset k) (0#16 ++ y ++ x)]
/-- `ld.fc2 k, X, Y`. -/
def asmLdFc2 (k : Nat) (x y : Byte) : List HostStmt := [wrAt (fmtC2Offset k) (0#16 ++ y ++ x)]
/-- `ld.ft i, V`. -/
def asmLdFt (i : Nat) (v : Word) : List HostStmt := [wrAt (fmtTableOffset i) v]
/-- `rd.cw i -> N`. -/
def asmRdCw (i name : Nat) : List HostStmt := [rdAt (cwOffset i) name]
/-- `rd.mat x, y -> N`. -/
def asmRdMat (x y name : Nat) : List HostStmt := [rdAt (matOffset (cellIndex x y)) name]

/-! ### A host processor -/

/-- A host that runs a program: the statements, the next one's number, and the variables assigned so far. -/
structure HostCpu where
  prog : List HostStmt
  pc   : Nat
  vars : Mem 32
  deriving DecidableEq, Repr

/-- A variable's value; 0 where nothing has assigned it (log 20). -/
def HostCpu.var (h : HostCpu) (name : Nat) : Word := (h.vars.read name).getD 0#32

/-- The number of the statement that carries label `l`: of the first one where several do, a DESIGN CHOICE on which the
spec is silent; the end of the program where none does (log 20). -/
def HostCpu.labelAt (h : HostCpu) (l : Nat) : Nat := h.prog.findIdx (fun st => decide (st = .label l))

/-- One statement of the host (R97): QRE sees only `wr` and `rd`. At the end of the program the host does nothing. The
access takes effect at once, in program order, also where BUS_ORDERED is false (R71, D31): a DESIGN CHOICE, the host of
R71 that orders its accesses itself (log 14, 20). -/
def hostStmt (h : HostCpu) (s : State) : HostCpu × State :=
  match h.prog[h.pc]? with
  | none => (h, s)
  | some (.wr off v) => ({ h with pc := h.pc + 1 }, busAccess (.writeWord off v) s)
  | some (.rd off name) =>
    let s' := busAccess (.read off) s
    let data := match s'.resp with
      | some r => r.data
      | none => 0#32
    ({ h with pc := h.pc + 1, vars := Mem.write h.vars name data }, s')
  | some (.label _) => ({ h with pc := h.pc + 1 }, s)
  | some (.bnz name l) => ({ h with pc := if h.var name ≠ 0#32 then h.labelAt l else h.pc + 1 }, s)
  | some (.bz name l) => ({ h with pc := if h.var name = 0#32 then h.labelAt l else h.pc + 1 }, s)
  | some (.and name v) => ({ h with pc := h.pc + 1, vars := Mem.write h.vars name (h.var name &&& v) }, s)

/-- Who moves in the system of a host processor and the block (R11, R284). -/
inductive Mover where
  | hostCpu
  | block (t : Turn)
  deriving DecidableEq, Repr

/-- One move of the system; a stop of the block would leave it as it is, and no step of it stops. The processor's accesses
do not pass the pending list of State, so no interconnect reorders them, whatever BUS_ORDERED is (D31; log 14, 20). -/
def systemMove (m : Mover) (sys : HostCpu × State) : HostCpu × State :=
  match m with
  | .hostCpu => hostStmt sys.1 sys.2
  | .block t =>
    match takeTurn t sys.2 with
    | .next s => (sys.1, s)
    | .fault _ => sys
    | .refused _ => sys

/-- A run of the system under a schedule of movers. -/
def systemRun (ms : List Mover) (sys : HostCpu × State) : HostCpu × State := ms.foldl (fun y m => systemMove m y) sys

end Sys2Proof.Machine
end

