-- ==== Sys2Proof/Machine/HostPipeline.lean ====
section
/-! DEFINITION. The host reference pipeline (45_host_pipeline.md R215 to R232): the bit stream, version selection,
packing, and the orchestration that drives the block. It is host software (00_scope.md R5) beside the machine; no part
of it is in State (log 19). -/

namespace Sys2Proof.Machine

/-- The error-correction levels of the source, the unspecified one among them (R216). -/
inductive EcLevel where
  | low
  | defaultLevel
  | unspecified
  | noneLevel
  | max
  | high
  deriving DecidableEq, Repr

/-- The internal EC code of a level (R216, 90_conflicts.md C2, C4). -/
def ecCode : EcLevel → BitVec 2
  | .low => 0#2
  | .defaultLevel => 1#2
  | .unspecified => 1#2
  | .noneLevel => 1#2
  | .max => 2#2
  | .high => 3#2

/-- The host's source of tables as loaded (R217, R280), an argument of the pipeline: its contents are no part of the spec
(R5). A load that fails gives none (log 19). The two format regions have fifteen coordinates each (R43). -/
structure TableProvider where
  capacity       : Nat → BitVec 2 → Nat
  eccLength      : Nat → BitVec 2 → Nat
  blocks         : Nat → BitVec 2 → List Nat
  galois         : Nat → Nat → Nat → Byte
  placement      : Nat → List (Byte × Byte × Byte)
  remainderBits  : Nat → Nat
  frame          : Nat → Nat → Nat → Bool
  formatStrings  : Nat → BitVec 15
  formatCoords1  : Nat → Vector (Byte × Byte) 15
  formatCoords2  : Nat → Vector (Byte × Byte) 15

/-- The host's open parameters COUNT_EXT, PAD0 and PAD1 (D26, D27). -/
structure HostParams where
  countExt : Nat → Nat
  pad0     : Byte
  pad1     : Byte

/-- The defaults of 92_eei_decisions.md, general knowledge (I13, I14). -/
def HostParams.default : HostParams := { countExt := fun v => if v ≤ 9 then 0 else 8, pad0 := 0xEC#8, pad1 := 0x11#8 }

/-- The error kinds of encode (R227). InvalidDescriptor is unreachable (R203) and has no constructor. -/
inductive HostError where
  | overflow
  | capacityExceeded
  | tableLoadFailure
  | deviceFault (code : BitVec 4) (info : Word)
  deriving DecidableEq, Repr

/-! ### Bit stream and version selection -/

/-- REQ of an input of `len` bytes (R220). -/
def requiredBits (len : Nat) : Nat := 4 + 8 + 8 * len

/-- The versions in the order they are tried (R222). -/
def versions : List Nat := (List.range 40).map (· + 1)

/-- Whether version `v` holds an input of `len` bytes (R222). -/
def versionFits (tp : TableProvider) (hp : HostParams) (code : BitVec 2) (len v : Nat) : Bool :=
  decide (requiredBits len + hp.countExt v ≤ tp.capacity v code)

/-- The first version that fits (R222). -/
def selectVersion (tp : TableProvider) (hp : HostParams) (code : BitVec 2) (len : Nat) : Option Nat :=
  versions.find? (versionFits tp hp code len)

/-- The terminator field for `rem` remaining bits (R223). -/
def terminator (rem : Nat) : List (Nat × Nat) := if 4 ≤ rem then [(0, 4)] else if rem = 0 then [] else [(0, rem)]

/-- The fields of the bit stream as (value, width) (R218). -/
def bitFields (tp : TableProvider) (hp : HostParams) (code : BitVec 2) (v : Nat) (bytes : List Byte) :
    List (Nat × Nat) :=
  [(4, 4), (bytes.length, 8 + hp.countExt v)] ++ bytes.map (fun b => (b.toNat, 8))
    ++ terminator (tp.capacity v code - (requiredBits bytes.length + hp.countExt v))

/-! ### Packing -/

/-- The bits of a field, most significant first (R224). -/
def fieldBits (f : Nat × Nat) : List Bool := (List.range f.2).map (fun i => f.1.testBit (f.2 - 1 - i))

/-- A byte from up to eight bits, the first as bit 7; missing low bits are 0 (R224, D27). -/
def byteOfBits (bits : List Bool) : Byte :=
  BitVec.ofNat 8 ((List.range 8).foldl (fun acc i => 2 * acc + (if bits.getD i false then 1 else 0)) 0)

/-- Cuts a bit string into bytes; the last partial byte is filled with 0 (R224). -/
def bytesOfBits : List Bool → List Byte
  | b7 :: b6 :: b5 :: b4 :: b3 :: b2 :: b1 :: b0 :: rest =>
    byteOfBits [b7, b6, b5, b4, b3, b2, b1, b0] :: bytesOfBits rest
  | [] => []
  | bits => [byteOfBits bits]

/-- `n` pad bytes, alternating from PAD0 (R224). -/
def padBytes (hp : HostParams) (n : Nat) : List Byte :=
  (List.range n).map (fun i => if i % 2 = 0 then hp.pad0 else hp.pad1)

/-- The packed codewords: the fields' bits in bytes, then pads up to `ndata` codewords (R224). -/
def packFields (hp : HostParams) (fields : List (Nat × Nat)) (ndata : Nat) : List Byte :=
  let packed := bytesOfBits (fields.flatMap fieldBits)
  packed ++ padBytes hp (ndata - packed.length)

/-- Reads back fields of the given widths from a bit string (R226). -/
def walkFields : List Nat → List Bool → List Nat
  | [], _ => []
  | w :: ws, bits => (bits.take w).foldl (fun acc b => 2 * acc + b.toNat) 0 :: walkFields ws (bits.drop w)

/-- The bits of a list of bytes, most significant first (R226). -/
def bitsOfBytes (bytes : List Byte) : List Bool := bytes.flatMap (fun b => fieldBits (b.toNat, 8))

/-! ### Orchestration -/

/-- NDATA(v, ecCode) = Σ(BLK[b] − ECCLEN) of the block structure (R225): an integer, negative where the blocks are too
small for their ECC codewords. -/
def dataCodewords (tp : TableProvider) (v : Nat) (code : BitVec 2) : Int :=
  ((tp.blocks v code).map (fun b => (b : Int) - (tp.eccLength v code : Int))).sum

/-- What the host requires of its tables for every version and EC code. -/
def forTables (check : Nat → BitVec 2 → Bool) : Bool := versions.all (fun v => [0#2, 1#2, 2#2, 3#2].all (check v))

/-- The host's consistency check of its tables, before any encode (R225, R227). -/
def tablesConsistent (tp : TableProvider) : Bool :=
  forTables (fun v c => decide ((tp.capacity v c : Int) ≤ 8 * dataCodewords tp v c))

/-- Every value of the tables has a location of QRE that holds it (R217, D24: values that do not fit cannot be written):
the GF rows have at most ECC_MAX entries, the block list at most BLK_DEPTH entries of 8 bits and a length that NBLOCKS
holds, REMBITS three bits, the placement table at most PL_DEPTH entries. A table that does not fit is one the host cannot
load (R227, R280), a DESIGN CHOICE (log 19). -/
def tablesFit (p : Params) (tp : TableProvider) : Bool :=
  forTables (fun v c =>
    decide (tp.eccLength v c ≤ p.eccMax) && decide ((tp.blocks v c).length ≤ p.blkDepth)
      && decide ((tp.blocks v c).length < 2 ^ 8) && (tp.blocks v c).all (fun b => decide (b < 2 ^ 8))
      && decide (tp.remainderBits v < 2 ^ 3) && decide ((tp.placement v).length ≤ p.plDepth))

/-- The tables of a host that may run `encode`: loaded, storable and consistent; otherwise `TableLoadFailure` (R227). -/
def usableTables (p : Params) (tables : Option TableProvider) : Option TableProvider :=
  tables.filter (fun tp => tablesFit p tp && tablesConsistent tp)

/-- A list's elements with their numbers. -/
def numbered {α : Type} (l : List α) : List (Nat × α) := (List.range l.length).zip l

/-- The statements that load the configuration, the block list and the tables (R229, R217). -/
def loadStatements (p : Params) (tp : TableProvider) (code : BitVec 2) (v : Nat) : List HostStmt :=
  let n := tp.eccLength v code
  let side := 4 * v + 17
  asmSetVersion (BitVec.ofNat 32 v) ++ asmSetEccode (code.setWidth 32) ++ asmSetEcclen (BitVec.ofNat 32 n)
    ++ asmSetNblocks (BitVec.ofNat 32 (tp.blocks v code).length)
    ++ (numbered (tp.blocks v code)).flatMap (fun b => asmLdBlk b.1 (BitVec.ofNat 32 b.2))
    ++ asmSetRembits (BitVec.ofNat 32 (tp.remainderBits v))
    ++ (List.range 256).flatMap (fun c => (List.range n).flatMap (fun j =>
        asmLdGf p c j ((tp.galois n c j).setWidth 32)))
    ++ (numbered (tp.placement v)).flatMap (fun e => asmLdPl e.1 e.2.1 e.2.2.1 e.2.2.2)
    ++ (List.range side).flatMap (fun y => (List.range side).flatMap (fun x =>
        asmLdFrame x y (if tp.frame v x y then 1#32 else 0#32)))
    ++ (numbered (tp.formatCoords1 v).toList).flatMap (fun e => asmLdFc1 e.1 e.2.1 e.2.2)
    ++ (numbered (tp.formatCoords2 v).toList).flatMap (fun e => asmLdFc2 e.1 e.2.1 e.2.2)
    ++ (List.range 32).flatMap (fun i => asmLdFt i ((tp.formatStrings i).setWidth 32))

/-- The writes of the QRE part of R229: tables, configuration, data codewords, and the ENCODE_ALL command. Where NDATA is
over CW_DEPTH the spec does not say what becomes of the codewords that CW has no entry for. A DESIGN CHOICE (log 19): the host
writes each at 0x10000 + 4·i all the same, to a reserved offset up to i = 16383 and over GF and PL from there on, before
ENCODE_ALL ends with CW_OVERFLOW. -/
def encodeWrites (p : Params) (tp : TableProvider) (code : BitVec 2) (v : Nat) (codewords : List Byte) :
    List HostStmt :=
  loadStatements p tp code v ++ (numbered codewords).flatMap (fun c => asmLdCw c.1 (c.2.setWidth 32))
    ++ asmCmd .encodeAll

/-- The wait of R229 until STATUS.BUSY = 0 and STATUS.FAULT = 0: bits 0 and 2 of STATUS. -/
def asmWaitReady (l t : Nat) : List HostStmt := [.label l, .rd 0x0000C#20 t, .and t 5#32, .bnz t l]

/-- The QRE part of R229 as a host program: the wait, the writes, then the poll of STATUS. -/
def encodeProgram (p : Params) (tp : TableProvider) (code : BitVec 2) (v : Nat) (codewords : List Byte) :
    List HostStmt :=
  asmWaitReady 1 1 ++ encodeWrites p tp code v codewords ++ asmWait 0 0

/-- Runs the statements of a program one after another, each bus access on the machine at once and in order, also where
BUS_ORDERED is false (R71, D31): a DESIGN CHOICE, the host that orders its accesses itself (log 14, 19). The branches are
the poll of `wait`, which leaves at once when the command has completed. -/
def driveWrites (prog : List HostStmt) (s : State) : State :=
  prog.foldl (fun s st => match st with
    | .wr off v => busAccess (.writeWord off v) s
    | .rd off _ => busAccess (.read off) s
    | .label _ => s
    | .bnz _ _ => s
    | .bz _ _ => s
    | .and _ _ => s) s

/-- The host polls STATUS until BUSY = 0: the command in flight, if any, runs to its completion meanwhile (R283, R284;
log 19). It completes normally also where ABORT_REQ is 1, a DESIGN CHOICE between the two outcomes that R118 and R288 admit:
ABORTED would leave FAULT = 1 and the host waiting (log 19). -/
def settle (s : State) : State :=
  match runTurn s with
  | .next s' => s'
  | .fault _ => s
  | .refused _ => s

/-- What encode returns (R215, R227, R228). -/
inductive EncodeResult where
  | matrix (rows : List (List Bool))
  | error (e : HostError)
  /-- The host waits for FAULT = 0 (R229), which stays 1 until somebody acknowledges it (R245); encode does not (log 19). -/
  | waiting
  deriving DecidableEq, Repr

/-- The host matrix M[row y][column x], bit 8 of MAT(x, y) (R229, R51, R61). -/
def readMatrix (side : Nat) (s : State) : List (List Bool) :=
  (List.range side).map (fun y => (List.range side).map (fun x => (outAt s s.draws x y).getLsbD 0))

/-- The QRE part of R229 on a block that is ready: the writes, ENCODE_ALL, the poll, and the result. -/
def runSymbol (tp : TableProvider) (code : BitVec 2) (v : Nat) (codewords : List Byte) (s : State) :
    EncodeResult × State :=
  let t := settle (driveWrites (encodeWrites s.params tp code v codewords) s)
  if t.status.fault then (.error (.deviceFault t.err.code t.err.info), t)
  else (.matrix (readMatrix (4 * v + 17) t), t)

/-- The steps of R229 for an input that is not empty, with usable tables: the errors of the host, then the wait for BUSY = 0
and FAULT = 0, then the QRE part. -/
def encodeLoaded (tp : TableProvider) (hp : HostParams) (bytes : List Byte) (code : BitVec 2) (s : State) :
    EncodeResult × State :=
  let len := bytes.length
  if requiredBits len + hp.countExt 40 > tp.capacity 40 code then (.error .overflow, s)
  else
    match selectVersion tp hp code len with
    | none => (.error .capacityExceeded, s)
    | some v =>
      if len ≥ 2 ^ (8 + hp.countExt v) then (.error .overflow, s)
      else
        let codewords := packFields hp (bitFields tp hp code v bytes) (dataCodewords tp v code).toNat
        let ready := settle s
        if ready.status.fault then (.waiting, ready) else runSymbol tp code v codewords ready

/-- `encode(bytes, ecLevel)` on a machine (R227 to R229). The tables are loaded anew at every call (R285 allows it). -/
def encodeSymbol (tables : Option TableProvider) (hp : HostParams) (bytes : List Byte) (level : EcLevel) (s : State) :
    EncodeResult × State :=
  match usableTables s.params tables with
  | none => (.error .tableLoadFailure, s)
  | some tp => if bytes.length = 0 then (.matrix [[false]], s) else encodeLoaded tp hp bytes (ecCode level) s

end Sys2Proof.Machine
end

