-- ==== Sys2Proof/Safety.lean ====
section
/-! DEFINITION. What counts as a safe run of QRE: the invariant that every step keeps, from every state that meets it,
whatever the host does and whenever an abort or a reset falls. -/

namespace Sys2Proof.Machine

/-- The phases a word in flight may be in (40_control.md R116). -/
def phaseAllowed (w : Word) (p : Phase) : Bool :=
  match decodeWord w with
  | .ok .encodeAll => p == .rs || p == .place || p == .score || p == .final
  | .ok i => p == firstPhaseOf i
  | .error _ => p == .ctrl

/-- A matrix cell number that names a cell (20_memory.md R60). -/
abbrev cellMapped (k : Nat) : Prop := k % 256 < Config.maxSide ∧ k / 256 < Config.maxSide

/-- The memories list only entries that the address map has (R60). -/
structure Memories.Mapped (p : Params) (m : Memories) : Prop where
  blk      : Mem.below m.blk p.blkDepth
  cw       : Mem.below m.cw p.cwDepth
  gf       : Mem.below m.gf (256 * p.eccMax)
  pl       : Mem.below m.pl p.plDepth
  frame    : ∀ c ∈ m.frame, cellMapped c.1
  plane    : ∀ c ∈ m.plane.cells, cellMapped c.1
  out      : ∀ c ∈ m.out.cells, cellMapped c.1
  fmtC1    : Mem.below m.fmtC1 15
  fmtC2    : Mem.below m.fmtC2 15
  fmtTable : Mem.below m.fmtTable 32

/-- A result register that holds a specified value. -/
def RegVal.isKnown {w : Nat} : RegVal w → Bool
  | .known _ => true
  | .unspecified => false

/-- The six penalty registers of a mask hold specified values. -/
def Pen.isKnown (p : Pen) : Bool :=
  p.n1.isKnown && p.n2.isKnown && p.n3.isKnown && p.n4.isKnown && p.total.isKnown && p.dark.isKnown

/-- What every state of a run meets. -/
structure Inv (s : State) : Prop where
  /-- The parameters are legal (00_scope.md R6). -/
  params_legal : s.params.legal = true
  /-- Every memory is in its canonical form (log 4, 18). -/
  memories_wf : Memories.wf s.mem
  /-- Every listed entry exists (R60). -/
  memories_mapped : Memories.Mapped s.params s.mem
  /-- With no command in flight PHASE is IDLE (R40, R112). -/
  idle_phase : s.seq.inflight = none → s.status.phase = .idle
  /-- With no command in flight no loop is under way (log 2). -/
  idle_loops : s.seq.inflight = none → s.seq.loops = 0
  /-- With no command in flight no step has ended (log 25). -/
  idle_ended : s.seq.inflight = none → s.seq.ended = false
  /-- A command in flight is in one of its phases (R116). -/
  busy_phase : ∀ w, s.seq.inflight = some w → phaseAllowed w s.status.phase = true
  /-- While a command is in flight DONE and FAULT are 0 (R111, R245). -/
  busy_clean : s.seq.inflight.isSome = true → s.status.done = false ∧ s.status.fault = false
  /-- FAULT = 1 means that ERR holds one of the codes 1 to 11 (R241, R245). -/
  fault_recorded : s.status.fault = true → 1 ≤ s.err.code.toNat ∧ s.err.code.toNat ≤ 11
  /-- FAULT = 0 means that ERR and ERRINFO are 0 (R241, R245). -/
  no_fault_no_err : s.status.fault = false → s.err = ErrRegs.zero
  /-- The step in progress has cleared its own flag and every later one (R114). -/
  step_flags : s.seq.ended = false → startFlags s.status.phase s.status.flags = s.status.flags
  /-- A step that has ended has set its own flag, of a command that is no ILLEGAL word, and every later one is 0 (R114). -/
  ended_flags : s.seq.ended = true → s.status.flags = successFlags s.status.phase (startFlags s.status.phase s.status.flags)
    ∧ ∀ w, s.seq.inflight = some w → ∃ i, decodeWord w = .ok i
  /-- An RS step that has ended has written NTOTAL (R131; log 22). -/
  ended_counts : s.seq.ended = true → s.status.phase = .rs → s.res.ntotal.isKnown = true
  /-- SCORED implies PLACED, and FINAL implies SCORED (R41, R115). -/
  flags_ordered : (s.status.flags.scored = true → s.status.flags.placed = true)
    ∧ (s.status.flags.final = true → s.status.flags.scored = true)
  /-- While PLACED = 1 every cell of PLANE is specified (R153). -/
  placed_plane : s.status.flags.placed = true → s.mem.plane.cleared = true
  /-- While SCORED = 1 SEL_MASK and the penalty registers are specified (R172). -/
  scored_known : s.status.flags.scored = true →
    s.res.selMask.isKnown = true ∧ ∀ m : Fin 8, s.res.pen[m].isKnown = true
  /-- While FINAL = 1 OUT, FMT_INDEX and FMT_BITS are specified (R202). -/
  final_known : s.status.flags.final = true →
    s.mem.out.cleared = true ∧ s.res.fmtIndex.isKnown = true ∧ s.res.fmtBits.isKnown = true
  /-- ESR has ECC_MAX entries (R42). -/
  esr_length : s.seq.esr.length = s.params.eccMax

end Sys2Proof.Machine
end

