-- ==== Sys2Proof/Certificates/Slice0/Obligations.lean ====
section
/-! DEFINITION. The statements about QRE for the provers, each formalising a rule of spec/ that its docstring names. Fault
codes, phase codes, offsets and reset values are written as the spec's own numbers. -/

namespace Sys2Proof.Claims

open Sys2Proof.Machine

/-! ### Notions the statements share -/

/-- What no command ever changes: the parameters, CTRL, the configuration registers, BUSERR, the tables the host loads,
ABORT_REQ, and the host's side (R52, R120, R244). -/
structure Around (s t : State) : Prop where
  params   : t.params = s.params
  ctrl     : t.ctrl = s.ctrl
  cfg      : t.cfg = s.cfg
  buserr   : t.status.buserr = s.status.buserr
  abortReq : t.seq.abortReq = s.seq.abortReq
  blk      : t.mem.blk = s.mem.blk
  gf       : t.mem.gf = s.mem.gf
  pl       : t.mem.pl = s.mem.pl
  frame    : t.mem.frame = s.mem.frame
  fmtC1    : t.mem.fmtC1 = s.mem.fmtC1
  fmtC2    : t.mem.fmtC2 = s.mem.fmtC2
  fmtTable : t.mem.fmtTable = s.mem.fmtTable
  host     : t.host = s.host
  turns    : t.turns = s.turns
  resp     : t.resp = s.resp

/-- A command completed with no fault (R112): BUSY 0, DONE 1, PHASE IDLE, the sequence flags as given, FAULT, ERR and
ERRINFO unchanged. -/
structure Completed (s t : State) (flags : SeqFlags) : Prop where
  around   : Around s t
  inflight : t.seq.inflight = none
  status   : t.status = { s.status with done := true, phase := .idle, flags := flags }
  err      : t.err = s.err

/-- A command ended by a fault (R112, R242): the fault recorded with its code, the low byte of the command word, the
phase's code and the info value; the sequence flags as given. -/
structure Faulted (s t : State) (code : BitVec 4) (cmd : Byte) (phase : BitVec 3) (info : Word) (flags : SeqFlags) :
    Prop where
  around   : Around s t
  inflight : t.seq.inflight = none
  status   : t.status = { s.status with done := true, phase := .idle, fault := true, flags := flags }
  err      : t.err = { code := code, cmd := cmd, phase := phase, info := info }

/-- ECCLEN as a number. -/
def eccLen (s : State) : Nat := s.cfg.ecclen.toNat

/-- The block sizes as the checks of the command about to run read them from BLK (R131). -/
def sizes (s : State) : List Nat := blockSizes s s.draws

/-- NTOTAL: the sum of the block list, which reads each entry once more (R36, R131; log 5). -/
def total (s : State) : Nat := (blockSizes s (s.draws + 1)).sum

/-- The number of ECC codewords, and NDATA (R36); 0 where the sum of an unwritten block list does not hold them (log 5). -/
def eccTotal (s : State) : Nat := s.cfg.nblocks.toNat * eccLen s
def data (s : State) : Nat := total s - eccTotal s

/-- The result registers after the two writes of R131: NTOTAL, NDATA, and every other one as it was. Where the sum of an
unwritten block list is below NBLOCKS·ECCLEN the spec states no NDATA: that some value is written there, and nothing more, is
the model's choice (log 5). -/
def CountsWritten (s t : State) : Prop :=
  t.res = { s.res with ntotal := .known (BitVec.ofNat 16 (total s)), ndata := t.res.ndata }
  ∧ (eccTotal s ≤ total s → t.res.ndata = .known (BitVec.ofNat 16 (data s)))
  ∧ ∃ v, t.res.ndata = .known v

/-- The entries of R281's rows are written: the block list; the placement table; the format coordinates; the frame. -/
def BlkWritten (s : State) : Prop := ∀ b < s.cfg.nblocks.toNat, (s.mem.blk.read b).isSome

/-- ECCLEN and NBLOCKS are legal (R32, R33). -/
def LengthsLegal (s : State) : Prop :=
  1 ≤ eccLen s ∧ eccLen s ≤ s.params.eccMax ∧ 1 ≤ s.cfg.nblocks.toNat ∧ s.cfg.nblocks.toNat ≤ s.params.blkDepth

/-- Every check of the block-list validation passes (R131). -/
def BlocksPass (s : State) : Prop :=
  LengthsLegal s ∧ (∀ k ∈ sizes s, eccLen s ≤ k) ∧ total s ≤ s.params.cwDepth

/-- VERSION ∈ 1..40 (R30). -/
def VersionLegal (s : State) : Prop := 1 ≤ s.cfg.version.toNat ∧ s.cfg.version.toNat ≤ 40

/-- S = 4·VERSION + 17 (R35), for a legal version. -/
def side (s : State) : Nat := 4 * s.cfg.version.toNat + 17

/-- B = 8·NTOTAL + REMBITS (R150). -/
def bitTotal (s : State) : Nat := 8 * total s + s.cfg.rembits.toNat

/-- A coordinate entry is inside the S × S matrix (R95). -/
def Inside {w : Nat} (s : State) (e : BitVec w) : Prop := coordX e < side s ∧ coordY e < side s

/-- Every coordinate of PL[0..B−1], as the check reads it, is legal (R151). -/
def PlacementLegal (s : State) : Prop := ∀ i < bitTotal s, Inside s (plAt s s.draws i)

/-- Every format coordinate, as the check reads it, is legal (R201). -/
def FormatLegal (s : State) : Prop :=
  ∀ k < 15, Inside s (fmtC1At s s.draws k) ∧ Inside s (fmtC2At s s.draws k)

def PlWritten (s : State) : Prop := ∀ i < bitTotal s, (s.mem.pl.read i).isSome
def FmtWritten (s : State) : Prop := ∀ k < 15, (s.mem.fmtC1.read k).isSome ∧ (s.mem.fmtC2.read k).isSome
def FrameWritten (s : State) : Prop := ∀ x < side s, ∀ y < side s, (s.mem.frame.read (256 * y + x)).isSome

/-- The long division of R136 in the source's own form. The working register `w` starts as the data; each round drops
the leading term and, where it is not 0, adds its row aligned at the front, the shorter side padded with 0; where it is
0 and the register is shorter than `n`, it is padded to length `n`. -/
def xorPadded : List Byte → List Byte → List Byte
  | [], b => b
  | a, [] => a
  | x :: a, y :: b => (x ^^^ y) :: xorPadded a b

def longRound (gf : Byte → List Byte) (n : Nat) (lead : Byte) (w : List Byte) : List Byte :=
  if lead ≠ 0#8 then xorPadded w (gf lead) else w ++ List.replicate (n - w.length) 0#8

def longRounds (gf : Byte → List Byte) (n : Nat) : Nat → List Byte → List Byte
  | 0, w => w
  | _ + 1, [] => []
  | k + 1, lead :: w => longRounds gf n k (longRound gf n lead w)

def longDivision (gf : Byte → List Byte) (n : Nat) (ds : List Byte) : List Byte :=
  (longRounds gf n ds.length ds ++ List.replicate n 0#8).take n

/-- The leading terms other than 0 that `k` rounds meet: the rows of GF that the division reads (R134). -/
def longLeads (gf : Byte → List Byte) (n : Nat) : Nat → List Byte → List Byte
  | 0, _ => []
  | _ + 1, [] => []
  | k + 1, lead :: w => (if lead ≠ 0#8 then [lead] else []) ++ longLeads gf n k (longRound gf n lead w)

/-- The written content of CW and of row `c` of GF, 0 where nothing is written. -/
def cwByte (s : State) (i : Nat) : Byte := (s.mem.cw.read i).getD 0#8
def gfBytes (s : State) (c : Byte) : List Byte :=
  (List.range (eccLen s)).map (fun j => (s.mem.gf.read (c.toNat * s.params.eccMax + j)).getD 0#8)

/-- The data codewords of block `b` (R132). -/
def blockOffset (s : State) (b : Nat) : Nat := (((sizes s).take b).map (fun k => k - eccLen s)).sum
def blockBytes (s : State) (b : Nat) : List Byte :=
  (List.range ((sizes s).getD b 0 - eccLen s)).map (fun t => cwByte s (blockOffset s b + t))

/-- RS_ENCODE's row of R281: the block list, the data codewords, and of GF the rows that the division of some block reads. -/
def RsTablesWritten (s : State) : Prop :=
  BlkWritten s ∧ (∀ i < data s, (s.mem.cw.read i).isSome) ∧
  ∀ b < s.cfg.nblocks.toNat, ∀ c ∈ longLeads (gfBytes s) (eccLen s) (blockBytes s b).length (blockBytes s b),
    ∀ j < eccLen s, (s.mem.gf.read (c.toNat * s.params.eccMax + j)).isSome

/-- The effect of RS_ENCODE on CW (R135, R139 item 8): everything outside CW[NDATA..NTOTAL−1] is untouched, those entries are
written, and on a written load the ECC codewords of every block stand there. -/
def CwEncoded (s t : State) : Prop :=
  (∀ i, i < data s ∨ total s ≤ i → t.mem.cw.read i = s.mem.cw.read i) ∧
  (∀ i, data s ≤ i → i < total s → (t.mem.cw.read i).isSome) ∧
  (RsTablesWritten s → ∀ b < s.cfg.nblocks.toNat, ∀ j < eccLen s,
    t.mem.cw.read (data s + b * eccLen s + j) = (longDivision (gfBytes s) (eccLen s) (blockBytes s b))[j]?)

/-- The data bit of global bit index `i` (R152, R153, R155), as PLACE reads it, and of the codewords CW holds. -/
def bitAt (s : State) (i : Nat) : Bool :=
  if i < 8 * total s then (cwAt s (s.draws + i % 8) (i / 8)).getLsbD (7 - i % 8) else false
def bitOfCw (s t : State) (i : Nat) : Bool :=
  if i < 8 * total s then (cwByte t (i / 8)).getLsbD (7 - i % 8) else false

/-- Bit index `i` names cell (x, y). -/
def Names (s : State) (i x y : Nat) : Prop := coordX (plAt s s.draws i) = x ∧ coordY (plAt s s.draws i) = y

/-- PLANE as PLACE leaves it on a written placement table (R153, R154, R157): each cell the copied bit and the toggle of the
last bit index that names it, 0 where none does. -/
def PlanePlaced (bit : Nat → Bool) (s t : State) : Prop :=
  ∀ x < 256, ∀ y < 256,
    (∀ i < bitTotal s, Names s i x y → (∀ i' < bitTotal s, i < i' → ¬Names s i' x y) →
      t.mem.plane.read (256 * y + x)
        = some ((if bit i then 0xFF#8 else 0x00#8) ^^^ (plAt s s.draws i).extractLsb' 16 8))
    ∧ ((∀ i < bitTotal s, ¬Names s i x y) → t.mem.plane.read (256 * y + x) = some 0#8)

/-- A matrix of side `side` as rows of modules. -/
def gridOf (side : Nat) (c : Nat → Nat → Bool) : Grid :=
  (List.range side).map (fun y => (List.range side).map (fun x => c x y))

/-- Candidate `m` as SCORE reads it (R171), and the merged module of what PLANE and FRAME hold (R156). -/
def candidateAt (s : State) (m : Nat) : Grid := gridOf (side s) (moduleAt s (s.draws + m) m)
def moduleOf (t : State) (m x y : Nat) : Bool :=
  ((t.mem.plane.read (256 * y + x)).getD 0#8).getLsbD m || ((t.mem.frame.read (256 * y + x)).getD 0#1).getLsbD 0

/-- The total penalty of a candidate (R178). -/
def totalWord (p : Params) (S : Nat) (g : Grid) : Word :=
  BitVec.ofNat 32 (n1Score S g + n2Score g + n3Score p.n3Rule S g + n4Score p (darkCount g) (S * S))

/-- The result registers as SCORE leaves them (R172, R178, R179): the six scores of each of the eight candidates, and in
SEL_MASK the first index that reaches the least total. -/
def Scored (p : Params) (S : Nat) (grid : Nat → Grid) (r : ResultRegs) : Prop :=
  (∀ m : Fin 8,
    r.pen[m].n1 = .known (BitVec.ofNat 32 (n1Score S (grid m))) ∧ r.pen[m].n2 = .known (BitVec.ofNat 32 (n2Score (grid m)))
    ∧ r.pen[m].n3 = .known (BitVec.ofNat 32 (n3Score p.n3Rule S (grid m)))
    ∧ r.pen[m].n4 = .known (BitVec.ofNat 32 (n4Score p (darkCount (grid m)) (S * S)))
    ∧ r.pen[m].total = .known (totalWord p S (grid m))
    ∧ r.pen[m].dark = .known (BitVec.ofNat 32 (darkCount (grid m))))
  ∧ ∃ best < 8, r.selMask = .known (BitVec.ofNat 3 best)
      ∧ (∀ m < 8, totalWord p S (grid best) ≤ totalWord p S (grid m))
      ∧ ∀ m < best, totalWord p S (grid best) < totalWord p S (grid m)

/-- The format index and string of FINALIZE for a SEL_MASK value (R202, R203). -/
def formatIdx (s : State) (mask : BitVec 3) : Nat := s.cfg.eccode.toNat * 8 + mask.toNat
def formatBits (s : State) (mask : BitVec 3) : BitVec 15 := fmtTableAt s s.draws (formatIdx s mask)

/-- Coordinate `k` of a region names cell (x, y). -/
def Names1 (s : State) (k x y : Nat) : Prop := coordX (fmtC1At s s.draws k) = x ∧ coordY (fmtC1At s s.draws k) = y
def Names2 (s : State) (k x y : Nat) : Prop := coordX (fmtC2At s s.draws k) = x ∧ coordY (fmtC2At s s.draws k) = y

/-- OUT as FINALIZE leaves it on written coordinates (R202, R204, R206): the string's bit of the last secondary coordinate
that names the cell, else of the last primary one, else the merged module, else 0 outside S × S. -/
def OutFinal (module : Nat → Nat → Bool) (bits : BitVec 15) (s t : State) : Prop :=
  ∀ x < 256, ∀ y < 256,
    (∀ k < 15, Names2 s k x y → (∀ k' < 15, k < k' → ¬Names2 s k' x y) →
      t.mem.out.read (256 * y + x) = some (BitVec.ofBool (bits.getLsbD (14 - k)))) ∧
    ((∀ k < 15, ¬Names2 s k x y) → ∀ k < 15, Names1 s k x y → (∀ k' < 15, k < k' → ¬Names1 s k' x y) →
      t.mem.out.read (256 * y + x) = some (BitVec.ofBool (bits.getLsbD (14 - k)))) ∧
    ((∀ k < 15, ¬Names2 s k x y) → (∀ k < 15, ¬Names1 s k x y) → x < side s → y < side s →
      t.mem.out.read (256 * y + x) = some (BitVec.ofBool (module x y))) ∧
    ((∀ k < 15, ¬Names2 s k x y) → (∀ k < 15, ¬Names1 s k x y) → (side s ≤ x ∨ side s ≤ y) →
      t.mem.out.read (256 * y + x) = some 0#1)

/-- The host's write of a word at a numbered offset, and its read (R8). -/
def hostWrite (off : Nat) (v : Word) (s : State) : State := busAccess (.writeWord (BitVec.ofNat 20 off) v) s
def hostRead (off : Nat) (s : State) : State := busAccess (.read (BitVec.ofNat 20 off)) s

/-- The host's read of an offset answers the word `v`. -/
def ReadsAs (s : State) (off : Nat) (v : Word) : Prop := (hostRead off s).resp = some { data := v, err := false }

/-- A Bool as a bit of a number. -/
def bit (b : Bool) : Nat := if b then 1 else 0

/-- The eight registers that a host may read at any time (R22 to R29, R66), by their offsets: ID, PARAMS0, CTRL, STATUS, CMD,
ERR, ERRINFO and PARAMS1, with the fields of R24, R25 and R28. -/
def LowRegistersRead (s : State) : Prop :=
  ReadsAs s 0x000 0x51524501#32
  ∧ (s.params.legal = true →
      ReadsAs s 0x004 (BitVec.ofNat 32 (s.params.cwDepth * 2 ^ 16 + s.params.blkDepth * 2 ^ 8 + s.params.eccMax))
      ∧ ReadsAs s 0x01C (BitVec.ofNat 32 (177 * 2 ^ 24 + s.params.plDepth)))
  ∧ (∃ v, ReadsAs s 0x004 v) ∧ (∃ v, ReadsAs s 0x01C v)
  ∧ ReadsAs s 0x008 (BitVec.ofNat 32 (bit s.ctrl.ieDone + bit s.ctrl.ieFault * 2 + bit s.ctrl.ieBuserr * 2 ^ 2))
  ∧ ReadsAs s 0x00C s.statusWord
  ∧ ReadsAs s 0x010 0#32
  ∧ ReadsAs s 0x014 (BitVec.ofNat 32 (s.err.code.toNat + s.err.cmd.toNat * 2 ^ 8 + s.err.phase.toNat * 2 ^ 16))
  ∧ ReadsAs s 0x018 s.err.info

/-- Each entry that memory `m` specifies, of the entries that `inRange` admits, reads as its value at offset `off k`. -/
def EntriesAt {w : Nat} (s : State) (m : Mem w) (inRange : Nat → Prop) (off : Nat → Nat) : Prop :=
  ∀ k v, inRange k → m.read k = some v → ReadsAs s (off k) (v.setWidth 32)

/-- The entries of the eight tables at the offsets of their windows (R22, R60). -/
def EntriesRead (s : State) : Prop :=
  EntriesAt s s.mem.blk (· < s.params.blkDepth) (fun b => 0x00400 + 4 * b)
  ∧ EntriesAt s s.mem.cw (· < s.params.cwDepth) (fun i => 0x10000 + 4 * i)
  ∧ EntriesAt s s.mem.gf (· < 256 * s.params.eccMax) (fun e => 0x20000 + 4 * e)
  ∧ EntriesAt s s.mem.pl (· < s.params.plDepth) (fun i => 0x40000 + 4 * i)
  ∧ EntriesAt s s.mem.frame (fun k => k % 256 < 177 ∧ k / 256 < 177) (fun k => 0x80000 + 4 * k)
  ∧ EntriesAt s s.mem.fmtC1 (· < 15) (fun k => 0x200 + 4 * k)
  ∧ EntriesAt s s.mem.fmtC2 (· < 15) (fun k => 0x240 + 4 * k)
  ∧ EntriesAt s s.mem.fmtTable (· < 32) (fun i => 0x280 + 4 * i)

/-- The offsets that name nothing (R22, R39, R60), by their numbers. -/
def ReservedOffset (p : Params) (o : Nat) : Prop :=
  (0x04C ≤ o ∧ o < 0x100)
  ∨ (∃ m < 8, o = 0x118 + 0x20 * m ∨ o = 0x11C + 0x20 * m)
  ∨ o = 0x23C ∨ o = 0x27C ∨ (0x300 ≤ o ∧ o < 0x400)
  ∨ (0x400 + 4 * p.blkDepth ≤ o ∧ o < 0x10000)
  ∨ (0x10000 + 4 * p.cwDepth ≤ o ∧ o < 0x20000)
  ∨ (0x20000 + 4 * (256 * p.eccMax) ≤ o ∧ o < 0x40000)
  ∨ (0x40000 + 4 * p.plDepth ≤ o ∧ o < 0x80000)
  ∨ (∃ x < 256, ∃ y < 256, (177 ≤ x ∨ 177 ≤ y)
      ∧ (o = 0x80000 + 4 * (256 * y + x) ∨ o = 0xC0000 + 4 * (256 * y + x)))

/-- A word written at an offset reads back with its low `w` bits (R61, R70). -/
def ReadsBack (s : State) (off w : Nat) : Prop :=
  ∀ v : Word, (hostRead off (hostWrite off v s)).resp = some { data := (v.extractLsb' 0 w).setWidth 32, err := false }

/-- Two states agree on the block list and its configuration (R45, R131). -/
structure BlocksAgree (s s' : State) : Prop where
  ecclen  : s.cfg.ecclen = s'.cfg.ecclen
  nblocks : s.cfg.nblocks = s'.cfg.nblocks
  blk     : ∀ b < s.cfg.nblocks.toNat, s.mem.blk.read b = s'.mem.blk.read b

/-- Two states agree on the entries of RS_ENCODE's operand row that it reads: CW[0..NDATA−1], and of GF the entries
0..ECCLEN−1 of the rows other than row 0, which is never read (R47, R94, R139 item 4). -/
structure RsOperandsAgree (s s' : State) : Prop where
  blocks : BlocksAgree s s'
  cw     : BlocksPass s → ∀ i < data s, s.mem.cw.read i = s'.mem.cw.read i
  gf     : BlocksPass s → ∀ c, 1 ≤ c → c < 256 → ∀ j < eccLen s,
    s.mem.gf.read (c * s.params.eccMax + j) = s'.mem.gf.read (c * s.params.eccMax + j)

/-- The same of PLACE's: CW[0..NTOTAL−1] and PL[0..B−1] (R46, R48, R94). -/
structure PlaceOperandsAgree (s s' : State) : Prop where
  version : s.cfg.version = s'.cfg.version
  rembits : s.cfg.rembits = s'.cfg.rembits
  blocks  : BlocksAgree s s'
  cw      : BlocksPass s → ∀ i < total s, s.mem.cw.read i = s'.mem.cw.read i
  pl      : BlocksPass s → bitTotal s ≤ s.params.plDepth → ∀ i < bitTotal s, s.mem.pl.read i = s'.mem.pl.read i

/-- Two states agree on VERSION and on the cells inside S × S of PLANE and FRAME (R49, R94). -/
structure ModulesAgree (s s' : State) : Prop where
  version : s.cfg.version = s'.cfg.version
  plane   : VersionLegal s → ∀ x < side s, ∀ y < side s,
    s.mem.plane.read (256 * y + x) = s'.mem.plane.read (256 * y + x)
  frame   : VersionLegal s → ∀ x < side s, ∀ y < side s,
    s.mem.frame.read (256 * y + x) = s'.mem.frame.read (256 * y + x)

/-- The same of SCORE's operand row. -/
structure ScoreOperandsAgree (s s' : State) : Prop where
  placed  : s.status.flags.placed = s'.status.flags.placed
  modules : ModulesAgree s s'

/-- The same of FINALIZE's: the fifteen coordinates of each region, and of FMT_TABLE the entry of the format index. -/
structure FinalizeOperandsAgree (s s' : State) : Prop where
  scored   : s.status.flags.scored = s'.status.flags.scored
  modules  : ModulesAgree s s'
  eccode   : s.cfg.eccode = s'.cfg.eccode
  selMask  : s.res.selMask = s'.res.selMask
  coords   : ∀ k < 15, s.mem.fmtC1.read k = s'.mem.fmtC1.read k ∧ s.mem.fmtC2.read k = s'.mem.fmtC2.read k
  fmtTable : s.mem.fmtTable.read (formatIdx s (selMaskAt s s.draws))
    = s'.mem.fmtTable.read (formatIdx s (selMaskAt s s.draws))

/-- NDATA and NTOTAL are the same. -/
def CountsAgree (t t' : State) : Prop := t.res.ndata = t'.res.ndata ∧ t.res.ntotal = t'.res.ntotal

/-- Accepts a command on a machine that is not busy and runs it to its end (R111, R112). -/
def issue (i : Instr) (s : State) : State :=
  match exec i (accept (encode i) s) with
  | .next t => t
  | .fault _ => s
  | .refused _ => s

/-- One more body of the command in flight. -/
def bodyAgain : StepResult → StepResult
  | .next s => bodyTurn s
  | .fault r => .fault r
  | .refused r => .refused r

/-- The SEQUENCE check at acceptance passed (R115): the prerequisite flag of a command is set, or its step has ended. -/
def SequencePasses (i : Instr) (s : State) : Prop :=
  s.seq.ended = true
  ∨ ((i = .score → s.status.flags.placed = true) ∧ (i = .finalize → s.status.flags.scored = true))

/-- The sequence flags with the own flag of the step of a phase, and every later one, 0 (R114). -/
def flagsAtStart (p : Phase) (f : SeqFlags) : SeqFlags :=
  let rs := decide (p = .rs)
  let place := rs || decide (p = .place)
  let score := place || decide (p = .score)
  let final := score || decide (p = .final)
  ⟨f.eccValid && !rs, f.placed && !place, f.scored && !score, f.final && !final⟩

/-- A matrix with its coordinates exchanged (R181). -/
def flipped (c : Nat → Nat → Bool) : Nat → Nat → Bool := fun x y => c y x

/-- Some run of five at run index `r` of a line's run list is an occurrence of R176. -/
def OccursAt (rs : List (Bool × Nat)) (r : Nat) : Prop :=
  ∃ a b c d e : Bool × Nat, 2 ≤ r ∧ rs[r - 2]? = some a ∧ rs[r - 1]? = some b ∧ rs[r]? = some c ∧ rs[r + 1]? = some d ∧
    rs[r + 2]? = some e ∧ c.1 = true ∧ a.2 = b.2 ∧ b.2 = d.2 ∧ d.2 = e.2 ∧ c.2 = 3 * b.2

end Sys2Proof.Claims

open Sys2Proof Sys2Proof.Machine Sys2Proof.Claims

/-! ### Reset -/

/-- R270: the reset input acts at any moment, and after it, as after power-up, every register reads its reset value and
irq is 0: the command in flight is dropped without DONE and without a fault. -/
def Obligations.ResetRegisterValues : Prop :=
  ∀ s : State, ∃ u, takeTurn .reset s = .next u ∧
    ∀ t, t = u ∨ t = State.resetWith s.params →
      (∀ d, readLoc t d .id = 0x51524501#32 ∧ readLoc t d .params0 = readLoc s d .params0
        ∧ readLoc t d .params1 = readLoc s d .params1 ∧ readLoc t d .ctrl = 0#32 ∧ readLoc t d .status = 0#32
        ∧ readLoc t d .err = 0#32 ∧ readLoc t d .errinfo = 0#32 ∧ readLoc t d .version = 0#32
        ∧ readLoc t d .eccode = 0#32 ∧ readLoc t d .ecclen = 0#32 ∧ readLoc t d .nblocks = 0#32
        ∧ readLoc t d .rembits = 0#32 ∧ readLoc t d .side = 0#32 ∧ readLoc t d .ndata = 0#32
        ∧ readLoc t d .ntotal = 0#32 ∧ readLoc t d .selMask = 0#32 ∧ readLoc t d .fmtIndex = 0#32
        ∧ readLoc t d .fmtBits = 0#32 ∧ ∀ m f, readLoc t d (.pen m f) = 0#32)
      ∧ t.seq.abortReq = false ∧ t.seq.inflight = none ∧ t.irq = false

/-- R24: the parameter registers report the parameters, field by field, and no step changes a parameter. -/
def Obligations.ParameterRegisterFields : Prop :=
  ∀ s : State,
    (s.params.legal = true →
      (readLoc s s.draws .params0).toNat = s.params.cwDepth * 2 ^ 16 + s.params.blkDepth * 2 ^ 8 + s.params.eccMax
      ∧ (readLoc s s.draws .params1).toNat = 177 * 2 ^ 24 + s.params.plDepth)
    ∧ ∀ t, step s = .next t → t.params = s.params

/-- R271: after the reset input no memory entry is specified. That an unlisted entry is an unspecified one is the model's
form (log 4, 18). -/
def Obligations.ResetForgetsMemories : Prop :=
  ∀ s t : State, takeTurn .reset s = .next t →
    ∀ k, t.mem.blk.read k = none ∧ t.mem.cw.read k = none ∧ t.mem.gf.read k = none ∧ t.mem.pl.read k = none
      ∧ t.mem.frame.read k = none ∧ t.mem.plane.read k = none ∧ t.mem.out.read k = none
      ∧ t.mem.fmtC1.read k = none ∧ t.mem.fmtC2.read k = none ∧ t.mem.fmtTable.read k = none

/-! ### The invariant and whole-machine rules -/

/-- The state after reset meets the invariant. -/
def Obligations.ResetMeetsInvariant : Prop := Inv State.reset

/-- Every step keeps the invariant, from every state that meets it: canonical memories that list only entries of the map,
PHASE and BUSY in step (R40, R116), no command in flight beside an unacknowledged fault (R111), ERR and FAULT in step
(R245), the order of the sequence flags (R41, R114, R115), and specified results wherever a flag vouches for them. -/
def Obligations.StepKeepsInvariant : Prop := ∀ s t : State, Inv s → step s = .next t → Inv t

/-- R112: DONE becomes 1 only by the end of a command, and a command that ends, other than by reset, sets it. -/
def Obligations.DoneMarksCommandEnd : Prop :=
  ∀ s t : State, step s = .next t →
    (s.status.done = false → t.status.done = true → s.busy = true ∧ t.busy = false)
    ∧ (s.busy = true → t.busy = false → s.turns.head? ≠ some .reset → t.status.done = true ∧ t.status.phase = .idle)

/-- R240, R242: FAULT becomes 1 only in the step that ends a command. -/
def Obligations.FaultOnlyEndsCommand : Prop :=
  ∀ s t : State, step s = .next t → s.status.fault = false → t.status.fault = true →
    s.busy = true ∧ t.busy = false ∧ t.status.done = true

/-- R283: whatever the schedule has done so far, one run of the sequencer completes the command in flight. -/
def Obligations.RunCompletesCommandInFlight : Prop :=
  ∀ (s : State) (ts : List Turn), s.busy = true →
    ∃ t, step { s with turns := .run :: ts } = .next t ∧ t.busy = false ∧ t.status.done = true
      ∧ t.status.phase = .idle ∧ t.turns = ts

/-- R52, R244: no command, faulted, aborted or not, writes a table, a configuration register or CTRL. -/
def Obligations.SequencerNeverWritesTables : Prop :=
  ∀ s t : State,
    (runTurn s = .next t ∨ bodyTurn s = .next t ∨ workTurn s = .next t ∨ abortTurn s = .next t) → Around s t

/-! ### Decoding -/

/-- R91, R92: the seven command words, written out, decode to their commands. -/
def Obligations.CommandWordsDecode : Prop :=
  decodeWord 0b00000000000000000000000000000000#32 = .ok .nop
  ∧ decodeWord 0b00000000000000000000000000000001#32 = .ok .clear
  ∧ decodeWord 0b00000000000000000000000000010000#32 = .ok .rsEncode
  ∧ decodeWord 0b00000000000000000000000000100000#32 = .ok .place
  ∧ decodeWord 0b00000000000000000000000000110000#32 = .ok .score
  ∧ decodeWord 0b00000000000000000000000001000000#32 = .ok .finalize
  ∧ decodeWord 0b00000000000000000000000001010000#32 = .ok .encodeAll

/-- R91, R93: each command has exactly one word, and the decoder reads it back, also from its bytes in lane order. -/
def Obligations.DecodeEncodeAgree : Prop :=
  (∀ (i : Instr) (w : Word), decodeWord w = .ok i ↔ w = encode i)
  ∧ (∀ (i : Instr) (rest : List Byte), decode (bytesOfWord (encode i) ++ rest) = .ok (i, rest))

/-- R92: a word that is no command is ILLEGAL; run from its acceptance it raises BAD_OPCODE with the whole word as info and
its low byte as ERRCMD, in phase CTRL, and leaves memories, results and sequence flags as they were. -/
def Obligations.IllegalWordFaults : Prop :=
  ∀ (s : State) (w : Word), s.busy = false → s.status.fault = false → (∀ i, w ≠ encode i) →
    ∃ t, runTurn (accept w s) = .next t
      ∧ Faulted (accept w s) t 1#4 (w.extractLsb' 0 8) 1#3 w s.status.flags ∧ t.mem = s.mem ∧ t.res = s.res

/-- The machine runs the decoded command: with `w` in flight, its step in progress not ended, and the sequencer's turn next,
a step is `exec` of the command that `w` decodes to; the turn leaves the schedule (R21, R42, R92; log 1, 3). Where the step
has ended (log 25) it is `exec` from the next step of ENCODE_ALL, and for the last step, and for every other command, the
completion of R112. -/
def Obligations.StepRunsDecodedCommand : Prop :=
  ∀ (s : State) (w : Word) (i : Instr), s.seq.inflight = some w → decodeWord w = .ok i →
    let rest := fun u : State =>
      if s.seq.ended = false then exec i u
      else if i = .encodeAll ∧ s.status.phase = .rs then exec .encodeAll (startStep .place u)
      else if i = .encodeAll ∧ s.status.phase = .place then exec .encodeAll (startStep .score u)
      else if i = .encodeAll ∧ s.status.phase = .score then exec .encodeAll (startStep .final u)
      else .next { u with
        seq := { u.seq with inflight := none, loops := 0, ended := false }
        status := { u.status with phase := .idle, done := true } }
    (s.turns = [] → step s = rest s)
    ∧ (∀ ts, s.turns = .run :: ts → step s = rest { s with turns := ts })

/-- The model's way of placing a command (log 3): after `withFetchWord` the next step runs exactly the command, on the
state its acceptance leaves. -/
def Obligations.FetchedWordRuns : Prop :=
  ∀ (s : State) (i : Instr),
    step (s.withFetchWord 32 (encode i).toNat) = exec i (accept (encode i) s)
    ∧ decodeTableWord 32 (encode i).toNat = some i

/-! ### The issue protocol and the bus -/

/-- R111: an accepted write to CMD, as one atomic step, with the first phases of R116 and the flags of R114. That the
acceptance of CLEAR clears the flags is the model's reading (log 9) and is not stated here. -/
def Obligations.AcceptedCommandWrite : Prop :=
  ∀ (s : State) (w : Word), s.busy = false → s.status.fault = false →
    hostWrite 0x010 w s = respond 0#32 (accept w s)
    ∧ (accept w s).busy = true ∧ (accept w s).status.done = false ∧ (accept w s).seq.abortReq = false
    ∧ (accept w s).seq.inflight = some w
    ∧ (accept (encode .rsEncode) s).status.flags = ⟨false, false, false, false⟩
    ∧ (accept (encode .encodeAll) s).status.flags = ⟨false, false, false, false⟩
    ∧ (accept (encode .place) s).status.flags = ⟨s.status.flags.eccValid, false, false, false⟩
    ∧ (accept (encode .score) s).status.flags = ⟨s.status.flags.eccValid, s.status.flags.placed, false, false⟩
    ∧ (accept (encode .finalize) s).status.flags = { s.status.flags with final := false }
    ∧ (accept (encode .nop) s).status.flags = s.status.flags
    ∧ ((∀ i, w ≠ encode i) → (accept w s).status.flags = s.status.flags ∧ (accept w s).status.phase.code = 1#3)
    ∧ (accept (encode .nop) s).status.phase.code = 1#3 ∧ (accept (encode .clear) s).status.phase.code = 1#3
    ∧ (accept (encode .rsEncode) s).status.phase.code = 2#3 ∧ (accept (encode .place) s).status.phase.code = 3#3
    ∧ (accept (encode .score) s).status.phase.code = 4#3 ∧ (accept (encode .finalize) s).status.phase.code = 5#3
    ∧ (accept (encode .encodeAll) s).status.phase.code = 2#3
    ∧ (accept w s).mem = s.mem ∧ (accept w s).cfg = s.cfg ∧ (accept w s).res = s.res ∧ (accept w s).err = s.err
    ∧ (accept w s).ctrl = s.ctrl

/-- R111: a write to CMD while BUSY = 1 or FAULT = 1 is a bus error and changes nothing else. -/
def Obligations.RefusedCommandWrite : Prop :=
  ∀ (s : State) (w : Word), (s.busy = true ∨ s.status.fault = true) →
    hostWrite 0x010 w s =
      { s with status := { s.status with buserr := true }, resp := some { data := 0#32, err := true } }

/-- R63, R64: a misaligned access and a write with a cleared strobe are bus errors; R67: a bus error sets BUSERR, answers
an error with data 0 and changes nothing else. -/
def Obligations.BusErrorAccesses : Prop :=
  ∀ (s : State) (off : Offset) (v : Word) (strobes : BitVec 4),
    let e : State := { s with status := { s.status with buserr := true }, resp := some { data := 0#32, err := true } }
    (off.toNat % 4 ≠ 0 → busAccess (.read off) s = e ∧ busAccess (.write off v strobes) s = e)
    ∧ (strobes ≠ 0xF#4 → busAccess (.write off v strobes) s = e)

/-- R71: on a bus that keeps the host's order the oldest pending access takes effect, whichever one the schedule names. -/
def Obligations.HostAccessesInProgramOrder : Prop :=
  ∀ (s : State) (k : Nat) (a : BusAccess) (rest : List BusAccess), s.params.busOrdered = true → s.host = a :: rest →
    takeTurn (.host k) s = .next (busAccess a { s with host := rest })

/-- R63, R64, R66: while BUSY = 1 the aligned reads of offsets 0x000 to 0x01F and the whole writes of CTRL and STATUS take effect, and every other
access is a bus error that returns 0 and has no effect. -/
def Obligations.BusyAccessesThatTakeEffect : Prop :=
  ∀ (s : State) (off : Offset) (v : Word) (strobes : BitVec 4), s.busy = true →
    let e : State := { s with status := { s.status with buserr := true }, resp := some { data := 0#32, err := true } }
    LowRegistersRead s
    ∧ hostWrite 0x008 v s = respond 0#32 (writeCtrl v s)
    ∧ hostWrite 0x00C v s = respond 0#32 (writeStatus v s)
    ∧ (0x20 ≤ off.toNat ∨ off.toNat % 4 ≠ 0 → busAccess (.read off) s = e)
    ∧ ((off.toNat ≠ 0x008 ∧ off.toNat ≠ 0x00C) ∨ strobes ≠ 0xF#4 → busAccess (.write off v strobes) s = e)

/-- R286: while a command is in flight no host access changes its operands, its results or its progress. -/
def Obligations.BusyHostChangesNoOperand : Prop :=
  ∀ (s : State) (a : BusAccess), s.busy = true →
    let t := busAccess a s
    t.mem = s.mem ∧ t.cfg = s.cfg ∧ t.res = s.res ∧ t.params = s.params ∧ t.seq.inflight = s.seq.inflight
    ∧ t.seq.esr = s.seq.esr ∧ t.status.phase = s.status.phase ∧ t.status.flags = s.status.flags

/-- R285: no host write changes a sequence flag. Only a write to CMD that is accepted starts a command, and that
command clears flags. -/
def Obligations.HostAccessKeepsSequenceFlags : Prop :=
  ∀ (s : State) (a : BusAccess), (∀ v strobes, a ≠ .write 0x00010#20 v strobes) →
    (busAccess a s).status.flags = s.status.flags

/-- R69: a read has no side effect but the bus error of R67; the response and the draw counter are the model's own
fields (log 13, 16). -/
def Obligations.ReadsHaveNoSideEffects : Prop :=
  ∀ (s : State) (off : Offset),
    let t := busAccess (.read off) s
    { t with resp := s.resp, draws := s.draws } = s
    ∨ (t = { s with status := { s.status with buserr := true }, resp := some { data := 0#32, err := true } })

/-- R65: reserved offsets, by their numbers (R22, R39, R60), read 0 and ignore writes, and read-only registers and the MAT
window ignore writes, none of them with an error. -/
def Obligations.ReservedAndReadOnlyLocations : Prop :=
  ∀ (s : State) (off : Offset) (v : Word), s.busy = false → off.toNat % 4 = 0 →
    (ReservedOffset s.params off.toNat →
      (busAccess (.read off) s).resp = some { data := 0#32, err := false }
      ∧ busAccess (.writeWord off v) s = respond 0#32 s)
    ∧ (off.toNat ∈ [0x000, 0x004, 0x014, 0x018, 0x01C, 0x034, 0x038, 0x03C, 0x040, 0x044, 0x048] →
      busAccess (.writeWord off v) s = respond 0#32 s)
    ∧ ((0x100 ≤ off.toNat ∧ off.toNat < 0x200) → busAccess (.writeWord off v) s = respond 0#32 s)
    ∧ (0xC0000 ≤ off.toNat → busAccess (.writeWord off v) s = respond 0#32 s)

/-- R22, R39, R60, R61, R70: the content that each offset names. A word the host writes to a table entry or a configuration
register reads back with the field's bits; each table entry and configuration register that the commands use, each read-only
register, each penalty register (0x100 + 0x20·m) and each MAT word (PLANE in [7:0], OUT in [8]) reads as what it holds, where
that is specified. -/
def Obligations.OffsetsReadTheirContent : Prop :=
  ∀ s : State, s.busy = false → s.params.legal = true →
    ((∀ b < s.params.blkDepth, ReadsBack s (0x00400 + 4 * b) 8)
      ∧ (∀ i < s.params.cwDepth, ReadsBack s (0x10000 + 4 * i) 8)
      ∧ (∀ c < 256, ∀ j < s.params.eccMax, ReadsBack s (0x20000 + 4 * (c * s.params.eccMax + j)) 8)
      ∧ (∀ i < s.params.plDepth, ReadsBack s (0x40000 + 4 * i) 24)
      ∧ (∀ x < 177, ∀ y < 177, ReadsBack s (0x80000 + 4 * (256 * y + x)) 1)
      ∧ (∀ k < 15, ReadsBack s (0x200 + 4 * k) 16 ∧ ReadsBack s (0x240 + 4 * k) 16)
      ∧ (∀ i < 32, ReadsBack s (0x280 + 4 * i) 15)
      ∧ ReadsBack s 0x020 6 ∧ ReadsBack s 0x024 2 ∧ ReadsBack s 0x028 8 ∧ ReadsBack s 0x02C 8 ∧ ReadsBack s 0x030 3)
    ∧ EntriesRead s ∧ LowRegistersRead s
    ∧ ReadsAs s 0x020 (s.cfg.version.setWidth 32) ∧ ReadsAs s 0x024 (s.cfg.eccode.setWidth 32)
    ∧ ReadsAs s 0x028 (s.cfg.ecclen.setWidth 32) ∧ ReadsAs s 0x02C (s.cfg.nblocks.setWidth 32)
    ∧ ReadsAs s 0x030 (s.cfg.rembits.setWidth 32)
    ∧ ReadsAs s 0x034 (if 1 ≤ s.cfg.version.toNat ∧ s.cfg.version.toNat ≤ 40
        then BitVec.ofNat 32 (4 * s.cfg.version.toNat + 17) else 0#32)
    ∧ (∀ v, s.res.ndata = .known v → ReadsAs s 0x038 (v.setWidth 32))
    ∧ (∀ v, s.res.ntotal = .known v → ReadsAs s 0x03C (v.setWidth 32))
    ∧ (∀ v, s.res.selMask = .known v → ReadsAs s 0x040 (v.setWidth 32))
    ∧ (∀ v, s.res.fmtIndex = .known v → ReadsAs s 0x044 (v.setWidth 32))
    ∧ (∀ v, s.res.fmtBits = .known v → ReadsAs s 0x048 (v.setWidth 32))
    ∧ (∀ (m : Fin 8) (v : Word),
        (s.res.pen[m].n1 = .known v → ReadsAs s (0x100 + 0x20 * m) v)
        ∧ (s.res.pen[m].n2 = .known v → ReadsAs s (0x104 + 0x20 * m) v)
        ∧ (s.res.pen[m].n3 = .known v → ReadsAs s (0x108 + 0x20 * m) v)
        ∧ (s.res.pen[m].n4 = .known v → ReadsAs s (0x10C + 0x20 * m) v)
        ∧ (s.res.pen[m].total = .known v → ReadsAs s (0x110 + 0x20 * m) v)
        ∧ (s.res.pen[m].dark = .known v → ReadsAs s (0x114 + 0x20 * m) v))
    ∧ ∀ x < 177, ∀ y < 177, ∀ p o, s.mem.plane.read (256 * y + x) = some p → s.mem.out.read (256 * y + x) = some o →
        ReadsAs s (0xC0000 + 4 * (256 * y + x)) (BitVec.ofNat 32 (p.toNat + o.toNat * 2 ^ 8))

/-- R69, R70: a write to one location changes what no other location reads. CTRL, STATUS and CMD have the side effects
R69 lists, and SIDE is a function of VERSION (R35). Where the other location is unspecified (R271) that the two reads agree is
the model's choice: both are made at the same draw, since the write uses none (log 4, 16). -/
def Obligations.WriteLeavesOtherLocations : Prop :=
  ∀ (s : State) (off off' : Offset) (v : Word), s.busy = false → off.toNat % 4 = 0 → off'.toNat % 4 = 0 → off ≠ off' →
    off.toNat ∉ [0x008, 0x00C, 0x010] → (off.toNat = 0x020 → off'.toNat ≠ 0x034) →
    (busAccess (.read off') (busAccess (.writeWord off v) s)).resp = (busAccess (.read off') s).resp

/-- R70: a read of a written entry, by a command or the host, gives its last written value, whatever the draw. -/
def Obligations.OperandReadsGiveWrittenValues : Prop :=
  ∀ (s : State) (draw i x y m : Nat),
    (∀ v, s.mem.blk.read i = some v → blkAt s draw i = v)
    ∧ (∀ v, s.mem.cw.read i = some v → cwAt s draw i = v)
    ∧ (∀ v, s.mem.pl.read i = some v → plAt s draw i = v)
    ∧ (∀ v, s.mem.fmtC1.read i = some v → fmtC1At s draw i = v)
    ∧ (∀ v, s.mem.fmtC2.read i = some v → fmtC2At s draw i = v)
    ∧ (∀ v, s.mem.fmtTable.read i = some v → fmtTableAt s draw i = v)
    ∧ (∀ c j v, s.mem.gf.read (c * s.params.eccMax + j) = some v → gfAt s draw c j = v)
    ∧ (∀ p f, s.mem.plane.read (256 * y + x) = some p → s.mem.frame.read (256 * y + x) = some f →
      moduleAt s draw m x y = (p.getLsbD m || f.getLsbD 0))

/-- The memories are canonical (log 4): two memories in canonical form that read alike are equal data. -/
def Obligations.CanonicalMemoriesEqual : Prop :=
  ∀ (w : Nat) (a b : Mem w), Mem.wf a → Mem.wf b → (∀ k, a.read k = b.read k) → a = b

/-! ### STATUS, CTRL, ERR and the interrupt -/

/-- R26, R250: every bit of the STATUS word, IRQ among them, and the reserved bits 0; the irq output is the level of R250 and
STATUS.IRQ reads it. -/
def Obligations.StatusWordBits : Prop :=
  ∀ s : State,
    let w := s.statusWord
    w.getLsbD 0 = s.seq.inflight.isSome ∧ w.getLsbD 1 = s.status.done ∧ w.getLsbD 2 = s.status.fault
    ∧ w.getLsbD 3 = s.status.buserr
    ∧ w.getLsbD 4 = ((s.status.done && s.ctrl.ieDone) || (s.status.fault && s.ctrl.ieFault)
        || (s.status.buserr && s.ctrl.ieBuserr))
    ∧ s.irq = w.getLsbD 4
    ∧ w.extractLsb' 5 3 = 0#3 ∧ w.getLsbD 8 = s.status.flags.eccValid ∧ w.getLsbD 9 = s.status.flags.placed
    ∧ w.getLsbD 10 = s.status.flags.scored ∧ w.getLsbD 11 = s.status.flags.final ∧ w.extractLsb' 12 4 = 0#4
    ∧ w.extractLsb' 16 3 = s.status.phase.code ∧ w.extractLsb' 19 13 = 0#13

/-- R26, R245, R246: a write to STATUS clears exactly the W1C bits written 1; bit 2 also clears ERR and ERRINFO; nothing
else changes, and no command is run or restored. -/
def Obligations.StatusWriteAcknowledges : Prop :=
  ∀ (s : State) (v : Word),
    hostWrite 0x00C v s =
      { s with
        status := { s.status with
          done := s.status.done && !v.getLsbD 1
          fault := s.status.fault && !v.getLsbD 2
          buserr := s.status.buserr && !v.getLsbD 3 }
        err := if v.getLsbD 2 then { code := 0#4, cmd := 0#8, phase := 0#3, info := 0#32 } else s.err
        resp := some { data := 0#32, err := false } }

/-- R25, R118: a write to CTRL sets the three enables and requests an abort exactly where bit 8 is 1 and a command is in
flight; a read gives the enables, and 0 in ABORT and the reserved bits. -/
def Obligations.CtrlWrite : Prop :=
  ∀ (s : State) (v : Word),
    hostWrite 0x008 v s =
      { s with
        ctrl := { ieDone := v.getLsbD 0, ieFault := v.getLsbD 1, ieBuserr := v.getLsbD 2 }
        seq := { s.seq with abortReq := s.seq.abortReq || (v.getLsbD 8 && s.seq.inflight.isSome) }
        resp := some { data := 0#32, err := false } }
    ∧ (readLoc s s.draws .ctrl).getLsbD 0 = s.ctrl.ieDone ∧ (readLoc s s.draws .ctrl).getLsbD 1 = s.ctrl.ieFault
    ∧ (readLoc s s.draws .ctrl).getLsbD 2 = s.ctrl.ieBuserr ∧ (readLoc s s.draws .ctrl).extractLsb' 3 29 = 0#29

/-- R118, R243: where the SEQUENCE check of SCORE and FINALIZE passed at acceptance (log 10), an abort seen while ABORT_REQ
is set ends the command in flight with ABORTED, the phase at the stop as info and ERRPHASE, DONE set and the sequence
flags as the step's start set them (R114), also where the step of a single command has ended (log 25); a body of ENCODE_ALL
that has succeeded keeps its flag (R244); without a request the turn changes nothing. -/
def Obligations.AbortEndsCommand : Prop :=
  ∀ (s : State) (w : Word) (i : Instr), s.seq.inflight = some w → decodeWord w = .ok i → SequencePasses i s →
    (s.seq.abortReq = true → ∃ t, takeTurn .abort s = .next t
      ∧ Faulted s t 11#4 (w.extractLsb' 0 8) s.status.phase.code (s.status.phase.code.setWidth 32)
          (if s.seq.ended = true ∧ i = .encodeAll then s.status.flags
            else flagsAtStart s.status.phase s.status.flags))
    ∧ (s.seq.abortReq = false → takeTurn .abort s = .next s)

/-- R244: a body of ENCODE_ALL that succeeded before the abort keeps its results. For every other step, the ABORTED row: what
an abort leaves unspecified in each phase, and that it leaves every other memory entry and result register as it was. The
abort fell before the block-list validation where no loop iteration has been made and the step has not ended (log 8, 25),
and in RS the ECC codewords are those of the NTOTAL that an ended step has written, and else of a block list that passes its
validation (log 22). -/
def Obligations.AbortLeavesUnspecified : Prop :=
  ∀ (s t : State) (w : Word) (i : Instr), s.seq.inflight = some w → decodeWord w = .ok i → SequencePasses i s →
    s.seq.abortReq = true → takeTurn .abort s = .next t →
    let results := if s.seq.loops = 0 ∧ s.seq.ended = false then s.res
      else { s.res with ndata := .unspecified, ntotal := .unspecified }
    let kept := s.seq.ended = true ∧ i = .encodeAll
    (kept → t.mem = s.mem ∧ t.res = s.res)
    ∧ (¬kept → s.status.phase = .rs →
      t.res = results
      ∧ t.mem = { s.mem with cw := t.mem.cw }
      ∧ (s.seq.ended = true → ∀ n, s.res.ntotal = .known n →
          ∀ k, t.mem.cw.read k = if n.toNat - eccTotal s ≤ k ∧ k < n.toNat then none else s.mem.cw.read k)
      ∧ (s.seq.ended = false → BlocksPass s → ∀ k, t.mem.cw.read k = if data s ≤ k ∧ k < total s then none else s.mem.cw.read k)
      ∧ (s.seq.ended = false → ¬BlocksPass s → t.mem.cw = s.mem.cw))
    ∧ (¬kept → s.status.phase = .place →
      t.res = results
      ∧ t.mem = { s.mem with plane := t.mem.plane, out := t.mem.out }
      ∧ ∀ k, t.mem.plane.read k = none ∧ t.mem.out.read k = none)
    ∧ (¬kept → s.status.phase = .score →
      t.mem = s.mem ∧ t.res = { s.res with selMask := .unspecified, pen := t.res.pen }
      ∧ ∀ (m : Fin 8) (f : PenField), t.res.pen[m].field f = .unspecified)
    ∧ (¬kept → s.status.phase = .final →
      t.res = { s.res with fmtIndex := .unspecified, fmtBits := .unspecified }
      ∧ t.mem = { s.mem with out := t.mem.out } ∧ ∀ k, t.mem.out.read k = none)
    ∧ (s.status.phase = .ctrl → t.mem = s.mem ∧ (i = .nop → t.res = s.res))

/-- R120: an aborted CLEAR leaves each register it writes either cleared or unchanged, whatever the free choice is. -/
def Obligations.AbortedClearPerRegister : Prop :=
  ∀ s t : State, s.seq.inflight = some (encode .clear) → s.status.phase = .ctrl →
    s.seq.abortReq = true → takeTurn .abort s = .next t →
    (t.res.ndata = .known 0#16 ∨ t.res.ndata = s.res.ndata) ∧ (t.res.ntotal = .known 0#16 ∨ t.res.ntotal = s.res.ntotal)
    ∧ (t.res.selMask = .known 0#3 ∨ t.res.selMask = s.res.selMask)
    ∧ (t.res.fmtIndex = .known 0#5 ∨ t.res.fmtIndex = s.res.fmtIndex)
    ∧ (t.res.fmtBits = .known 0#15 ∨ t.res.fmtBits = s.res.fmtBits)
    ∧ ∀ (m : Fin 8) (f : PenField), t.res.pen[m].field f = .known 0#32 ∨ t.res.pen[m].field f = s.res.pen[m].field f

/-! ### NOP and CLEAR -/

/-- R119: NOP completes and changes nothing but BUSY, DONE and PHASE; the loop counters of no command are 0, and no
step of it has ended (log 2, 25). -/
def Obligations.NopCompletes : Prop :=
  ∀ s : State, exec .nop s =
    .next { s with
      seq := { s.seq with inflight := none, loops := 0, ended := false }
      status := { s.status with done := true, phase := .idle } }

/-- R120: CLEAR completes, clears the sequence flags and the result registers, and writes no configuration register and
no memory. -/
def Obligations.ClearCompletes : Prop :=
  ∀ s : State, ∃ t, exec .clear s = .next t ∧ Completed s t ⟨false, false, false, false⟩ ∧ t.mem = s.mem
    ∧ t.seq.esr = s.seq.esr
    ∧ t.res.ndata = .known 0#16 ∧ t.res.ntotal = .known 0#16 ∧ t.res.selMask = .known 0#3
    ∧ t.res.fmtIndex = .known 0#5 ∧ t.res.fmtBits = .known 0#15
    ∧ ∀ (m : Fin 8) (f : PenField), t.res.pen[m].field f = .known 0#32

/-! ### RS_ENCODE -/

/-- R130, R135, R138: RS_ENCODE on a block list that passes its validation completes: ECC_VALID alone is set, NDATA and
NTOTAL are written, CW keeps the data and every entry from NTOTAL up and is written between them, on the load of R281 with
the ECC codewords of each block by the long division of R136, and no other memory changes. What it writes for an unwritten
block list whose reads do not fit together is the model's choice (log 5). -/
def Obligations.RsEncodeCompletes : Prop :=
  ∀ s : State, BlocksPass s →
    ∃ t, exec .rsEncode s = .next t ∧ Completed s t ⟨true, false, false, false⟩
      ∧ CountsWritten s t ∧ t.mem = { s.mem with cw := t.mem.cw } ∧ CwEncoded s t

/-- R131, R243: the four faults of the block-list validation in RS_ENCODE, in their order, with their info values; memories
and results stay as they were (R244). -/
def Obligations.RsEncodeFaultsInOrder : Prop :=
  ∀ s : State,
    let left := fun (code : BitVec 4) (info : Nat) => ∃ t, exec .rsEncode s = .next t
      ∧ Faulted s t code 0x10#8 2#3 (BitVec.ofNat 32 info) ⟨false, false, false, false⟩ ∧ t.mem = s.mem ∧ t.res = s.res
    (eccLen s = 0 ∨ eccLen s > s.params.eccMax → left 3#4 (eccLen s))
    ∧ (1 ≤ eccLen s → eccLen s ≤ s.params.eccMax →
        s.cfg.nblocks.toNat = 0 ∨ s.cfg.nblocks.toNat > s.params.blkDepth → left 4#4 s.cfg.nblocks.toNat)
    ∧ (LengthsLegal s → ∀ b < s.cfg.nblocks.toNat, (blkAt s s.draws b).toNat < eccLen s →
        (∀ b' < b, eccLen s ≤ (blkAt s s.draws b').toNat) → left 5#4 b)
    ∧ (LengthsLegal s → (∀ k ∈ sizes s, eccLen s ≤ k) → total s > s.params.cwDepth → left 6#4 (total s))

/-- R136: the register form of the division gives the same codewords as the source's long division, for every table
content, every number of data codewords and every ECC length. -/
def Obligations.RegisterDivisionIsLongDivision : Prop :=
  ∀ (gf : Byte → List Byte) (n : Nat) (ds : List Byte), 1 ≤ n → (∀ f, (gf f).length = n) →
    divideBlock (fun _ => gf) 0 (List.replicate n 0#8) ds = longDivision gf n ds

/-- R139 item 6: for a table that is linear in the leading coefficient, the ECC codewords of a sum of data words are the
sum of their ECC codewords. -/
def Obligations.DivisionIsLinear : Prop :=
  ∀ (gf : Byte → List Byte) (n : Nat) (ds es : List Byte), 1 ≤ n → (∀ f, (gf f).length = n) →
    (∀ a b, gf (a ^^^ b) = List.zipWith (· ^^^ ·) (gf a) (gf b)) → ds.length = es.length →
    divideBlock (fun _ => gf) 0 (List.replicate n 0#8) (List.zipWith (· ^^^ ·) ds es)
      = List.zipWith (· ^^^ ·) (divideBlock (fun _ => gf) 0 (List.replicate n 0#8) ds)
          (divideBlock (fun _ => gf) 0 (List.replicate n 0#8) es)

/-! ### PLACE -/

/-- R150, R153, R158: PLACE on operands that pass its checks completes: PLACED is set, SCORED and FINAL are 0, the counts
are written, OUT is all 0, no cell of PLANE is unspecified, and no other memory changes. On a written placement table each
cell of PLANE holds the xor of the copied data bit and the toggle of the last bit index that names it, and every other cell
is 0. The NDATA of an unwritten block list whose sum is too small is the model's choice (log 5). -/
def Obligations.PlaceCompletes : Prop :=
  ∀ s : State, VersionLegal s → BlocksPass s → bitTotal s ≤ s.params.plDepth → PlacementLegal s →
    ∃ t, exec .place s = .next t ∧ Completed s t ⟨s.status.flags.eccValid, true, false, false⟩
      ∧ t.seq.esr = s.seq.esr ∧ CountsWritten s t
      ∧ t.mem = { s.mem with plane := t.mem.plane, out := t.mem.out }
      ∧ (∀ k, t.mem.out.read k = some 0#1 ∧ (t.mem.plane.read k).isSome)
      ∧ (PlWritten s → PlanePlaced (bitAt s) s t)

/-- R151, R243, R244: the faults of PLACE in their order: BAD_VERSION before the block list, the block list's own, then
PL_OVERFLOW with the counts written, then BAD_COORD at the lowest bad index with PLANE and OUT unspecified. The NDATA of an
unwritten block list whose sum is too small is the model's choice (log 5). -/
def Obligations.PlaceFaultsInOrder : Prop :=
  ∀ s : State,
    let flags : SeqFlags := ⟨s.status.flags.eccValid, false, false, false⟩
    let early := fun (code : BitVec 4) (info : Nat) => ∃ t, exec .place s = .next t
      ∧ Faulted s t code 0x20#8 3#3 (BitVec.ofNat 32 info) flags ∧ t.mem = s.mem ∧ t.res = s.res
    (¬VersionLegal s → early 2#4 s.cfg.version.toNat)
    ∧ (VersionLegal s → eccLen s = 0 ∨ eccLen s > s.params.eccMax → early 3#4 (eccLen s))
    ∧ (VersionLegal s → 1 ≤ eccLen s → eccLen s ≤ s.params.eccMax →
        s.cfg.nblocks.toNat = 0 ∨ s.cfg.nblocks.toNat > s.params.blkDepth → early 4#4 s.cfg.nblocks.toNat)
    ∧ (VersionLegal s → LengthsLegal s → ∀ b < s.cfg.nblocks.toNat, (blkAt s s.draws b).toNat < eccLen s →
        (∀ b' < b, eccLen s ≤ (blkAt s s.draws b').toNat) → early 5#4 b)
    ∧ (VersionLegal s → LengthsLegal s → (∀ k ∈ sizes s, eccLen s ≤ k) → total s > s.params.cwDepth →
        early 6#4 (total s))
    ∧ (VersionLegal s → BlocksPass s → bitTotal s > s.params.plDepth →
        ∃ t, exec .place s = .next t ∧ Faulted s t 7#4 0x20#8 3#3 (BitVec.ofNat 32 (bitTotal s)) flags
          ∧ t.mem = s.mem ∧ CountsWritten s t)
    ∧ (VersionLegal s → BlocksPass s → bitTotal s ≤ s.params.plDepth →
        ∀ i < bitTotal s, ¬Inside s (plAt s s.draws i) → (∀ i' < i, Inside s (plAt s s.draws i')) →
        ∃ t, exec .place s = .next t ∧ Faulted s t 8#4 0x20#8 3#3 (BitVec.ofNat 32 i) flags ∧ CountsWritten s t
          ∧ t.mem = { s.mem with plane := t.mem.plane, out := t.mem.out }
          ∧ ∀ k, t.mem.plane.read k = none ∧ t.mem.out.read k = none)

/-! ### SCORE -/

/-- R170, R172, R179, R180: SCORE with PLACED = 1 and a legal version completes: the six registers of every candidate hold
its scores, SEL_MASK the first index that reaches the least total, SCORED is set and FINAL is 0, and no memory changes. That
a register holds the low 32 bits of a score under an N3_RULE or N4_RULE other than the default is the model's choice
(log 11). -/
def Obligations.ScoreCompletes : Prop :=
  ∀ s : State, s.status.flags.placed = true → VersionLegal s →
    ∃ t, exec .score s = .next t ∧ Completed s t ⟨s.status.flags.eccValid, true, true, false⟩
      ∧ t.mem = s.mem ∧ t.seq.esr = s.seq.esr
      ∧ t.res = { s.res with pen := t.res.pen, selMask := t.res.selMask }
      ∧ Scored s.params (side s) (candidateAt s) t.res

/-- R115, R172, R243: the faults of SCORE: SEQUENCE with the opcode as info where PLACED = 0, before BAD_VERSION; memories
and results stay as they were. -/
def Obligations.ScoreFaultsInOrder : Prop :=
  ∀ s : State,
    (s.status.flags.placed = false → ∃ t, exec .score s = .next t
      ∧ Faulted s t 10#4 0x30#8 4#3 0x30#32 ⟨s.status.flags.eccValid, false, false, false⟩
      ∧ t.mem = s.mem ∧ t.res = s.res)
    ∧ (s.status.flags.placed = true → ¬VersionLegal s → ∃ t, exec .score s = .next t
      ∧ Faulted s t 2#4 0x30#8 4#3 (BitVec.ofNat 32 s.cfg.version.toNat) ⟨s.status.flags.eccValid, true, false, false⟩
      ∧ t.mem = s.mem ∧ t.res = s.res)

/-- R173: the run list of a line: the runs put side by side are the line, every length is at least 1, and neighbouring
runs differ in colour. -/
def Obligations.RunListDecomposesLine : Prop :=
  ∀ line : List Bool,
    ((runs line).flatMap (fun r => List.replicate r.2 r.1)) = line
    ∧ (∀ r ∈ runs line, 1 ≤ r.2)
    ∧ (runs line).IsChain (fun a b => a.1 ≠ b.1)

/-- R174: N1 of a matrix is the sum, over its rows and columns, of l − 2 over the runs of length l ≥ 5. -/
def Obligations.N1SumsLongRuns : Prop :=
  ∀ (S : Nat) (c : Nat → Nat → Bool),
    n1Score S (gridOf S c) =
      ∑ y ∈ Finset.range S, (((runs ((List.range S).map (fun x => c x y))).filter (fun r => 5 ≤ r.2)).map
          (fun r => r.2 - 2)).sum
      + ∑ x ∈ Finset.range S, (((runs ((List.range S).map (fun y => c x y))).filter (fun r => 5 ≤ r.2)).map
          (fun r => r.2 - 2)).sum

/-- R175: N2 is three times the number of uniform 2×2 windows. -/
def Obligations.N2CountsWindows : Prop :=
  ∀ (S : Nat) (c : Nat → Nat → Bool),
    n2Score (gridOf S c) =
      3 * ((Finset.range (S - 1) ×ˢ Finset.range (S - 1)).filter (fun p : Nat × Nat =>
        c p.1 p.2 = c (p.1 + 1) p.2 ∧ c p.1 p.2 = c p.1 (p.2 + 1) ∧ c p.1 p.2 = c (p.1 + 1) (p.2 + 1))).card

/-- R176: the occurrences in a run list are the indices r with the five runs around r in the ratio 1:1:3:1:1 and the
middle one dark, and N3 is 40 for each occurrence in each row and each column. -/
def Obligations.N3CountsOccurrences : Prop :=
  (∀ rs : List (Bool × Nat), ∀ occ : Finset Nat, (∀ r, r ∈ occ ↔ OccursAt rs r) → patternCount rs = occ.card)
  ∧ ∀ (S : Nat) (c : Nat → Nat → Bool),
      n3Score .ratioRuns S (gridOf S c) =
        40 * (∑ y ∈ Finset.range S, patternCount (runs ((List.range S).map (fun x => c x y)))
          + ∑ x ∈ Finset.range S, patternCount (runs ((List.range S).map (fun y => c x y))))

/-- R177: N4 counts whole 5 % bands: `k` bands exactly when |20·D − 10·T| lies in [k·T, (k+1)·T); the ends D = 0 and
D = T give ten bands. -/
def Obligations.N4CountsBands : Prop :=
  ∀ (p : Params) (D T : Nat), p.n4Rule = .exactBands → 0 < T → D ≤ T →
    (∀ k : Nat, (k * T : Int) ≤ |20 * (D : Int) - 10 * T| → |20 * (D : Int) - 10 * T| < (k + 1) * T →
      n4Score p D T = p.n4Weight * k)
    ∧ (D = 0 ∨ D = T → n4Score p D T = 10 * p.n4Weight)

/-- R181 item 2: exchanging the coordinates of a candidate changes none of its scores, under any N3 rule and N4 rule. -/
def Obligations.ScoresTransposeInvariant : Prop :=
  ∀ (p : Params) (S : Nat) (c : Nat → Nat → Bool), scoreGrid p S (gridOf S (flipped c)) = scoreGrid p S (gridOf S c)

/-- R182, R178: the bounds of every score for every side up to 177, with the ratio rule and the exact bands; the total is
the sum, below 2²⁵ for every legal weight and at most 565618 for weight 10. -/
def Obligations.PenaltyBounds : Prop :=
  ∀ (p : Params) (S : Nat) (c : Nat → Nat → Bool), 1 ≤ S → S ≤ 177 → p.n3Rule = .ratioRuns → p.n4Rule = .exactBands →
    let r := scoreGrid p S (gridOf S c)
    r.n1 ≤ 2 * S * (S - 2) ∧ r.n2 ≤ 3 * (S - 1) ^ 2 ∧ r.n3 ≤ 40 * (2 * S * ((S - 1) / 6)) ∧ r.n4 ≤ 10 * p.n4Weight
    ∧ r.dark ≤ S ^ 2 ∧ r.n1 ≤ 61950 ∧ r.n2 ≤ 92928 ∧ r.n3 ≤ 410640 ∧ r.dark ≤ 31329
    ∧ (p.n4Weight ≤ 2 ^ 20 → r.total.toNat = r.n1 + r.n2 + r.n3 + r.n4 ∧ r.total.toNat < 2 ^ 25)
    ∧ (p.n4Weight = 10 → r.total.toNat ≤ 565618)

/-! ### FINALIZE -/

/-- R200, R202, R205: FINALIZE with SCORED = 1, a legal version, a specified SEL_MASK and legal format coordinates
completes: FINAL is set, FMT_INDEX and FMT_BITS hold the index and the string, no cell of OUT is unspecified, and no other
memory or result changes. On written coordinates OUT is the merged plane of the chosen mask with the format bits over it. -/
def Obligations.FinalizeCompletes : Prop :=
  ∀ (s : State) (mask : BitVec 3), s.status.flags.scored = true → VersionLegal s → s.res.selMask = .known mask →
    FormatLegal s →
    ∃ t, exec .finalize s = .next t ∧ Completed s t { s.status.flags with final := true }
      ∧ t.seq.esr = s.seq.esr
      ∧ t.res = { s.res with
          fmtIndex := .known (BitVec.ofNat 5 (formatIdx s mask)), fmtBits := .known (formatBits s mask) }
      ∧ t.mem = { s.mem with out := t.mem.out } ∧ (∀ k, (t.mem.out.read k).isSome)
      ∧ (FmtWritten s → OutFinal (moduleAt s s.draws mask.toNat) (formatBits s mask) s t)

/-- R115, R201, R243: the faults of FINALIZE: SEQUENCE, then BAD_VERSION, then BAD_FMT_COORD at the first bad coordinate,
the primary region first; memories and results stay as they were. -/
def Obligations.FinalizeFaultsInOrder : Prop :=
  ∀ s : State,
    let left := fun (code : BitVec 4) (info : Nat) => ∃ t, exec .finalize s = .next t
      ∧ Faulted s t code 0x40#8 5#3 (BitVec.ofNat 32 info) { s.status.flags with final := false }
      ∧ t.mem = s.mem ∧ t.res = s.res
    (s.status.flags.scored = false → left 10#4 0x40)
    ∧ (s.status.flags.scored = true → ¬VersionLegal s → left 2#4 s.cfg.version.toNat)
    ∧ (s.status.flags.scored = true → VersionLegal s → ∀ k < 15, ¬Inside s (fmtC1At s s.draws k) →
        (∀ k' < k, Inside s (fmtC1At s s.draws k')) → left 9#4 k)
    ∧ (s.status.flags.scored = true → VersionLegal s → (∀ k < 15, Inside s (fmtC1At s s.draws k)) →
        ∀ k < 15, ¬Inside s (fmtC2At s s.draws k) → (∀ k' < k, Inside s (fmtC2At s s.draws k')) → left 9#4 (16 + k))

/-! ### ENCODE_ALL -/

/-- R121: ENCODE_ALL at its first step, on a written block list, placement table and format coordinates that pass every
check, runs its four bodies and completes: all four flags are set, the counts and the ECC codewords are as RS_ENCODE gives
them, every result is specified and no other memory than CW, PLANE and OUT changes. On the rest of R281's load PLANE is as
PLACE leaves it for the codewords CW holds, PEN and SEL_MASK as SCORE leaves them for that PLANE (the low 32 bits of a score
under another N3_RULE or N4_RULE, the model's choice, log 11), and FMT_BITS and OUT as FINALIZE leaves them for that
SEL_MASK. -/
def Obligations.EncodeAllCompletes : Prop :=
  ∀ s : State, s.status.phase = .rs → VersionLegal s → BlocksPass s → bitTotal s ≤ s.params.plDepth →
    PlacementLegal s → FormatLegal s → BlkWritten s → PlWritten s → FmtWritten s →
    ∃ (t : State) (mask : BitVec 3), exec .encodeAll s = .next t ∧ Completed s t ⟨true, true, true, true⟩
      ∧ t.res.ntotal = .known (BitVec.ofNat 16 (total s)) ∧ t.res.ndata = .known (BitVec.ofNat 16 (data s))
      ∧ t.mem = { s.mem with cw := t.mem.cw, plane := t.mem.plane, out := t.mem.out } ∧ CwEncoded s t
      ∧ (∀ k, (t.mem.plane.read k).isSome ∧ (t.mem.out.read k).isSome)
      ∧ t.res.selMask = .known mask ∧ t.res.fmtIndex = .known (BitVec.ofNat 5 (formatIdx s mask))
      ∧ (RsTablesWritten s → FrameWritten s → (s.mem.fmtTable.read (formatIdx s mask)).isSome →
          PlanePlaced (bitOfCw s t) s t
          ∧ Scored s.params (side s) (fun m => gridOf (side s) (moduleOf t m)) t.res
          ∧ t.res.fmtBits = .known (formatBits s mask)
          ∧ OutFinal (moduleOf t mask.toNat) (formatBits s mask) s t)

/-- R122: ENCODE_ALL succeeds exactly where RS_ENCODE, PLACE, SCORE and FINALIZE, issued one after another with no host
write between them, all succeed, and then it leaves the same state. For entries that nothing has written this equality is
the model's choice: both runs make the same draws, since no host read between the four commands uses one (log 4, 16). That
success coincides both ways is an inference from R121 and R122. -/
def Obligations.EncodeAllIsTheFourCommands : Prop :=
  ∀ s t : State, s.status.fault = false → exec .encodeAll (accept (encode .encodeAll) s) = .next t →
    let s1 := issue .rsEncode s
    let s2 := issue .place s1
    let s3 := issue .score s2
    let s4 := issue .finalize s3
    (t.status.fault = false ↔
      s1.status.fault = false ∧ s2.status.fault = false ∧ s3.status.fault = false ∧ s4.status.fault = false)
    ∧ (t.status.fault = false → t = s4)

/-- R110, R116, R121, R283, R284: running a command one body turn at a time ends as running it in one go, from wherever its
step stands, and a fault in any body ends it there. Between a step's success flag and what follows it the command is still
in flight, in the step's own phase with its own flag 1 (log 25). The phases IDLE and CTRL of an ENCODE_ALL rest on log 23. -/
def Obligations.CommandsBodyByBody : Prop :=
  ∀ (s : State) (w : Word), s.seq.inflight = some w →
    runTurn s = bodyAgain (bodyAgain (bodyAgain (bodyAgain (bodyAgain (bodyAgain (bodyAgain (bodyTurn s)))))))
    ∧ ∀ t, s.seq.ended = false → bodyTurn s = .next t → t.busy = true →
        t.status.done = s.status.done ∧ (phaseAllowed w s.status.phase = true → t.status.phase = s.status.phase)
        ∧ (t.status.phase = .rs → t.status.flags.eccValid = true)
        ∧ (t.status.phase = .place → t.status.flags.placed = true)
        ∧ (t.status.phase = .score → t.status.flags.scored = true)
        ∧ (t.status.phase = .final → t.status.flags.final = true)

/-- R121: a fault of ENCODE_ALL carries ERRCMD 0x50 and the phase of the body that raised it, and its SEQUENCE checks
always pass once it has started at its first step; SCORE's body raises none there, PLACE having checked VERSION. -/
def Obligations.EncodeAllFaultRecord : Prop :=
  ∀ s t : State, s.status.phase = .rs → s.status.fault = false → exec .encodeAll s = .next t → t.status.fault = true →
    t.err.cmd = 0x50#8 ∧ t.err.phase ∈ [2#3, 3#3, 5#3] ∧ t.err.code ≠ 10#4
    ∧ (t.err.phase = 2#3 → t.status.flags = ⟨false, false, false, false⟩)
    ∧ (t.err.phase = 3#3 → t.status.flags = ⟨true, false, false, false⟩)
    ∧ (t.err.phase = 5#3 → t.status.flags = ⟨true, true, true, false⟩)

/-! ### Dependence on operands alone -/

/-- R94, R117: what RS_ENCODE, PLACE, SCORE and FINALIZE write, and whether and how they fault, depends only on the entries
of their operand rows that they read (R45 to R49, R139 items 4 and 8): two states that agree on these, on the parameters and
on the draws of unspecified entries (log 4, 16) give the same, whatever else differs. The flag of a command is 1 after it
exactly where it succeeded, and ERR and ERRINFO are its own where it faulted (R114, R242). -/
def Obligations.CommandsReadOnlyTheirOperands : Prop :=
  ∀ s s' t t' : State, s.params = s'.params → s.draws = s'.draws →
    (RsOperandsAgree s s' → exec .rsEncode s = .next t → exec .rsEncode s' = .next t' →
      t.status.flags.eccValid = t'.status.flags.eccValid
      ∧ (t.status.flags.eccValid = true → CountsAgree t t'
          ∧ ∀ k, data s ≤ k → k < total s → t.mem.cw.read k = t'.mem.cw.read k)
      ∧ (t.status.flags.eccValid = false → t.err = t'.err))
    ∧ (PlaceOperandsAgree s s' → exec .place s = .next t → exec .place s' = .next t' →
      t.status.flags.placed = t'.status.flags.placed
      ∧ (t.status.flags.placed = true → CountsAgree t t' ∧ t.mem.plane = t'.mem.plane ∧ t.mem.out = t'.mem.out)
      ∧ (t.status.flags.placed = false → t.err = t'.err ∧ (t.err.code ∈ [7#4, 8#4] → CountsAgree t t')))
    ∧ (ScoreOperandsAgree s s' → exec .score s = .next t → exec .score s' = .next t' →
      t.status.flags.scored = t'.status.flags.scored
      ∧ (t.status.flags.scored = true → t.res.pen = t'.res.pen ∧ t.res.selMask = t'.res.selMask)
      ∧ (t.status.flags.scored = false → t.err = t'.err))
    ∧ (FinalizeOperandsAgree s s' → exec .finalize s = .next t → exec .finalize s' = .next t' →
      t.status.flags.final = t'.status.flags.final
      ∧ (t.status.flags.final = true →
          t.res.fmtIndex = t'.res.fmtIndex ∧ t.res.fmtBits = t'.res.fmtBits ∧ t.mem.out = t'.mem.out)
      ∧ (t.status.flags.final = false → t.err = t'.err))

/-! ### The host pipeline -/

/-- R222, R231: selection gives the least version that fits, and none only where none of the forty fits. -/
def Obligations.SelectedVersionIsMinimal : Prop :=
  ∀ (tp : TableProvider) (hp : HostParams) (code : BitVec 2) (len : Nat),
    (∀ v, selectVersion tp hp code len = some v ↔
      (1 ≤ v ∧ v ≤ 40 ∧ 12 + 8 * len + hp.countExt v ≤ tp.capacity v code
        ∧ ∀ u, 1 ≤ u → u < v → tp.capacity u code < 12 + 8 * len + hp.countExt u))
    ∧ (selectVersion tp hp code len = none ↔
      ∀ u, 1 ≤ u → u ≤ 40 → tp.capacity u code < 12 + 8 * len + hp.countExt u)

/-- R226: packing loses nothing: walking the codewords that packing produces, pads included, with the fields' widths gives
the fields' values back, whatever the pad bytes and the number of codewords. -/
def Obligations.PackingRoundTrip : Prop :=
  ∀ (hp : HostParams) (fields : List (Nat × Nat)) (n : Nat), (∀ f ∈ fields, f.1 < 2 ^ f.2) →
    walkFields (fields.map (·.2)) (bitsOfBytes (packFields hp fields n)) = fields.map (·.1)

/-- R223, R224, R225: with consistent tables the packed stream of a selected version has exactly NDATA codewords, NDATA being
the sum of the block sizes less NBLOCKS·ECCLEN. -/
def Obligations.PackedStreamFillsData : Prop :=
  ∀ (tp : TableProvider) (hp : HostParams) (code : BitVec 2) (bytes : List Byte) (v : Nat),
    tablesConsistent tp = true → selectVersion tp hp code bytes.length = some v →
    ((packFields hp (bitFields tp hp code v bytes) (dataCodewords tp v code).toNat).length : Int)
      = (tp.blocks v code).sum - (tp.blocks v code).length * tp.eccLength v code
end

