-- ==== Sys2Proof/Laws/State.lean ====
section
/-! SUPPORT. One lemma per field of State for each named operation, so that no proof unfolds a record update. -/

namespace Sys2Proof.Machine

/-! ### startStep -/

@[simp] theorem startStep_params (p : Phase) (s : State) : (startStep p s).params = s.params := rfl
@[simp] theorem startStep_ctrl (p : Phase) (s : State) : (startStep p s).ctrl = s.ctrl := rfl
@[simp] theorem startStep_status (p : Phase) (s : State) :
    (startStep p s).status = { s.status with phase := p, flags := startFlags p s.status.flags } := rfl
@[simp] theorem startStep_err (p : Phase) (s : State) : (startStep p s).err = s.err := rfl
@[simp] theorem startStep_cfg (p : Phase) (s : State) : (startStep p s).cfg = s.cfg := rfl
@[simp] theorem startStep_res (p : Phase) (s : State) : (startStep p s).res = s.res := rfl
@[simp] theorem startStep_seq (p : Phase) (s : State) :
    (startStep p s).seq = { s.seq with loops := 0, ended := false } := rfl
@[simp] theorem startStep_mem (p : Phase) (s : State) : (startStep p s).mem = s.mem := rfl
@[simp] theorem startStep_host (p : Phase) (s : State) : (startStep p s).host = s.host := rfl
@[simp] theorem startStep_turns (p : Phase) (s : State) : (startStep p s).turns = s.turns := rfl
@[simp] theorem startStep_resp (p : Phase) (s : State) : (startStep p s).resp = s.resp := rfl
@[simp] theorem startStep_draws (p : Phase) (s : State) : (startStep p s).draws = s.draws := rfl

/-! ### succeedStep -/

@[simp] theorem succeedStep_params (p : Phase) (s : State) : (succeedStep p s).params = s.params := rfl
@[simp] theorem succeedStep_ctrl (p : Phase) (s : State) : (succeedStep p s).ctrl = s.ctrl := rfl
@[simp] theorem succeedStep_status (p : Phase) (s : State) :
    (succeedStep p s).status = { s.status with flags := successFlags p s.status.flags } := rfl
@[simp] theorem succeedStep_err (p : Phase) (s : State) : (succeedStep p s).err = s.err := rfl
@[simp] theorem succeedStep_cfg (p : Phase) (s : State) : (succeedStep p s).cfg = s.cfg := rfl
@[simp] theorem succeedStep_res (p : Phase) (s : State) : (succeedStep p s).res = s.res := rfl
@[simp] theorem succeedStep_seq (p : Phase) (s : State) : (succeedStep p s).seq = s.seq := rfl
@[simp] theorem succeedStep_mem (p : Phase) (s : State) : (succeedStep p s).mem = s.mem := rfl
@[simp] theorem succeedStep_host (p : Phase) (s : State) : (succeedStep p s).host = s.host := rfl
@[simp] theorem succeedStep_turns (p : Phase) (s : State) : (succeedStep p s).turns = s.turns := rfl
@[simp] theorem succeedStep_resp (p : Phase) (s : State) : (succeedStep p s).resp = s.resp := rfl
@[simp] theorem succeedStep_draws (p : Phase) (s : State) : (succeedStep p s).draws = s.draws := rfl

/-! ### complete -/

@[simp] theorem complete_params (s : State) : (complete s).params = s.params := rfl
@[simp] theorem complete_ctrl (s : State) : (complete s).ctrl = s.ctrl := rfl
@[simp] theorem complete_status (s : State) :
    (complete s).status = { s.status with phase := .idle, done := true } := rfl
@[simp] theorem complete_err (s : State) : (complete s).err = s.err := rfl
@[simp] theorem complete_cfg (s : State) : (complete s).cfg = s.cfg := rfl
@[simp] theorem complete_res (s : State) : (complete s).res = s.res := rfl
@[simp] theorem complete_seq (s : State) :
    (complete s).seq = { s.seq with inflight := none, loops := 0, ended := false } := rfl
@[simp] theorem complete_mem (s : State) : (complete s).mem = s.mem := rfl
@[simp] theorem complete_host (s : State) : (complete s).host = s.host := rfl
@[simp] theorem complete_turns (s : State) : (complete s).turns = s.turns := rfl
@[simp] theorem complete_resp (s : State) : (complete s).resp = s.resp := rfl
@[simp] theorem complete_draws (s : State) : (complete s).draws = s.draws := rfl

/-! ### endStep -/

@[simp] theorem endStep_params (s : State) : (endStep s).params = s.params := rfl
@[simp] theorem endStep_ctrl (s : State) : (endStep s).ctrl = s.ctrl := rfl
@[simp] theorem endStep_status (s : State) : (endStep s).status = s.status := rfl
@[simp] theorem endStep_err (s : State) : (endStep s).err = s.err := rfl
@[simp] theorem endStep_cfg (s : State) : (endStep s).cfg = s.cfg := rfl
@[simp] theorem endStep_res (s : State) : (endStep s).res = s.res := rfl
@[simp] theorem endStep_seq (s : State) :
    (endStep s).seq = { s.seq with ended := true } := rfl
@[simp] theorem endStep_mem (s : State) : (endStep s).mem = s.mem := rfl
@[simp] theorem endStep_host (s : State) : (endStep s).host = s.host := rfl
@[simp] theorem endStep_turns (s : State) : (endStep s).turns = s.turns := rfl
@[simp] theorem endStep_resp (s : State) : (endStep s).resp = s.resp := rfl
@[simp] theorem endStep_draws (s : State) : (endStep s).draws = s.draws := rfl

/-! ### takeFault -/

@[simp] theorem takeFault_params (c : FaultCode) (i w : Word) (s : State) : (takeFault c i w s).params = s.params := rfl
@[simp] theorem takeFault_ctrl (c : FaultCode) (i w : Word) (s : State) : (takeFault c i w s).ctrl = s.ctrl := rfl
@[simp] theorem takeFault_status (c : FaultCode) (i w : Word) (s : State) :
    (takeFault c i w s).status = { s.status with phase := .idle, done := true, fault := true } := rfl
@[simp] theorem takeFault_err (c : FaultCode) (i w : Word) (s : State) :
    (takeFault c i w s).err = { code := c.value, cmd := opcodeField w, phase := s.status.phase.code, info := i } := rfl
@[simp] theorem takeFault_cfg (c : FaultCode) (i w : Word) (s : State) : (takeFault c i w s).cfg = s.cfg := rfl
@[simp] theorem takeFault_res (c : FaultCode) (i w : Word) (s : State) : (takeFault c i w s).res = s.res := rfl
@[simp] theorem takeFault_seq (c : FaultCode) (i w : Word) (s : State) :
    (takeFault c i w s).seq = { s.seq with inflight := none, loops := 0, ended := false } := rfl
@[simp] theorem takeFault_mem (c : FaultCode) (i w : Word) (s : State) : (takeFault c i w s).mem = s.mem := rfl
@[simp] theorem takeFault_host (c : FaultCode) (i w : Word) (s : State) : (takeFault c i w s).host = s.host := rfl
@[simp] theorem takeFault_turns (c : FaultCode) (i w : Word) (s : State) : (takeFault c i w s).turns = s.turns := rfl
@[simp] theorem takeFault_resp (c : FaultCode) (i w : Word) (s : State) : (takeFault c i w s).resp = s.resp := rfl
@[simp] theorem takeFault_draws (c : FaultCode) (i w : Word) (s : State) : (takeFault c i w s).draws = s.draws := rfl

/-! ### ackFault -/

@[simp] theorem ackFault_params (s : State) : (ackFault s).params = s.params := rfl
@[simp] theorem ackFault_ctrl (s : State) : (ackFault s).ctrl = s.ctrl := rfl
@[simp] theorem ackFault_status (s : State) :
    (ackFault s).status = { s.status with fault := false } := rfl
@[simp] theorem ackFault_err (s : State) :
    (ackFault s).err = ErrRegs.zero := rfl
@[simp] theorem ackFault_cfg (s : State) : (ackFault s).cfg = s.cfg := rfl
@[simp] theorem ackFault_res (s : State) : (ackFault s).res = s.res := rfl
@[simp] theorem ackFault_seq (s : State) : (ackFault s).seq = s.seq := rfl
@[simp] theorem ackFault_mem (s : State) : (ackFault s).mem = s.mem := rfl
@[simp] theorem ackFault_host (s : State) : (ackFault s).host = s.host := rfl
@[simp] theorem ackFault_turns (s : State) : (ackFault s).turns = s.turns := rfl
@[simp] theorem ackFault_resp (s : State) : (ackFault s).resp = s.resp := rfl
@[simp] theorem ackFault_draws (s : State) : (ackFault s).draws = s.draws := rfl

/-! ### busError -/

@[simp] theorem busError_params (s : State) : (busError s).params = s.params := rfl
@[simp] theorem busError_ctrl (s : State) : (busError s).ctrl = s.ctrl := rfl
@[simp] theorem busError_status (s : State) :
    (busError s).status = { s.status with buserr := true } := rfl
@[simp] theorem busError_err (s : State) : (busError s).err = s.err := rfl
@[simp] theorem busError_cfg (s : State) : (busError s).cfg = s.cfg := rfl
@[simp] theorem busError_res (s : State) : (busError s).res = s.res := rfl
@[simp] theorem busError_seq (s : State) : (busError s).seq = s.seq := rfl
@[simp] theorem busError_mem (s : State) : (busError s).mem = s.mem := rfl
@[simp] theorem busError_host (s : State) : (busError s).host = s.host := rfl
@[simp] theorem busError_turns (s : State) : (busError s).turns = s.turns := rfl
@[simp] theorem busError_resp (s : State) :
    (busError s).resp = some { data := 0#32, err := true } := rfl
@[simp] theorem busError_draws (s : State) : (busError s).draws = s.draws := rfl

/-! ### respond -/

@[simp] theorem respond_params (d : Word) (s : State) : (respond d s).params = s.params := rfl
@[simp] theorem respond_ctrl (d : Word) (s : State) : (respond d s).ctrl = s.ctrl := rfl
@[simp] theorem respond_status (d : Word) (s : State) : (respond d s).status = s.status := rfl
@[simp] theorem respond_err (d : Word) (s : State) : (respond d s).err = s.err := rfl
@[simp] theorem respond_cfg (d : Word) (s : State) : (respond d s).cfg = s.cfg := rfl
@[simp] theorem respond_res (d : Word) (s : State) : (respond d s).res = s.res := rfl
@[simp] theorem respond_seq (d : Word) (s : State) : (respond d s).seq = s.seq := rfl
@[simp] theorem respond_mem (d : Word) (s : State) : (respond d s).mem = s.mem := rfl
@[simp] theorem respond_host (d : Word) (s : State) : (respond d s).host = s.host := rfl
@[simp] theorem respond_turns (d : Word) (s : State) : (respond d s).turns = s.turns := rfl
@[simp] theorem respond_resp (d : Word) (s : State) :
    (respond d s).resp = some { data := d, err := false } := rfl
@[simp] theorem respond_draws (d : Word) (s : State) : (respond d s).draws = s.draws := rfl

/-! ### advanceDraws -/

@[simp] theorem advanceDraws_params (n : Nat) (s : State) : (advanceDraws n s).params = s.params := rfl
@[simp] theorem advanceDraws_ctrl (n : Nat) (s : State) : (advanceDraws n s).ctrl = s.ctrl := rfl
@[simp] theorem advanceDraws_status (n : Nat) (s : State) : (advanceDraws n s).status = s.status := rfl
@[simp] theorem advanceDraws_err (n : Nat) (s : State) : (advanceDraws n s).err = s.err := rfl
@[simp] theorem advanceDraws_cfg (n : Nat) (s : State) : (advanceDraws n s).cfg = s.cfg := rfl
@[simp] theorem advanceDraws_res (n : Nat) (s : State) : (advanceDraws n s).res = s.res := rfl
@[simp] theorem advanceDraws_seq (n : Nat) (s : State) : (advanceDraws n s).seq = s.seq := rfl
@[simp] theorem advanceDraws_mem (n : Nat) (s : State) : (advanceDraws n s).mem = s.mem := rfl
@[simp] theorem advanceDraws_host (n : Nat) (s : State) : (advanceDraws n s).host = s.host := rfl
@[simp] theorem advanceDraws_turns (n : Nat) (s : State) : (advanceDraws n s).turns = s.turns := rfl
@[simp] theorem advanceDraws_resp (n : Nat) (s : State) : (advanceDraws n s).resp = s.resp := rfl
@[simp] theorem advanceDraws_draws (n : Nat) (s : State) :
    (advanceDraws n s).draws = s.draws + n := rfl

/-! ### writeCounts -/

@[simp] theorem writeCounts_params (n : Nat) (s : State) : (writeCounts n s).params = s.params := rfl
@[simp] theorem writeCounts_ctrl (n : Nat) (s : State) : (writeCounts n s).ctrl = s.ctrl := rfl
@[simp] theorem writeCounts_status (n : Nat) (s : State) : (writeCounts n s).status = s.status := rfl
@[simp] theorem writeCounts_err (n : Nat) (s : State) : (writeCounts n s).err = s.err := rfl
@[simp] theorem writeCounts_cfg (n : Nat) (s : State) : (writeCounts n s).cfg = s.cfg := rfl
@[simp] theorem writeCounts_res (n : Nat) (s : State) :
    (writeCounts n s).res = { s.res with ntotal := .known (BitVec.ofNat 16 n), ndata := .known (ndataValue s n) } := rfl
@[simp] theorem writeCounts_seq (n : Nat) (s : State) : (writeCounts n s).seq = s.seq := rfl
@[simp] theorem writeCounts_mem (n : Nat) (s : State) : (writeCounts n s).mem = s.mem := rfl
@[simp] theorem writeCounts_host (n : Nat) (s : State) : (writeCounts n s).host = s.host := rfl
@[simp] theorem writeCounts_turns (n : Nat) (s : State) : (writeCounts n s).turns = s.turns := rfl
@[simp] theorem writeCounts_resp (n : Nat) (s : State) : (writeCounts n s).resp = s.resp := rfl
@[simp] theorem writeCounts_draws (n : Nat) (s : State) : (writeCounts n s).draws = s.draws := rfl

/-! ### accept -/

@[simp] theorem accept_params (w : Word) (s : State) : (accept w s).params = s.params := rfl
@[simp] theorem accept_ctrl (w : Word) (s : State) : (accept w s).ctrl = s.ctrl := rfl
@[simp] theorem accept_status (w : Word) (s : State) :
    (accept w s).status = { s.status with done := false, flags := acceptFlags w s.status.flags, phase := firstPhase w } := rfl
@[simp] theorem accept_err (w : Word) (s : State) : (accept w s).err = s.err := rfl
@[simp] theorem accept_cfg (w : Word) (s : State) : (accept w s).cfg = s.cfg := rfl
@[simp] theorem accept_res (w : Word) (s : State) : (accept w s).res = s.res := rfl
@[simp] theorem accept_seq (w : Word) (s : State) :
    (accept w s).seq = { s.seq with inflight := some w, abortReq := false, loops := 0, ended := false } := rfl
@[simp] theorem accept_mem (w : Word) (s : State) : (accept w s).mem = s.mem := rfl
@[simp] theorem accept_host (w : Word) (s : State) : (accept w s).host = s.host := rfl
@[simp] theorem accept_turns (w : Word) (s : State) : (accept w s).turns = s.turns := rfl
@[simp] theorem accept_resp (w : Word) (s : State) : (accept w s).resp = s.resp := rfl
@[simp] theorem accept_draws (w : Word) (s : State) : (accept w s).draws = s.draws := rfl

/-! ### writeEcc -/

@[simp] theorem writeEcc_params (n : Nat) (s : State) : (writeEcc n s).params = s.params := rfl
@[simp] theorem writeEcc_ctrl (n : Nat) (s : State) : (writeEcc n s).ctrl = s.ctrl := rfl
@[simp] theorem writeEcc_status (n : Nat) (s : State) : (writeEcc n s).status = s.status := rfl
@[simp] theorem writeEcc_err (n : Nat) (s : State) : (writeEcc n s).err = s.err := rfl
@[simp] theorem writeEcc_cfg (n : Nat) (s : State) : (writeEcc n s).cfg = s.cfg := rfl
@[simp] theorem writeEcc_res (n : Nat) (s : State) : (writeEcc n s).res = s.res := rfl
@[simp] theorem writeEcc_seq (n : Nat) (s : State) :
    (writeEcc n s).seq = { s.seq with esr := freeEsr s s.draws } := rfl
@[simp] theorem writeEcc_mem (n : Nat) (s : State) :
    (writeEcc n s).mem = { s.mem with cw := encodedCw n s } := rfl
@[simp] theorem writeEcc_host (n : Nat) (s : State) : (writeEcc n s).host = s.host := rfl
@[simp] theorem writeEcc_turns (n : Nat) (s : State) : (writeEcc n s).turns = s.turns := rfl
@[simp] theorem writeEcc_resp (n : Nat) (s : State) : (writeEcc n s).resp = s.resp := rfl
@[simp] theorem writeEcc_draws (n : Nat) (s : State) : (writeEcc n s).draws = s.draws := rfl

/-! ### writePlanes -/

@[simp] theorem writePlanes_params (n : Nat) (s : State) : (writePlanes n s).params = s.params := rfl
@[simp] theorem writePlanes_ctrl (n : Nat) (s : State) : (writePlanes n s).ctrl = s.ctrl := rfl
@[simp] theorem writePlanes_status (n : Nat) (s : State) : (writePlanes n s).status = s.status := rfl
@[simp] theorem writePlanes_err (n : Nat) (s : State) : (writePlanes n s).err = s.err := rfl
@[simp] theorem writePlanes_cfg (n : Nat) (s : State) : (writePlanes n s).cfg = s.cfg := rfl
@[simp] theorem writePlanes_res (n : Nat) (s : State) : (writePlanes n s).res = s.res := rfl
@[simp] theorem writePlanes_seq (n : Nat) (s : State) : (writePlanes n s).seq = s.seq := rfl
@[simp] theorem writePlanes_mem (n : Nat) (s : State) :
    (writePlanes n s).mem = { s.mem with
      plane := placeBits (dataBit s s.draws n) (Matrix.zero 8) 0 (plTargets s (s.draws + 1) (bitCount s n))
      out := Matrix.zero 1 } := rfl
@[simp] theorem writePlanes_host (n : Nat) (s : State) : (writePlanes n s).host = s.host := rfl
@[simp] theorem writePlanes_turns (n : Nat) (s : State) : (writePlanes n s).turns = s.turns := rfl
@[simp] theorem writePlanes_resp (n : Nat) (s : State) : (writePlanes n s).resp = s.resp := rfl
@[simp] theorem writePlanes_draws (n : Nat) (s : State) : (writePlanes n s).draws = s.draws := rfl

/-! ### forgetPlanes -/

@[simp] theorem forgetPlanes_params (s : State) : (forgetPlanes s).params = s.params := rfl
@[simp] theorem forgetPlanes_ctrl (s : State) : (forgetPlanes s).ctrl = s.ctrl := rfl
@[simp] theorem forgetPlanes_status (s : State) : (forgetPlanes s).status = s.status := rfl
@[simp] theorem forgetPlanes_err (s : State) : (forgetPlanes s).err = s.err := rfl
@[simp] theorem forgetPlanes_cfg (s : State) : (forgetPlanes s).cfg = s.cfg := rfl
@[simp] theorem forgetPlanes_res (s : State) : (forgetPlanes s).res = s.res := rfl
@[simp] theorem forgetPlanes_seq (s : State) : (forgetPlanes s).seq = s.seq := rfl
@[simp] theorem forgetPlanes_mem (s : State) :
    (forgetPlanes s).mem = { s.mem with plane := Matrix.unspecified 8, out := Matrix.unspecified 1 } := rfl
@[simp] theorem forgetPlanes_host (s : State) : (forgetPlanes s).host = s.host := rfl
@[simp] theorem forgetPlanes_turns (s : State) : (forgetPlanes s).turns = s.turns := rfl
@[simp] theorem forgetPlanes_resp (s : State) : (forgetPlanes s).resp = s.resp := rfl
@[simp] theorem forgetPlanes_draws (s : State) : (forgetPlanes s).draws = s.draws := rfl

/-! ### writeScores -/

@[simp] theorem writeScores_params (z : Vector PenScore 8) (s : State) : (writeScores z s).params = s.params := rfl
@[simp] theorem writeScores_ctrl (z : Vector PenScore 8) (s : State) : (writeScores z s).ctrl = s.ctrl := rfl
@[simp] theorem writeScores_status (z : Vector PenScore 8) (s : State) : (writeScores z s).status = s.status := rfl
@[simp] theorem writeScores_err (z : Vector PenScore 8) (s : State) : (writeScores z s).err = s.err := rfl
@[simp] theorem writeScores_cfg (z : Vector PenScore 8) (s : State) : (writeScores z s).cfg = s.cfg := rfl
@[simp] theorem writeScores_res (z : Vector PenScore 8) (s : State) :
    (writeScores z s).res = { s.res with
      pen := z.map PenScore.regs, selMask := .known (BitVec.ofNat 3 (selectMask (z.toList.map PenScore.total))) } := rfl
@[simp] theorem writeScores_seq (z : Vector PenScore 8) (s : State) : (writeScores z s).seq = s.seq := rfl
@[simp] theorem writeScores_mem (z : Vector PenScore 8) (s : State) : (writeScores z s).mem = s.mem := rfl
@[simp] theorem writeScores_host (z : Vector PenScore 8) (s : State) : (writeScores z s).host = s.host := rfl
@[simp] theorem writeScores_turns (z : Vector PenScore 8) (s : State) : (writeScores z s).turns = s.turns := rfl
@[simp] theorem writeScores_resp (z : Vector PenScore 8) (s : State) : (writeScores z s).resp = s.resp := rfl
@[simp] theorem writeScores_draws (z : Vector PenScore 8) (s : State) : (writeScores z s).draws = s.draws := rfl

/-! ### writeFormat -/

@[simp] theorem writeFormat_params (s : State) : (writeFormat s).params = s.params := rfl
@[simp] theorem writeFormat_ctrl (s : State) : (writeFormat s).ctrl = s.ctrl := rfl
@[simp] theorem writeFormat_status (s : State) : (writeFormat s).status = s.status := rfl
@[simp] theorem writeFormat_err (s : State) : (writeFormat s).err = s.err := rfl
@[simp] theorem writeFormat_cfg (s : State) : (writeFormat s).cfg = s.cfg := rfl
@[simp] theorem writeFormat_seq (s : State) : (writeFormat s).seq = s.seq := rfl
@[simp] theorem writeFormat_host (s : State) : (writeFormat s).host = s.host := rfl
@[simp] theorem writeFormat_turns (s : State) : (writeFormat s).turns = s.turns := rfl
@[simp] theorem writeFormat_resp (s : State) : (writeFormat s).resp = s.resp := rfl
@[simp] theorem writeFormat_draws (s : State) : (writeFormat s).draws = s.draws := rfl

/-! ### forgetScores -/

@[simp] theorem forgetScores_params (s : State) : (forgetScores s).params = s.params := rfl
@[simp] theorem forgetScores_ctrl (s : State) : (forgetScores s).ctrl = s.ctrl := rfl
@[simp] theorem forgetScores_status (s : State) : (forgetScores s).status = s.status := rfl
@[simp] theorem forgetScores_err (s : State) : (forgetScores s).err = s.err := rfl
@[simp] theorem forgetScores_cfg (s : State) : (forgetScores s).cfg = s.cfg := rfl
@[simp] theorem forgetScores_res (s : State) :
    (forgetScores s).res = { s.res with pen := Vector.replicate 8 Pen.unspecified, selMask := .unspecified } := rfl
@[simp] theorem forgetScores_seq (s : State) : (forgetScores s).seq = s.seq := rfl
@[simp] theorem forgetScores_mem (s : State) : (forgetScores s).mem = s.mem := rfl
@[simp] theorem forgetScores_host (s : State) : (forgetScores s).host = s.host := rfl
@[simp] theorem forgetScores_turns (s : State) : (forgetScores s).turns = s.turns := rfl
@[simp] theorem forgetScores_resp (s : State) : (forgetScores s).resp = s.resp := rfl
@[simp] theorem forgetScores_draws (s : State) : (forgetScores s).draws = s.draws := rfl

/-! ### forgetFormat -/

@[simp] theorem forgetFormat_params (s : State) : (forgetFormat s).params = s.params := rfl
@[simp] theorem forgetFormat_ctrl (s : State) : (forgetFormat s).ctrl = s.ctrl := rfl
@[simp] theorem forgetFormat_status (s : State) : (forgetFormat s).status = s.status := rfl
@[simp] theorem forgetFormat_err (s : State) : (forgetFormat s).err = s.err := rfl
@[simp] theorem forgetFormat_cfg (s : State) : (forgetFormat s).cfg = s.cfg := rfl
@[simp] theorem forgetFormat_res (s : State) :
    (forgetFormat s).res = { s.res with fmtIndex := .unspecified, fmtBits := .unspecified } := rfl
@[simp] theorem forgetFormat_seq (s : State) : (forgetFormat s).seq = s.seq := rfl
@[simp] theorem forgetFormat_mem (s : State) :
    (forgetFormat s).mem = { s.mem with out := Matrix.unspecified 1 } := rfl
@[simp] theorem forgetFormat_host (s : State) : (forgetFormat s).host = s.host := rfl
@[simp] theorem forgetFormat_turns (s : State) : (forgetFormat s).turns = s.turns := rfl
@[simp] theorem forgetFormat_resp (s : State) : (forgetFormat s).resp = s.resp := rfl
@[simp] theorem forgetFormat_draws (s : State) : (forgetFormat s).draws = s.draws := rfl

/-! ### dropStepFlags -/

@[simp] theorem dropStepFlags_params (s : State) : (dropStepFlags s).params = s.params := rfl
@[simp] theorem dropStepFlags_ctrl (s : State) : (dropStepFlags s).ctrl = s.ctrl := rfl
@[simp] theorem dropStepFlags_status (s : State) :
    (dropStepFlags s).status = { s.status with flags := startFlags s.status.phase s.status.flags } := rfl
@[simp] theorem dropStepFlags_err (s : State) : (dropStepFlags s).err = s.err := rfl
@[simp] theorem dropStepFlags_cfg (s : State) : (dropStepFlags s).cfg = s.cfg := rfl
@[simp] theorem dropStepFlags_res (s : State) : (dropStepFlags s).res = s.res := rfl
@[simp] theorem dropStepFlags_seq (s : State) : (dropStepFlags s).seq = s.seq := rfl
@[simp] theorem dropStepFlags_mem (s : State) : (dropStepFlags s).mem = s.mem := rfl
@[simp] theorem dropStepFlags_host (s : State) : (dropStepFlags s).host = s.host := rfl
@[simp] theorem dropStepFlags_turns (s : State) : (dropStepFlags s).turns = s.turns := rfl
@[simp] theorem dropStepFlags_resp (s : State) : (dropStepFlags s).resp = s.resp := rfl
@[simp] theorem dropStepFlags_draws (s : State) : (dropStepFlags s).draws = s.draws := rfl

/-! ### abortedClear -/

@[simp] theorem abortedClear_params (s : State) : (abortedClear s).params = s.params := rfl
@[simp] theorem abortedClear_ctrl (s : State) : (abortedClear s).ctrl = s.ctrl := rfl
@[simp] theorem abortedClear_status (s : State) : (abortedClear s).status = s.status := rfl
@[simp] theorem abortedClear_err (s : State) : (abortedClear s).err = s.err := rfl
@[simp] theorem abortedClear_cfg (s : State) : (abortedClear s).cfg = s.cfg := rfl
@[simp] theorem abortedClear_seq (s : State) : (abortedClear s).seq = s.seq := rfl
@[simp] theorem abortedClear_mem (s : State) : (abortedClear s).mem = s.mem := rfl
@[simp] theorem abortedClear_host (s : State) : (abortedClear s).host = s.host := rfl
@[simp] theorem abortedClear_turns (s : State) : (abortedClear s).turns = s.turns := rfl
@[simp] theorem abortedClear_resp (s : State) : (abortedClear s).resp = s.resp := rfl
@[simp] theorem abortedClear_draws (s : State) : (abortedClear s).draws = s.draws := rfl

/-! ### writeCtrl -/

@[simp] theorem writeCtrl_params (v : Word) (s : State) : (writeCtrl v s).params = s.params := rfl
@[simp] theorem writeCtrl_ctrl (v : Word) (s : State) :
    (writeCtrl v s).ctrl = { ieDone := v.getLsbD 0, ieFault := v.getLsbD 1, ieBuserr := v.getLsbD 2 } := rfl
@[simp] theorem writeCtrl_status (v : Word) (s : State) : (writeCtrl v s).status = s.status := rfl
@[simp] theorem writeCtrl_err (v : Word) (s : State) : (writeCtrl v s).err = s.err := rfl
@[simp] theorem writeCtrl_cfg (v : Word) (s : State) : (writeCtrl v s).cfg = s.cfg := rfl
@[simp] theorem writeCtrl_res (v : Word) (s : State) : (writeCtrl v s).res = s.res := rfl
@[simp] theorem writeCtrl_seq (v : Word) (s : State) :
    (writeCtrl v s).seq = { s.seq with abortReq := s.seq.abortReq || (v.getLsbD 8 && s.busy) } := rfl
@[simp] theorem writeCtrl_mem (v : Word) (s : State) : (writeCtrl v s).mem = s.mem := rfl
@[simp] theorem writeCtrl_host (v : Word) (s : State) : (writeCtrl v s).host = s.host := rfl
@[simp] theorem writeCtrl_turns (v : Word) (s : State) : (writeCtrl v s).turns = s.turns := rfl
@[simp] theorem writeCtrl_resp (v : Word) (s : State) : (writeCtrl v s).resp = s.resp := rfl
@[simp] theorem writeCtrl_draws (v : Word) (s : State) : (writeCtrl v s).draws = s.draws := rfl

/-! ### forgetCounts -/

@[simp] theorem forgetCounts_params (s : State) : (forgetCounts s).params = s.params := by unfold forgetCounts; split <;> rfl
@[simp] theorem forgetCounts_ctrl (s : State) : (forgetCounts s).ctrl = s.ctrl := by unfold forgetCounts; split <;> rfl
@[simp] theorem forgetCounts_status (s : State) : (forgetCounts s).status = s.status := by unfold forgetCounts; split <;> rfl
@[simp] theorem forgetCounts_err (s : State) : (forgetCounts s).err = s.err := by unfold forgetCounts; split <;> rfl
@[simp] theorem forgetCounts_cfg (s : State) : (forgetCounts s).cfg = s.cfg := by unfold forgetCounts; split <;> rfl
@[simp] theorem forgetCounts_seq (s : State) : (forgetCounts s).seq = s.seq := by unfold forgetCounts; split <;> rfl
@[simp] theorem forgetCounts_mem (s : State) : (forgetCounts s).mem = s.mem := by unfold forgetCounts; split <;> rfl
@[simp] theorem forgetCounts_host (s : State) : (forgetCounts s).host = s.host := by unfold forgetCounts; split <;> rfl
@[simp] theorem forgetCounts_turns (s : State) : (forgetCounts s).turns = s.turns := by unfold forgetCounts; split <;> rfl
@[simp] theorem forgetCounts_resp (s : State) : (forgetCounts s).resp = s.resp := by unfold forgetCounts; split <;> rfl
@[simp] theorem forgetCounts_draws (s : State) : (forgetCounts s).draws = s.draws := by unfold forgetCounts; split <;> rfl

/-! ### forgetEcc -/

@[simp] theorem forgetEcc_params (s : State) : (forgetEcc s).params = s.params := by unfold forgetEcc; dsimp only; split <;> rfl
@[simp] theorem forgetEcc_ctrl (s : State) : (forgetEcc s).ctrl = s.ctrl := by unfold forgetEcc; dsimp only; split <;> rfl
@[simp] theorem forgetEcc_status (s : State) : (forgetEcc s).status = s.status := by unfold forgetEcc; dsimp only; split <;> rfl
@[simp] theorem forgetEcc_err (s : State) : (forgetEcc s).err = s.err := by unfold forgetEcc; dsimp only; split <;> rfl
@[simp] theorem forgetEcc_cfg (s : State) : (forgetEcc s).cfg = s.cfg := by unfold forgetEcc; dsimp only; split <;> rfl
@[simp] theorem forgetEcc_res (s : State) : (forgetEcc s).res = s.res := by unfold forgetEcc; dsimp only; split <;> rfl
@[simp] theorem forgetEcc_seq (s : State) :
    (forgetEcc s).seq = { s.seq with esr := freeEsr s s.draws } := by unfold forgetEcc; dsimp only; split <;> rfl
@[simp] theorem forgetEcc_host (s : State) : (forgetEcc s).host = s.host := by unfold forgetEcc; dsimp only; split <;> rfl
@[simp] theorem forgetEcc_turns (s : State) : (forgetEcc s).turns = s.turns := by unfold forgetEcc; dsimp only; split <;> rfl
@[simp] theorem forgetEcc_resp (s : State) : (forgetEcc s).resp = s.resp := by unfold forgetEcc; dsimp only; split <;> rfl
@[simp] theorem forgetEcc_draws (s : State) : (forgetEcc s).draws = s.draws := by unfold forgetEcc; dsimp only; split <;> rfl

/-! ### abortEffects -/

@[simp] theorem abortEffects_params (w : Word) (s : State) : (abortEffects w s).params = s.params := by
  unfold abortEffects; split <;> try simp
  split <;> simp
@[simp] theorem abortEffects_ctrl (w : Word) (s : State) : (abortEffects w s).ctrl = s.ctrl := by
  unfold abortEffects; split <;> try simp
  split <;> simp
@[simp] theorem abortEffects_status (w : Word) (s : State) : (abortEffects w s).status = s.status := by
  unfold abortEffects; split <;> try simp
  split <;> simp
@[simp] theorem abortEffects_err (w : Word) (s : State) : (abortEffects w s).err = s.err := by
  unfold abortEffects; split <;> try simp
  split <;> simp
@[simp] theorem abortEffects_cfg (w : Word) (s : State) : (abortEffects w s).cfg = s.cfg := by
  unfold abortEffects; split <;> try simp
  split <;> simp
@[simp] theorem abortEffects_host (w : Word) (s : State) : (abortEffects w s).host = s.host := by
  unfold abortEffects; split <;> try simp
  split <;> simp
@[simp] theorem abortEffects_turns (w : Word) (s : State) : (abortEffects w s).turns = s.turns := by
  unfold abortEffects; split <;> try simp
  split <;> simp
@[simp] theorem abortEffects_resp (w : Word) (s : State) : (abortEffects w s).resp = s.resp := by
  unfold abortEffects; split <;> try simp
  split <;> simp
@[simp] theorem abortEffects_draws (w : Word) (s : State) : (abortEffects w s).draws = s.draws := by
  unfold abortEffects; split <;> try simp
  split <;> simp

/-! ### dropStep -/

@[simp] theorem dropStep_params (w : Word) (s : State) : (dropStep w s).params = s.params := by
  unfold dropStep; split <;> simp
@[simp] theorem dropStep_ctrl (w : Word) (s : State) : (dropStep w s).ctrl = s.ctrl := by
  unfold dropStep; split <;> simp
@[simp] theorem dropStep_status (w : Word) (s : State) :
    (dropStep w s).status = { s.status with
      flags := if bodyKept w s then s.status.flags else startFlags s.status.phase s.status.flags } := by
  unfold dropStep; split <;> simp
@[simp] theorem dropStep_err (w : Word) (s : State) : (dropStep w s).err = s.err := by
  unfold dropStep; split <;> simp
@[simp] theorem dropStep_cfg (w : Word) (s : State) : (dropStep w s).cfg = s.cfg := by
  unfold dropStep; split <;> simp
@[simp] theorem dropStep_host (w : Word) (s : State) : (dropStep w s).host = s.host := by
  unfold dropStep; split <;> simp
@[simp] theorem dropStep_turns (w : Word) (s : State) : (dropStep w s).turns = s.turns := by
  unfold dropStep; split <;> simp
@[simp] theorem dropStep_resp (w : Word) (s : State) : (dropStep w s).resp = s.resp := by
  unfold dropStep; split <;> simp

/-! ### writeStatus -/

@[simp] theorem writeStatus_params (v : Word) (s : State) : (writeStatus v s).params = s.params := by
  unfold writeStatus; dsimp only; split <;> split <;> split <;> rfl
@[simp] theorem writeStatus_ctrl (v : Word) (s : State) : (writeStatus v s).ctrl = s.ctrl := by
  unfold writeStatus; dsimp only; split <;> split <;> split <;> rfl
@[simp] theorem writeStatus_cfg (v : Word) (s : State) : (writeStatus v s).cfg = s.cfg := by
  unfold writeStatus; dsimp only; split <;> split <;> split <;> rfl
@[simp] theorem writeStatus_res (v : Word) (s : State) : (writeStatus v s).res = s.res := by
  unfold writeStatus; dsimp only; split <;> split <;> split <;> rfl
@[simp] theorem writeStatus_seq (v : Word) (s : State) : (writeStatus v s).seq = s.seq := by
  unfold writeStatus; dsimp only; split <;> split <;> split <;> rfl
@[simp] theorem writeStatus_mem (v : Word) (s : State) : (writeStatus v s).mem = s.mem := by
  unfold writeStatus; dsimp only; split <;> split <;> split <;> rfl
@[simp] theorem writeStatus_host (v : Word) (s : State) : (writeStatus v s).host = s.host := by
  unfold writeStatus; dsimp only; split <;> split <;> split <;> rfl
@[simp] theorem writeStatus_turns (v : Word) (s : State) : (writeStatus v s).turns = s.turns := by
  unfold writeStatus; dsimp only; split <;> split <;> split <;> rfl
@[simp] theorem writeStatus_resp (v : Word) (s : State) : (writeStatus v s).resp = s.resp := by
  unfold writeStatus; dsimp only; split <;> split <;> split <;> rfl
@[simp] theorem writeStatus_draws (v : Word) (s : State) : (writeStatus v s).draws = s.draws := by
  unfold writeStatus; dsimp only; split <;> split <;> split <;> rfl

/-! ### applyReset -/

@[simp] theorem applyReset_params (s : State) : (applyReset s).params = s.params := rfl
@[simp] theorem applyReset_ctrl (s : State) :
    (applyReset s).ctrl = (State.resetWith s.params).ctrl := rfl
@[simp] theorem applyReset_status (s : State) :
    (applyReset s).status = (State.resetWith s.params).status := rfl
@[simp] theorem applyReset_err (s : State) :
    (applyReset s).err = (State.resetWith s.params).err := rfl
@[simp] theorem applyReset_cfg (s : State) :
    (applyReset s).cfg = (State.resetWith s.params).cfg := rfl
@[simp] theorem applyReset_res (s : State) :
    (applyReset s).res = (State.resetWith s.params).res := rfl
@[simp] theorem applyReset_seq (s : State) :
    (applyReset s).seq = (State.resetWith s.params).seq := rfl
@[simp] theorem applyReset_mem (s : State) :
    (applyReset s).mem = (State.resetWith s.params).mem := rfl
@[simp] theorem applyReset_host (s : State) : (applyReset s).host = s.host := rfl
@[simp] theorem applyReset_turns (s : State) : (applyReset s).turns = s.turns := rfl
@[simp] theorem applyReset_resp (s : State) : (applyReset s).resp = s.resp := rfl
@[simp] theorem applyReset_draws (s : State) : (applyReset s).draws = s.draws := rfl

end Sys2Proof.Machine
end

