-- ==== Sys2Proof/Laws/Memory.lean ====
section
/-! SUPPORT. The laws of the memories: read after write, untouched entries, and that every operation keeps the canonical
form and the range of the entry numbers. -/

namespace Sys2Proof.Machine

section
variable {w : Nat}

/-! ### Reading -/

@[simp] theorem Mem.read_write_same (m : Mem w) (k : Nat) (v : BitVec w) : (m.write k v).read k = some v := by
  induction m with
  | nil => simp [Mem.write, Mem.read]
  | cons c m ih =>
    obtain ⟨a, x⟩ := c
    by_cases h1 : k < a
    · simp [Mem.write, Mem.read, h1]
    · by_cases h2 : k = a
      · simp [Mem.write, Mem.read, h2]
      · simpa [Mem.write, Mem.read, h1, h2] using ih

theorem Mem.read_write_other (m : Mem w) {k j : Nat} (v : BitVec w) (h : j ≠ k) :
    (m.write k v).read j = m.read j := by
  induction m with
  | nil => simp [Mem.write, Mem.read, h]
  | cons c m ih =>
    obtain ⟨a, x⟩ := c
    by_cases h1 : k < a
    · simp [Mem.write, Mem.read, h1, h]
    · by_cases h2 : k = a
      · subst h2; simp [Mem.write, Mem.read, h]
      · by_cases h3 : j = a
        · simp [Mem.write, Mem.read, h1, h2, h3]
        · simpa [Mem.write, Mem.read, h1, h2, h3] using ih

theorem Mem.read_write (m : Mem w) (k j : Nat) (v : BitVec w) :
    (m.write k v).read j = if j = k then some v else m.read j := by
  split
  · next h => subst h; simp
  · next h => exact Mem.read_write_other m v h

/-- Entries from `k` up hold the list, all others are untouched. -/
theorem Mem.read_writeList (m : Mem w) (k j : Nat) (vs : List (BitVec w)) :
    (m.writeList k vs).read j = if k ≤ j ∧ j < k + vs.length then vs[j - k]? else m.read j := by
  induction vs generalizing m k with
  | nil =>
    have h : ¬(k ≤ j ∧ j < k + 0) := by omega
    simp only [Mem.writeList, List.length_nil, if_neg h]
  | cons v vs ih =>
    simp only [Mem.writeList, ih, Mem.read_write, List.length_cons]
    by_cases h : j = k
    · subst h
      simp
    · by_cases h1 : k + 1 ≤ j ∧ j < k + 1 + vs.length
      · have h2 : k ≤ j ∧ j < k + (vs.length + 1) := by omega
        rw [if_pos h1, if_pos h2, show j - k = (j - (k + 1)) + 1 by omega, List.getElem?_cons_succ]
      · have h2 : ¬(k ≤ j ∧ j < k + (vs.length + 1)) := by omega
        rw [if_neg h1, if_neg h2, if_neg h]

theorem Mem.read_filter (m : Mem w) (p : Nat → Bool) (j : Nat) :
    Mem.read (m.filter (fun c => p c.1)) j = if p j then m.read j else none := by
  induction m with
  | nil => simp [Mem.read]
  | cons c m ih =>
    obtain ⟨a, x⟩ := c
    by_cases h : p a
    · by_cases hj : j = a
      · simp [Mem.read, h, hj]
      · simp [Mem.read, h, hj, ih]
    · by_cases hj : j = a
      · subst hj; simp [h, ih]
      · simp [Mem.read, h, hj, ih]

/-- Forgotten entries are unspecified, all others are untouched. -/
theorem Mem.read_forget (m : Mem w) (k n j : Nat) :
    (m.forget k n).read j = if k ≤ j ∧ j < k + n then none else m.read j := by
  rw [Mem.forget, Mem.read_filter m (fun a => !(decide (k ≤ a) && decide (a < k + n))) j]
  by_cases h : k ≤ j ∧ j < k + n
  · simp [h]
  · rw [if_neg h, if_pos]
    simp only [Bool.not_eq_true', Bool.and_eq_false_iff, decide_eq_false_iff_not]
    omega

/-! ### The canonical form -/

theorem Mem.mem_write {m : Mem w} {k : Nat} {v : BitVec w} {c : Nat × BitVec w} (h : c ∈ m.write k v) :
    c = (k, v) ∨ c ∈ m := by
  induction m with
  | nil => simpa [Mem.write] using h
  | cons d m ih =>
    obtain ⟨a, x⟩ := d
    simp only [Mem.write] at h
    split at h
    · rcases List.mem_cons.1 h with h | h
      · exact .inl h
      · exact .inr h
    · split at h
      · rcases List.mem_cons.1 h with h | h
        · exact .inl h
        · exact .inr (List.mem_cons_of_mem _ h)
      · rcases List.mem_cons.1 h with h | h
        · exact .inr (h ▸ List.mem_cons_self)
        · exact (ih h).imp id (List.mem_cons_of_mem _)

theorem Mem.wf_write {m : Mem w} (k : Nat) (v : BitVec w) (h : m.wf) : (m.write k v).wf := by
  induction m with
  | nil => simp [Mem.write]
  | cons d m ih =>
    obtain ⟨a, x⟩ := d
    obtain ⟨ha, hm⟩ := List.pairwise_cons.1 h
    simp only [Mem.write]
    split
    · next hk =>
      refine List.pairwise_cons.2 ⟨fun c hc => ?_, h⟩
      rcases List.mem_cons.1 hc with rfl | hc
      · exact hk
      · exact Nat.lt_trans hk (ha c hc)
    · split
      · next hk => subst hk; exact List.pairwise_cons.2 ⟨ha, hm⟩
      · next hk hne =>
        refine List.pairwise_cons.2 ⟨fun c hc => ?_, ih hm⟩
        rcases Mem.mem_write hc with rfl | hc
        · show a < k; omega
        · exact ha c hc

theorem Mem.wf_writeList {m : Mem w} (k : Nat) (vs : List (BitVec w)) (h : m.wf) : (m.writeList k vs).wf := by
  induction vs generalizing m k with
  | nil => exact h
  | cons v vs ih => exact ih (k + 1) (Mem.wf_write k v h)

theorem Mem.wf_forget {m : Mem w} (k n : Nat) (h : m.wf) : (m.forget k n).wf := List.Pairwise.filter _ h

theorem Mem.mem_forget {m : Mem w} {k n : Nat} {c : Nat × BitVec w} (h : c ∈ m.forget k n) : c ∈ m :=
  (List.mem_filter.1 h).1

/-- Any property of the entry numbers that the written one has is kept. -/
theorem Mem.all_write {m : Mem w} {k : Nat} {v : BitVec w} {p : Nat → Prop} (hk : p k) (h : ∀ c ∈ m, p c.1) :
    ∀ c ∈ m.write k v, p c.1 := by
  intro c hc
  rcases Mem.mem_write hc with rfl | hc
  · exact hk
  · exact h c hc

theorem Mem.below_writeList {m : Mem w} {k n : Nat} {vs : List (BitVec w)} (hk : k + vs.length ≤ n) (h : m.below n) :
    (m.writeList k vs).below n := by
  induction vs generalizing m k with
  | nil => exact h
  | cons v vs ih =>
    simp only [List.length_cons] at hk
    exact ih (by omega) (Mem.all_write (p := (· < n)) (by omega) h)

/-! ### Matrices -/

@[simp] theorem Matrix.read_zero (k : Nat) : (Matrix.zero w).read k = some 0#w := rfl

@[simp] theorem Matrix.read_unspecified (k : Nat) : (Matrix.unspecified w).read k = none := rfl

/-- A written cell holds the value, every other cell is untouched. -/
theorem Matrix.read_write (m : Matrix w) (k j : Nat) (v : BitVec w) :
    (m.write k v).read j = if j = k then some v else m.read j := by
  unfold Matrix.write
  split
  · next h =>
    simp only [Bool.and_eq_true, beq_iff_eq] at h
    simp only [Matrix.read, Mem.read_forget]
    by_cases hj : j = k
    · subst hj; simp [h.1, h.2]
    · have : ¬(k ≤ j ∧ j < k + 1) := by omega
      rw [if_neg this, if_neg hj]
  · simp only [Matrix.read, Mem.read_write]
    by_cases hj : j = k <;> simp [hj]

@[simp] theorem Matrix.write_cleared (m : Matrix w) (k : Nat) (v : BitVec w) :
    (m.write k v).cleared = m.cleared := by
  unfold Matrix.write; split <;> rfl

theorem Matrix.wf_zero : (Matrix.zero w).wf := ⟨List.Pairwise.nil, fun _ _ h => by simp [Matrix.zero] at h⟩

theorem Matrix.wf_unspecified : (Matrix.unspecified w).wf :=
  ⟨List.Pairwise.nil, fun _ _ h => by simp [Matrix.unspecified] at h⟩

theorem Matrix.wf_write {m : Matrix w} (k : Nat) (v : BitVec w) (h : m.wf) : (m.write k v).wf := by
  unfold Matrix.write
  split
  · exact ⟨Mem.wf_forget k 1 h.1, fun hc c hm => h.2 hc c (Mem.mem_forget hm)⟩
  · next hv =>
    refine ⟨Mem.wf_write k v h.1, fun hc c hm => ?_⟩
    simp only [Bool.and_eq_true, beq_iff_eq, not_and] at hv
    rcases Mem.mem_write hm with rfl | hm
    · exact hv hc
    · exact h.2 hc c hm

/-- Any property of the cell numbers that the written one has is kept. -/
theorem Matrix.all_write {m : Matrix w} {k : Nat} {v : BitVec w} {p : Nat → Prop} (hk : p k)
    (h : ∀ c ∈ m.cells, p c.1) : ∀ c ∈ (m.write k v).cells, p c.1 := by
  unfold Matrix.write
  split
  · exact fun c hc => h c (Mem.mem_forget hc)
  · exact Mem.all_write hk h

/-! ### A write that may name no cell -/

@[simp] theorem Matrix.writeAt_none (m : Matrix w) (v : BitVec w) : m.writeAt none v = m := rfl

@[simp] theorem Matrix.writeAt_some (m : Matrix w) (k : Nat) (v : BitVec w) : m.writeAt (some k) v = m.write k v := rfl

@[simp] theorem Matrix.writeAt_cleared (m : Matrix w) (k : Option Nat) (v : BitVec w) :
    (m.writeAt k v).cleared = m.cleared := by cases k <;> simp

theorem Matrix.read_writeAt (m : Matrix w) (k : Option Nat) (j : Nat) (v : BitVec w) :
    (m.writeAt k v).read j = if k = some j then some v else m.read j := by
  cases k with
  | none => simp
  | some k => simp [Matrix.read_write, eq_comm]

theorem Matrix.wf_writeAt {m : Matrix w} (k : Option Nat) (v : BitVec w) (h : m.wf) : (m.writeAt k v).wf := by
  cases k with
  | none => exact h
  | some k => exact Matrix.wf_write k v h

theorem Matrix.all_writeAt {m : Matrix w} {k : Option Nat} {v : BitVec w} {p : Nat → Prop} (hk : ∀ j ∈ k, p j)
    (h : ∀ c ∈ m.cells, p c.1) : ∀ c ∈ (m.writeAt k v).cells, p c.1 := by
  cases k with
  | none => exact h
  | some k => exact Matrix.all_write (hk k rfl) h

end

theorem Memories.wf_unspecified : Memories.wf Memories.unspecified :=
  ⟨.nil, .nil, .nil, .nil, .nil, Matrix.wf_unspecified, Matrix.wf_unspecified, .nil, .nil, .nil⟩

end Sys2Proof.Machine
end

