-- ==== Sys2Proof/Laws/Ops.lean ====
section
/-! SUPPORT. One specification lemma per shared operation: what the block-list validation, the search for a first bad
index, the bodies, the bus and a step can answer. Later proofs cite these and do not unfold the operations. -/

namespace Sys2Proof.Machine

/-! ### The search for the lowest bad index -/

theorem firstIndex_eq_none {α : Type} {p : α → Bool} {k : Nat} {l : List α} :
    firstIndex p k l = none ↔ ∀ a ∈ l, p a = false := by
  induction l generalizing k with
  | nil => simp [firstIndex]
  | cons a l ih =>
    simp only [firstIndex, List.mem_cons, forall_eq_or_imp]
    split
    · next h => simp [h]
    · next h => rw [ih]; simp [h]

/-- The index found is the lowest one, counted from `k`. -/
theorem firstIndex_eq_some {α : Type} {p : α → Bool} {k i : Nat} {l : List α} :
    firstIndex p k l = some i ↔
      k ≤ i ∧ (∃ a, l[i - k]? = some a ∧ p a = true) ∧ ∀ j, j < i - k → ∀ a, l[j]? = some a → p a = false := by
  induction l generalizing k with
  | nil => simp [firstIndex]
  | cons a l ih =>
    simp only [firstIndex]
    split
    · next h =>
      constructor
      · intro hi
        obtain rfl : k = i := by simpa using hi
        simp [h]
      · rintro ⟨hk, -, hlow⟩
        by_cases hi : k = i
        · rw [hi]
        · have := hlow 0 (by omega) a (by simp)
          simp [h] at this
    · next h =>
      rw [ih]
      constructor
      · rintro ⟨hk, ⟨b, hb, hp⟩, hlow⟩
        refine ⟨by omega, ⟨b, ?_, hp⟩, ?_⟩
        · rw [show i - k = (i - (k + 1)) + 1 by omega, List.getElem?_cons_succ]; exact hb
        · intro j hj c hc
          cases j with
          | zero => simp only [List.getElem?_cons_zero, Option.some.injEq] at hc; subst hc; simpa using h
          | succ j => exact hlow j (by omega) c (by simpa using hc)
      · rintro ⟨hk, ⟨b, hb, hp⟩, hlow⟩
        have hne : k ≠ i := by
          rintro rfl
          simp only [Nat.sub_self, List.getElem?_cons_zero, Option.some.injEq] at hb
          subst hb; exact h hp
        refine ⟨by omega, ⟨b, ?_, hp⟩, ?_⟩
        · rw [show i - k = (i - (k + 1)) + 1 by omega, List.getElem?_cons_succ] at hb; exact hb
        · intro j hj c hc
          exact hlow (j + 1) (by omega) c (by simpa using hc)

/-! ### The block-list validation -/

/-- The checks of R131, all passed, with BLK read at draws `draw` and `draw + 1`. -/
structure BlocksValid (s : State) (draw total : Nat) : Prop where
  ecclen_pos  : 1 ≤ s.cfg.ecclen.toNat
  ecclen_max  : s.cfg.ecclen.toNat ≤ s.params.eccMax
  nblocks_pos : 1 ≤ s.cfg.nblocks.toNat
  nblocks_max : s.cfg.nblocks.toNat ≤ s.params.blkDepth
  size_min    : ∀ k ∈ blockSizes s draw, s.cfg.ecclen.toNat ≤ k
  total_eq    : total = (blockSizes s (draw + 1)).sum
  total_max   : total ≤ s.params.cwDepth

theorem validateBlocks_eq_ok {s : State} {draw total : Nat} :
    validateBlocks s draw = .ok total ↔ BlocksValid s draw total := by
  unfold validateBlocks
  dsimp only
  split
  · next h => simp only [reduceCtorEq, false_iff]; rintro ⟨_, _, _, _, _, _, _⟩; omega
  · next h =>
    split
    · next h' => simp only [reduceCtorEq, false_iff]; rintro ⟨_, _, _, _, _, _, _⟩; omega
    · next h' =>
      split
      · next b hb =>
        simp only [reduceCtorEq, false_iff]
        intro hv
        obtain ⟨_, ⟨a, ha, hp⟩, _⟩ := firstIndex_eq_some.1 hb
        have := hv.size_min a (List.mem_of_getElem? ha)
        simp at hp; omega
      · next hb =>
        rw [firstIndex_eq_none] at hb
        split
        · next hs =>
          simp only [reduceCtorEq, false_iff]
          intro hv; have := hv.total_max; have := hv.total_eq; omega
        · next hs =>
          simp only [Validation.ok.injEq]
          constructor
          · rintro rfl
            exact ⟨by omega, by omega, by omega, by omega, fun k hk => by simpa using hb k hk, rfl, by omega⟩
          · intro hv; exact hv.total_eq.symm

/-- A failed validation raises one of the four faults of R131. -/
theorem validateBlocks_eq_bad {s : State} {draw : Nat} {code : FaultCode} {info : Nat}
    (h : validateBlocks s draw = .bad code info) :
    code = .badEcclen ∨ code = .badNblocks ∨ code = .badBlock ∨ code = .cwOverflow := by
  unfold validateBlocks at h
  dsimp only at h
  repeat' split at h
  all_goals cases h
  all_goals simp

@[simp] theorem blockSizes_length (s : State) (draw : Nat) : (blockSizes s draw).length = s.cfg.nblocks.toNat := by
  simp [blockSizes]

/-- The validation reads only the parameters, ECCLEN, NBLOCKS and BLK (R94). -/
theorem validateBlocks_congr {s t : State} (draw : Nat) (hp : s.params = t.params) (hc : s.cfg = t.cfg)
    (hb : s.mem.blk = t.mem.blk) : validateBlocks s draw = validateBlocks t draw := by
  simp [validateBlocks, blockSizes, blkAt, hp, hc, hb]

/-- Where BLK[0..NBLOCKS−1] is written, every read of the block list gives the same sizes (R70). -/
theorem blockSizes_written {s : State} (h : ∀ b < s.cfg.nblocks.toNat, (s.mem.blk.read b).isSome) (draw draw' : Nat) :
    blockSizes s draw = blockSizes s draw' := by
  unfold blockSizes
  refine List.map_congr_left fun b hb => ?_
  obtain ⟨v, hv⟩ := Option.isSome_iff_exists.1 (h b (List.mem_range.1 hb))
  simp [blkAt, orFree, hv]

/-- Sizes that hold their `n` ECC codewords are their data codewords and their ECC codewords. -/
theorem sum_data_add {n : Nat} {sizes : List Nat} (h : ∀ k ∈ sizes, n ≤ k) :
    (sizes.map (fun k => k - n)).sum + sizes.length * n = sizes.sum := by
  induction sizes with
  | nil => simp
  | cons k ks ih =>
    have h1 := h k (by simp)
    have h2 := ih (fun x hx => h x (by simp [hx]))
    simp only [List.map_cons, List.length_cons, List.sum_cons, Nat.add_mul, Nat.one_mul]
    omega

/-- On a written block list that passes the validation, NDATA and the ECC codewords make up NTOTAL, and the block split
reads exactly CW[0..NDATA−1] (R36, R132, R135). -/
theorem BlocksValid.split {s : State} {draw total : Nat} (hv : BlocksValid s draw total)
    (h : ∀ b < s.cfg.nblocks.toNat, (s.mem.blk.read b).isSome) (draw' : Nat) :
    eccCount s ≤ total ∧ ((blockSizes s draw').map (fun k => k - s.cfg.ecclen.toNat)).sum = dataCount s total
      ∧ splitFits s total (blockSizes s draw') = true := by
  have hsz := hv.size_min
  have htot := hv.total_eq
  rw [blockSizes_written h draw draw'] at hsz
  rw [blockSizes_written h (draw + 1) draw'] at htot
  have hadd := sum_data_add hsz
  rw [blockSizes_length, ← htot] at hadd
  have hle : eccCount s ≤ total := by unfold eccCount; omega
  have hsum : ((blockSizes s draw').map (fun k => k - s.cfg.ecclen.toNat)).sum = dataCount s total := by
    unfold dataCount eccCount; omega
  refine ⟨hle, hsum, ?_⟩
  simp only [splitFits, Bool.and_eq_true, decide_eq_true_eq, List.all_eq_true]
  exact ⟨⟨hle, hsz⟩, hsum.le⟩

/-! ### The division -/

theorem divideStep_length {row : Byte → List Byte} {esr : List Byte} {d : Byte} (hpos : 0 < esr.length)
    (hrow : ∀ f, (row f).length = esr.length) : (divideStep row esr d).length = esr.length := by
  have ht : (esr.tail ++ [0#8]).length = esr.length := by simp; omega
  unfold divideStep
  dsimp only
  split
  · exact ht
  · rw [List.length_zipWith, ht, hrow, Nat.min_self]

theorem divideBlock_length {row : Nat → Byte → List Byte} {t : Nat} {esr data : List Byte} (hpos : 0 < esr.length)
    (hrow : ∀ t f, (row t f).length = esr.length) : (divideBlock row t esr data).length = esr.length := by
  induction data generalizing t esr with
  | nil => rfl
  | cons d ds ih =>
    have h := divideStep_length (d := d) hpos (hrow t)
    rw [divideBlock, ih (by omega) (by simpa [h] using hrow), h]

@[simp] theorem gfRow_length (s : State) (draw n : Nat) (f : Byte) : (gfRow s draw n f).length = n := by simp [gfRow]

theorem eccCodewords_length (s : State) (draw off : Nat) {n : Nat} (hn : 0 < n) (sizes : List Nat) :
    (eccCodewords s draw n off sizes).length = sizes.length * n := by
  induction sizes generalizing off with
  | nil => simp [eccCodewords]
  | cons k ks ih =>
    rw [eccCodewords, List.length_append, ih, divideBlock_length (by simpa) (by simp)]
    simp [Nat.add_mul, Nat.add_comm]

theorem splitFits_le {s : State} {total : Nat} {sizes : List Nat} (h : splitFits s total sizes = true) :
    eccCount s ≤ total := by
  simp only [splitFits, Bool.and_eq_true, decide_eq_true_eq] at h
  exact h.1.1

theorem dataCount_le (s : State) (total : Nat) : dataCount s total ≤ total := Nat.sub_le _ _

/-- RS_ENCODE writes exactly CW[NDATA..NTOTAL−1] (R135). -/
theorem eccWritten_length {s : State} {total : Nat} (hn : 0 < s.cfg.ecclen.toNat) :
    (eccWritten total s).length = total - dataCount s total := by
  unfold eccWritten
  dsimp only
  split
  · next h =>
    rw [eccCodewords_length _ _ _ hn, blockSizes_length]
    have := splitFits_le h
    unfold dataCount; unfold eccCount at *; omega
  · simp [freeEcc]

/-- On a written block list that passes the validation the values written are the ECC codewords (R130, R135). -/
theorem BlocksValid.eccWritten_eq {s : State} {draw total : Nat} (hv : BlocksValid s draw total)
    (h : ∀ b < s.cfg.nblocks.toNat, (s.mem.blk.read b).isSome) :
    eccWritten total s = eccCodewords s (s.draws + 2) s.cfg.ecclen.toNat 0 (blockSizes s (s.draws + 2)) := by
  simp [eccWritten, (hv.split h _).2.2]

/-! ### Bodies -/

@[simp] theorem andThen_done (s : State) (f : State → Body) : (Body.done s).andThen f = f s := rfl

@[simp] theorem andThen_raise (c : FaultCode) (i : Word) (s : State) (f : State → Body) :
    (Body.raise c i s).andThen f = .raise c i s := rfl

@[simp] theorem finish_done (w : Word) (s : State) : (Body.done s).finish w = complete s := rfl

@[simp] theorem finish_raise (w : Word) (c : FaultCode) (i : Word) (s : State) :
    (Body.raise c i s).finish w = takeFault c i w s := rfl

@[simp] theorem pause_done (w : Word) (s : State) : (Body.done s).pause w = endStep s := rfl

@[simp] theorem pause_raise (w : Word) (c : FaultCode) (i : Word) (s : State) :
    (Body.raise c i s).pause w = takeFault c i w s := rfl

theorem andThen_eq_done {b : Body} {f : State → Body} {t : State} (h : b.andThen f = .done t) :
    ∃ s, b = .done s ∧ f s = .done t := by
  cases b with
  | done s => exact ⟨s, rfl, h⟩
  | raise c i s => cases h

theorem andThen_eq_raise {b : Body} {f : State → Body} {c : FaultCode} {i : Word} {t : State}
    (h : b.andThen f = .raise c i t) : b = .raise c i t ∨ ∃ s, b = .done s ∧ f s = .raise c i t := by
  cases b with
  | done s => exact .inr ⟨s, rfl, h⟩
  | raise c' i' s => exact .inl h

/-- Starting a step twice is starting it once. -/
@[simp] theorem startStep_startStep (p : Phase) (s : State) : startStep p (startStep p s) = startStep p s := by
  cases p <;> rfl

/-- Everything the body of RS_ENCODE can do (R130, R131). -/
theorem rsBody_cases (s : State) :
    (∃ code info, validateBlocks s s.draws = .bad code info
      ∧ rsBody s = .raise code (BitVec.ofNat 32 info) (advanceDraws 2 (startStep .rs s)))
    ∨ (∃ total, validateBlocks s s.draws = .ok total
      ∧ rsBody s = .done (succeedStep .rs (advanceDraws (dataCount s total + 3)
          (writeCounts total (writeEcc total (startStep .rs s)))))) := by
  have hv : validateBlocks (startStep .rs s) s.draws = validateBlocks s s.draws := rfl
  have hd : ∀ n, dataCount (startStep .rs s) n = dataCount s n := fun _ => rfl
  unfold rsBody
  simp only [startStep_draws, hv, hd]
  cases h : validateBlocks s s.draws with
  | ok total => exact .inr ⟨total, rfl, rfl⟩
  | bad code info => exact .inl ⟨code, info, rfl, rfl⟩

/-- Everything the body of PLACE can do (R151, R153). -/
theorem placeBody_cases (s : State) :
    (versionOk s = false
      ∧ placeBody s = .raise .badVersion (s.cfg.version.setWidth 32) (startStep .place s))
    ∨ (versionOk s = true ∧ ∃ code info, validateBlocks s s.draws = .bad code info
      ∧ placeBody s = .raise code (BitVec.ofNat 32 info) (advanceDraws 8 (startStep .place s)))
    ∨ (versionOk s = true ∧ ∃ total, validateBlocks s s.draws = .ok total
      ∧ ((bitCount s total > s.params.plDepth
          ∧ placeBody s = .raise .plOverflow (BitVec.ofNat 32 (bitCount s total))
              (advanceDraws 8 (writeCounts total (startStep .place s))))
        ∨ (bitCount s total ≤ s.params.plDepth
          ∧ ∃ i, firstIndex (fun e => !coordOk (sideOf s.cfg.version) e) 0
              (plEntries s s.draws (bitCount s total)) = some i
            ∧ placeBody s = .raise .badCoord (BitVec.ofNat 32 i)
                (advanceDraws 8 (writeCounts total (forgetPlanes (startStep .place s)))))
        ∨ (bitCount s total ≤ s.params.plDepth
          ∧ firstIndex (fun e => !coordOk (sideOf s.cfg.version) e) 0 (plEntries s s.draws (bitCount s total)) = none
          ∧ placeBody s = .done (succeedStep .place (advanceDraws 8 (writeCounts total
              (writePlanes total (startStep .place s)))))))) := by
  have hv : validateBlocks (startStep .place s) s.draws = validateBlocks s s.draws := rfl
  have hver : versionOk (startStep .place s) = versionOk s := rfl
  have hb : ∀ z, bitCount (startStep .place s) z = bitCount s z := fun _ => rfl
  have he : ∀ n, plEntries (startStep .place s) s.draws n = plEntries s s.draws n := fun _ => rfl
  unfold placeBody
  simp only [startStep_draws, startStep_cfg, startStep_params, hv, hver, hb, he]
  cases hk : versionOk s with
  | false => exact .inl ⟨rfl, rfl⟩
  | true =>
    refine .inr ?_
    cases h : validateBlocks s s.draws with
    | bad code info => exact .inl ⟨rfl, code, info, rfl, rfl⟩
    | ok total =>
      refine .inr ⟨rfl, total, rfl, ?_⟩
      simp only [Bool.not_true, Bool.false_eq_true, if_false]
      by_cases hc : bitCount s total > s.params.plDepth
      · exact .inl ⟨hc, by rw [if_pos hc]⟩
      · rw [if_neg hc]
        cases hf : firstIndex (fun e => !coordOk (sideOf s.cfg.version) e) 0 (plEntries s s.draws (bitCount s total)) with
        | some i => exact .inr (.inl ⟨by omega, i, rfl, rfl⟩)
        | none => exact .inr (.inr ⟨by omega, rfl, rfl⟩)

/-- Everything the body of SCORE can do (R115, R172). -/
theorem scoreBody_cases (s : State) :
    (s.status.flags.placed = false ∧ scoreBody s = .raise .sequence (encode .score) (startStep .score s))
    ∨ (s.status.flags.placed = true ∧ versionOk s = false
      ∧ scoreBody s = .raise .badVersion (s.cfg.version.setWidth 32) (startStep .score s))
    ∨ (s.status.flags.placed = true ∧ versionOk s = true
      ∧ scoreBody s = .done (succeedStep .score (advanceDraws 8
          (writeScores (candidateScores s) (startStep .score s))))) := by
  have hver : versionOk (startStep .score s) = versionOk s := rfl
  have hc : candidateScores (startStep .score s) = candidateScores s := rfl
  have hp : (startStep .score s).status.flags.placed = s.status.flags.placed := rfl
  unfold scoreBody
  simp only [hver, hc, hp, startStep_cfg]
  cases s.status.flags.placed with
  | false => exact .inl ⟨rfl, rfl⟩
  | true =>
    cases versionOk s with
    | false => exact .inr (.inl ⟨rfl, rfl, rfl⟩)
    | true => exact .inr (.inr ⟨rfl, rfl, rfl⟩)

/-- Everything the body of FINALIZE can do (R115, R201, R202). -/
theorem finalizeBody_cases (s : State) :
    (s.status.flags.scored = false ∧ finalizeBody s = .raise .sequence (encode .finalize) (startStep .final s))
    ∨ (s.status.flags.scored = true ∧ versionOk s = false
      ∧ finalizeBody s = .raise .badVersion (s.cfg.version.setWidth 32) (startStep .final s))
    ∨ (s.status.flags.scored = true ∧ versionOk s = true
      ∧ ((∃ k, badFormatCoord (sideOf s.cfg.version) (formatCoords1 s s.draws) (formatCoords2 s s.draws) = some k
          ∧ finalizeBody s = .raise .badFmtCoord (BitVec.ofNat 32 k) (advanceDraws 3 (startStep .final s)))
        ∨ (badFormatCoord (sideOf s.cfg.version) (formatCoords1 s s.draws) (formatCoords2 s s.draws) = none
          ∧ finalizeBody s = .done (succeedStep .final (advanceDraws 3 (writeFormat (startStep .final s))))))) := by
  have hver : versionOk (startStep .final s) = versionOk s := rfl
  have h1 : formatCoords1 (startStep .final s) s.draws = formatCoords1 s s.draws := rfl
  have h2 : formatCoords2 (startStep .final s) s.draws = formatCoords2 s s.draws := rfl
  have hp : (startStep .final s).status.flags.scored = s.status.flags.scored := rfl
  unfold finalizeBody
  simp only [hver, h1, h2, hp, startStep_cfg, startStep_draws]
  cases s.status.flags.scored with
  | false => exact .inl ⟨rfl, rfl⟩
  | true =>
    cases versionOk s with
    | false => exact .inr (.inl ⟨rfl, rfl, rfl⟩)
    | true =>
      refine .inr (.inr ⟨rfl, rfl, ?_⟩)
      simp only [Bool.not_true, Bool.false_eq_true, if_false]
      cases h : badFormatCoord (sideOf s.cfg.version) (formatCoords1 s s.draws) (formatCoords2 s s.draws) with
      | some k => exact .inl ⟨k, rfl, rfl⟩
      | none => exact .inr ⟨rfl, rfl⟩

/-- No fault of the format coordinates: all thirty are legal (R201). -/
theorem badFormatCoord_eq_none {side : Nat} {c1 c2 : List (BitVec 16)} :
    badFormatCoord side c1 c2 = none ↔ (∀ e ∈ c1, coordOk side e = true) ∧ ∀ e ∈ c2, coordOk side e = true := by
  unfold badFormatCoord
  split
  · next k h =>
    simp only [reduceCtorEq, false_iff, not_and]
    intro hall
    obtain ⟨_, ⟨a, ha, hp⟩, _⟩ := firstIndex_eq_some.1 h
    simp [hall a (List.mem_of_getElem? ha)] at hp
  · next h =>
    rw [firstIndex_eq_none] at h ⊢
    simp only [Bool.not_eq_false'] at h ⊢
    exact ⟨fun h' => ⟨h, h'⟩, fun h' => h'.2⟩

/-! ### The bus -/

/-- A bus access either is a bus error, or a read that answers the location's word, or a write of the location. -/
theorem busAccess_cases (a : BusAccess) (s : State) :
    busAccess a s = busError s
    ∨ (∃ off, a = .read off ∧ readAllowed s off = true
        ∧ busAccess a s = respond (readLoc s s.draws (locate s.params off.toNat)) (advanceDraws 1 s))
    ∨ (∃ off v strobes, a = .write off v strobes ∧ writeAllowed s off strobes = true
        ∧ busAccess a s = respond 0#32 (writeLoc v s (locate s.params off.toNat))) := by
  cases a with
  | read off =>
    by_cases h : readAllowed s off = true
    · exact .inr (.inl ⟨off, rfl, h, by simp [busAccess, h]⟩)
    · exact .inl (by simp [busAccess, h])
  | write off v strobes =>
    by_cases h : writeAllowed s off strobes = true
    · exact .inr (.inr ⟨off, v, strobes, rfl, h, by simp [busAccess, h]⟩)
    · exact .inl (by simp [busAccess, h])

/-! ### Steps -/

/-- Every command answers a next state. -/
theorem exec_next (i : Instr) (s : State) : ∃ t, exec i s = .next t := by cases i <;> exact ⟨_, rfl⟩

end Sys2Proof.Machine
end

