-- ==== Sys2Proof/Laws/Bus.lean ====
section
/-! SUPPORT. What the address map gives at the offsets of each window, and which access reaches CMD. -/

namespace Sys2Proof.Machine

/-! ### The offset of an entry names the entry (R22, R60) -/

theorem locate_blk {p : Params} {b : Nat} (h : b < p.blkDepth) (hp : p.blkDepth ≤ 255) :
    locate p (blkOffset b) = .blk b := by
  have hk : (blkOffset b - 0x400) / 4 = b := by unfold blkOffset; omega
  have hlo : 0x400 ≤ blkOffset b ∧ blkOffset b < 0x10000 := by unfold blkOffset; omega
  simp only [locate, hk, h]
  split_ifs <;> first | rfl | omega

theorem locate_cw {p : Params} {i : Nat} (h : i < p.cwDepth) (hp : p.cwDepth ≤ 16384) :
    locate p (cwOffset i) = .cw i := by
  have hk : (cwOffset i - 0x10000) / 4 = i := by unfold cwOffset; omega
  have hlo : 0x10000 ≤ cwOffset i ∧ cwOffset i < 0x20000 := by unfold cwOffset; omega
  simp only [locate, hk, h]
  split_ifs <;> first | rfl | omega

theorem locate_gf {p : Params} {e : Nat} (h : e < 256 * p.eccMax) (hp : p.eccMax ≤ 128) :
    locate p (gfOffset e) = .gf e := by
  have hk : (gfOffset e - 0x20000) / 4 = e := by unfold gfOffset; omega
  have hlo : 0x20000 ≤ gfOffset e ∧ gfOffset e < 0x40000 := by unfold gfOffset; omega
  simp only [locate, hk, h]
  split_ifs <;> first | rfl | omega

theorem locate_pl {p : Params} {i : Nat} (h : i < p.plDepth) (hp : p.plDepth ≤ 65536) :
    locate p (plOffset i) = .pl i := by
  have hk : (plOffset i - 0x40000) / 4 = i := by unfold plOffset; omega
  have hlo : 0x40000 ≤ plOffset i ∧ plOffset i < 0x80000 := by unfold plOffset; omega
  simp only [locate, hk, h]
  split_ifs <;> first | rfl | omega

theorem locateCell_cellIndex {mk : Nat → Nat → Loc} {x y : Nat} (hx : x < 177) (hy : y < 177) :
    locateCell mk (cellIndex x y) = mk x y := by
  have h1 : cellIndex x y % 256 = x := by unfold cellIndex; omega
  have h2 : cellIndex x y / 256 = y := by unfold cellIndex; omega
  simp [locateCell, Config.maxSide, h1, h2, hx, hy]

theorem locate_frame {p : Params} {x y : Nat} (hx : x < 177) (hy : y < 177) :
    locate p (frameOffset (cellIndex x y)) = .frame x y := by
  have hk : (frameOffset (cellIndex x y) - 0x80000) / 4 = cellIndex x y := by unfold frameOffset; omega
  have hlo : 0x80000 ≤ frameOffset (cellIndex x y) ∧ frameOffset (cellIndex x y) < 0xC0000 := by
    unfold frameOffset cellIndex; omega
  simp only [locate, hk, locateCell_cellIndex hx hy]
  split_ifs <;> first | rfl | omega

theorem locate_mat {p : Params} {x y : Nat} (hx : x < 177) (hy : y < 177) :
    locate p (matOffset (cellIndex x y)) = .mat x y := by
  have hk : (matOffset (cellIndex x y) - 0xC0000) / 4 = cellIndex x y := by unfold matOffset; omega
  have hlo : 0xC0000 ≤ matOffset (cellIndex x y) := by unfold matOffset; omega
  simp only [locate, hk, locateCell_cellIndex hx hy]
  split_ifs <;> first | rfl | omega

/-! ### CMD -/

/-- The offset of an aligned access, as a number, is a multiple of 4 (R64). -/
theorem aligned_iff {off : Offset} : Offset.aligned off = true ↔ off.toNat % 4 = 0 := by
  simp only [Offset.aligned, beq_iff_eq, ← BitVec.toNat_inj, BitVec.extractLsb'_toNat]
  simp

/-- Only offset 0x010 is CMD (R22): the register block names CMD at word 4 alone, and no other window names it. -/
theorem locate_eq_cmd {p : Params} {off : Nat} (h : locate p off = .cmd) : off / 4 = 4 := by
  have hreg : locateRegister off = .cmd → off / 4 = 4 := by
    unfold locateRegister; split <;> simp_all
  have hpen : locatePen off ≠ .cmd := by unfold locatePen; dsimp only; split <;> simp
  have hfmt : locateFormat off ≠ .cmd := by unfold locateFormat; split_ifs <;> simp
  have hframe : ∀ k, locateCell .frame k ≠ .cmd := fun k => by unfold locateCell; split_ifs <;> simp
  have hmat : ∀ k, locateCell .mat k ≠ .cmd := fun k => by unfold locateCell; split_ifs <;> simp
  unfold locate at h
  split_ifs at h <;> first | exact hreg h | simp_all

/-- A write that takes effect and reaches CMD is to offset 0x010, with no command in flight and no fault (R111). -/
theorem writeAllowed_cmd {s : State} {off : Offset} {strobes : BitVec 4} (hw : writeAllowed s off strobes = true)
    (h : locate s.params off.toNat = .cmd) : off = 0x00010#20 ∧ s.busy = false ∧ s.status.fault = false := by
  have hoff : off = 0x00010#20 := by
    have h4 := locate_eq_cmd h
    simp only [writeAllowed, Bool.and_eq_true] at hw
    have ha := aligned_iff.1 hw.1.1.1
    apply BitVec.eq_of_toNat_eq
    show off.toNat = 16
    omega
  subst hoff
  have hw' : (strobes = 15#4 ∧ s.busy = false) ∧ s.status.fault = false := by
    simpa [writeAllowed, Offset.aligned] using hw
  exact ⟨rfl, hw'.1.2, hw'.2⟩

end Sys2Proof.Machine
end

