-- ==== Sys2Proof/Laws/Invariant.lean ====
section
/-! SUPPORT. The part of the invariant that every operation keeps, one lemma per operation: the bodies, the end of a
command, an abort, a bus access. -/

namespace Sys2Proof.Machine

/-- The clauses of `Inv` that do not speak of the command in flight. -/
structure Good (s : State) : Prop where
  params_legal    : s.params.legal = true
  memories_wf     : Memories.wf s.mem
  memories_mapped : Memories.Mapped s.params s.mem
  fault_recorded  : s.status.fault = true → 1 ≤ s.err.code.toNat ∧ s.err.code.toNat ≤ 11
  no_fault_no_err : s.status.fault = false → s.err = ErrRegs.zero
  flags_ordered   : (s.status.flags.scored = true → s.status.flags.placed = true)
    ∧ (s.status.flags.final = true → s.status.flags.scored = true)
  placed_plane    : s.status.flags.placed = true → s.mem.plane.cleared = true
  scored_known    : s.status.flags.scored = true →
    s.res.selMask.isKnown = true ∧ ∀ m : Fin 8, s.res.pen[m].isKnown = true
  final_known     : s.status.flags.final = true →
    s.mem.out.cleared = true ∧ s.res.fmtIndex.isKnown = true ∧ s.res.fmtBits.isKnown = true
  esr_length      : s.seq.esr.length = s.params.eccMax

theorem Inv.good {s : State} (h : Inv s) : Good s :=
  ⟨h.params_legal, h.memories_wf, h.memories_mapped, h.fault_recorded, h.no_fault_no_err, h.flags_ordered,
    h.placed_plane, h.scored_known, h.final_known, h.esr_length⟩

/-- With no command in flight the remaining clauses are about PHASE, the loop counters and the ended mark alone. -/
theorem Good.inv_idle {s : State} (h : Good s) (hn : s.seq.inflight = none) (hl : s.seq.loops = 0)
    (hd : s.seq.ended = false) (hp : s.status.phase = .idle) : Inv s :=
  { params_legal := h.params_legal, memories_wf := h.memories_wf, memories_mapped := h.memories_mapped,
    fault_recorded := h.fault_recorded, no_fault_no_err := h.no_fault_no_err, flags_ordered := h.flags_ordered,
    placed_plane := h.placed_plane, scored_known := h.scored_known, final_known := h.final_known,
    esr_length := h.esr_length, idle_loops := fun _ => hl, idle_ended := fun _ => hd, idle_phase := fun _ => hp,
    busy_phase := by simp [hn], busy_clean := by simp [hn], step_flags := fun _ => by rw [hp]; rfl,
    ended_flags := by simp [hd], ended_counts := by simp [hd] }

/-- A state with the same parameters, STATUS, ERR, results, memories and ESR is as good. -/
theorem Good.congr {s t : State} (h : Good s) (hp : t.params = s.params) (hs : t.status.flags = s.status.flags)
    (hf : t.status.fault = s.status.fault) (he : t.err = s.err) (hr : t.res = s.res) (hm : t.mem = s.mem)
    (hq : t.seq.esr = s.seq.esr) : Good t :=
  { params_legal := by rw [hp]; exact h.params_legal
    memories_wf := by rw [hm]; exact h.memories_wf
    memories_mapped := by rw [hp, hm]; exact h.memories_mapped
    fault_recorded := by rw [hf, he]; exact h.fault_recorded
    no_fault_no_err := by rw [hf, he]; exact h.no_fault_no_err
    flags_ordered := by rw [hs]; exact h.flags_ordered
    placed_plane := by rw [hs, hm]; exact h.placed_plane
    scored_known := by rw [hs, hr]; exact h.scored_known
    final_known := by rw [hs, hr, hm]; exact h.final_known
    esr_length := by rw [hq, hp]; exact h.esr_length }

/-! ### Flags and control -/

/-- Clearing flags from some point of their order on keeps every clause. -/
theorem Good.afterStartStep {s : State} (h : Good s) (p : Phase) : Good (startStep p s) := by
  obtain ⟨h1, h2⟩ := h.flags_ordered
  have hp := h.placed_plane
  have hs := h.scored_known
  have hf := h.final_known
  refine { params_legal := h.params_legal, memories_wf := h.memories_wf, memories_mapped := h.memories_mapped,
           fault_recorded := h.fault_recorded, no_fault_no_err := h.no_fault_no_err, esr_length := h.esr_length,
           flags_ordered := ?_, placed_plane := ?_, scored_known := ?_, final_known := ?_ } <;>
    cases p <;> simp_all [startFlags]

theorem Good.afterAdvanceDraws {s : State} (h : Good s) (n : Nat) : Good (advanceDraws n s) :=
  h.congr rfl rfl rfl rfl rfl rfl rfl

theorem Good.afterComplete {s : State} (h : Good s) : Good (complete s) := h.congr rfl rfl rfl rfl rfl rfl rfl

theorem Good.afterAccept {s : State} (h : Good s) (w : Word) : Good (accept w s) := by
  have key : acceptFlags w s.status.flags = SeqFlags.none
      ∨ ∃ p, acceptFlags w s.status.flags = startFlags p s.status.flags := by
    unfold acceptFlags
    split
    · exact .inl rfl
    · exact .inr ⟨_, rfl⟩
    · exact .inr ⟨.idle, rfl⟩
  rcases key with hk | ⟨p, hk⟩
  · exact (h.afterStartStep .rs).congr rfl (by simp [hk, SeqFlags.none, startFlags]) rfl rfl rfl rfl rfl
  · exact (h.afterStartStep p).congr rfl (by simp [hk]) rfl rfl rfl rfl rfl

theorem faultCode_range (c : FaultCode) : 1 ≤ c.value.toNat ∧ c.value.toNat ≤ 11 := by cases c <;> decide

theorem Good.afterTakeFault {s : State} (h : Good s) (c : FaultCode) (i w : Word) : Good (takeFault c i w s) :=
  { params_legal := h.params_legal, memories_wf := h.memories_wf, memories_mapped := h.memories_mapped,
    flags_ordered := h.flags_ordered, placed_plane := h.placed_plane, scored_known := h.scored_known,
    final_known := h.final_known, esr_length := h.esr_length,
    fault_recorded := fun _ => faultCode_range c
    no_fault_no_err := by simp }

theorem Good.afterBusError {s : State} (h : Good s) : Good (busError s) := h.congr rfl rfl rfl rfl rfl rfl rfl

theorem Good.afterRespond {s : State} (h : Good s) (d : Word) : Good (respond d s) := h.congr rfl rfl rfl rfl rfl rfl rfl

theorem Good.afterAckFault {s : State} (h : Good s) : Good (ackFault s) :=
  { params_legal := h.params_legal, memories_wf := h.memories_wf, memories_mapped := h.memories_mapped,
    flags_ordered := h.flags_ordered, placed_plane := h.placed_plane, scored_known := h.scored_known,
    final_known := h.final_known, esr_length := h.esr_length,
    fault_recorded := by simp
    no_fault_no_err := fun _ => rfl }

/-- What a write to STATUS does, bit by bit (R26, R245). -/
theorem writeStatus_eq (v : Word) (s : State) :
    writeStatus v s =
      { s with
        err := if v.getLsbD 2 then ErrRegs.zero else s.err
        status := { s.status with
          done := if v.getLsbD 1 then false else s.status.done
          fault := if v.getLsbD 2 then false else s.status.fault
          buserr := if v.getLsbD 3 then false else s.status.buserr } } := by
  unfold writeStatus ackFault
  cases v.getLsbD 1 <;> cases v.getLsbD 2 <;> cases v.getLsbD 3 <;> rfl

theorem Good.afterWriteStatus {s : State} (h : Good s) (v : Word) : Good (writeStatus v s) := by
  rw [writeStatus_eq]
  cases v.getLsbD 2 with
  | false => exact h.congr rfl rfl rfl rfl rfl rfl rfl
  | true => exact h.afterAckFault.congr rfl rfl rfl rfl rfl rfl rfl

/-! ### The bodies -/

/-- Writing entries of a memory that are in range, and marking result registers, keeps the memories. -/
theorem Good.withCounts {s : State} (h : Good s) (z : Nat) : Good (writeCounts z s) :=
  { params_legal := h.params_legal, memories_wf := h.memories_wf, memories_mapped := h.memories_mapped,
    fault_recorded := h.fault_recorded, no_fault_no_err := h.no_fault_no_err, flags_ordered := h.flags_ordered,
    placed_plane := h.placed_plane, scored_known := h.scored_known, final_known := h.final_known,
    esr_length := h.esr_length }

/-- RS_ENCODE writes entries of CW below CW_DEPTH. -/
theorem encodedCw_good {s : State} {total : Nat} (hn : 1 ≤ s.cfg.ecclen.toNat) (ht : total ≤ s.params.cwDepth)
    (hw : s.mem.cw.wf) (hb : s.mem.cw.below s.params.cwDepth) :
    (encodedCw total s).wf ∧ (encodedCw total s).below s.params.cwDepth := by
  have hlen := eccWritten_length (total := total) hn
  have hle := dataCount_le s total
  exact ⟨Mem.wf_writeList _ _ hw, Mem.below_writeList (n := s.params.cwDepth) (by omega) hb⟩

theorem Good.afterWriteEcc {s : State} (h : Good s) {total : Nat} (hn : 1 ≤ s.cfg.ecclen.toNat)
    (ht : total ≤ s.params.cwDepth) : Good (writeEcc total s) := by
  obtain ⟨w1, w2, w3, w4, w5, w6, w7, w8, w9, w10⟩ := h.memories_wf
  have hm := h.memories_mapped
  obtain ⟨hw, hb⟩ := encodedCw_good hn ht w2 hm.cw
  exact
    { params_legal := h.params_legal, fault_recorded := h.fault_recorded, no_fault_no_err := h.no_fault_no_err,
      flags_ordered := h.flags_ordered, placed_plane := h.placed_plane, scored_known := h.scored_known,
      final_known := h.final_known, esr_length := by simp [freeEsr],
      memories_wf := ⟨w1, hw, w3, w4, w5, w6, w7, w8, w9, w10⟩, memories_mapped := { hm with cw := hb } }

theorem Good.succeedRs {s : State} (h : Good s) : Good (succeedStep .rs s) :=
  { params_legal := h.params_legal, memories_wf := h.memories_wf, memories_mapped := h.memories_mapped,
    fault_recorded := h.fault_recorded, no_fault_no_err := h.no_fault_no_err, flags_ordered := h.flags_ordered,
    placed_plane := h.placed_plane, scored_known := h.scored_known, final_known := h.final_known,
    esr_length := h.esr_length }

/-- A write at a coordinate entry lands on a cell of the matrix windows, or on none. -/
theorem landing_mapped {w : Nat} {e : BitVec w} {draw off : Nat} : ∀ k ∈ landing e draw off, cellMapped k := by
  have key : ∀ x y, x < Config.maxSide ∧ y < Config.maxSide → cellMapped (cellIndex x y) := fun x y h => by
    unfold Config.maxSide at h
    unfold cellMapped cellIndex Config.maxSide; omega
  intro k hk
  unfold landing at hk
  dsimp only at hk
  split_ifs at hk with h1 h2
  · cases hk; exact key _ _ h1
  · cases hk; exact key _ _ h2
  · cases hk

theorem placeBits_wf {bit : Nat → Bool} {m : Matrix 8} {i : Nat} {es : List (Option Nat × Byte)} (h : m.wf) :
    (placeBits bit m i es).wf := by
  induction es generalizing m i with
  | nil => exact h
  | cons e es ih => exact ih (Matrix.wf_writeAt _ _ h)

@[simp] theorem placeBits_cleared (bit : Nat → Bool) (m : Matrix 8) (i : Nat) (es : List (Option Nat × Byte)) :
    (placeBits bit m i es).cleared = m.cleared := by
  induction es generalizing m i with
  | nil => rfl
  | cons e es ih => simp [placeBits, ih]

theorem placeBits_mapped {bit : Nat → Bool} {m : Matrix 8} {i : Nat} {es : List (Option Nat × Byte)}
    (he : ∀ e ∈ es, ∀ k ∈ e.1, cellMapped k) (h : ∀ c ∈ m.cells, cellMapped c.1) :
    ∀ c ∈ (placeBits bit m i es).cells, cellMapped c.1 := by
  induction es generalizing m i with
  | nil => exact h
  | cons e es ih =>
    exact ih (fun x hx => he x (by simp [hx])) (Matrix.all_writeAt (p := fun k => cellMapped k) (he e (by simp)) h)

theorem plTargets_mapped {s : State} {draw count : Nat} : ∀ e ∈ plTargets s draw count, ∀ k ∈ e.1, cellMapped k := by
  intro e he
  obtain ⟨i, -, rfl⟩ := List.mem_map.1 he
  exact landing_mapped

/-- The end of a successful PLACE: PLANE and OUT are written whole, and the flag is set. -/
theorem Good.placed {s : State} (h : Good s) (hs : s.status.flags.scored = false) (hf : s.status.flags.final = false)
    (total : Nat) : Good (succeedStep .place (writePlanes total s)) := by
  obtain ⟨w1, w2, w3, w4, w5, w6, w7, w8, w9, w10⟩ := h.memories_wf
  exact
    { params_legal := h.params_legal, fault_recorded := h.fault_recorded, no_fault_no_err := h.no_fault_no_err,
      esr_length := h.esr_length, flags_ordered := by simp [successFlags, hs, hf],
      placed_plane := by simp [Matrix.zero], scored_known := by simp [successFlags, hs],
      final_known := by simp [successFlags, hf],
      memories_wf := ⟨w1, w2, w3, w4, w5, placeBits_wf Matrix.wf_zero, Matrix.wf_zero, w8, w9, w10⟩,
      memories_mapped :=
        { h.memories_mapped with
          plane := placeBits_mapped plTargets_mapped (by simp [Matrix.zero]), out := by simp [Matrix.zero] } }

theorem Good.afterForgetPlanes {s : State} (h : Good s) (hp : s.status.flags.placed = false) : Good (forgetPlanes s) := by
  obtain ⟨w1, w2, w3, w4, w5, w6, w7, w8, w9, w10⟩ := h.memories_wf
  have hs : s.status.flags.scored = false := by
    cases hs : s.status.flags.scored with
    | false => rfl
    | true => simp [h.flags_ordered.1 hs] at hp
  have hf : s.status.flags.final = false := by
    cases hf : s.status.flags.final with
    | false => rfl
    | true => simp [h.flags_ordered.2 hf] at hs
  exact
    { params_legal := h.params_legal, fault_recorded := h.fault_recorded, no_fault_no_err := h.no_fault_no_err,
      esr_length := h.esr_length, flags_ordered := h.flags_ordered, placed_plane := by simp [hp],
      scored_known := by simp [hs], final_known := by simp [hf],
      memories_wf := ⟨w1, w2, w3, w4, w5, Matrix.wf_unspecified, Matrix.wf_unspecified, w8, w9, w10⟩,
      memories_mapped :=
        { h.memories_mapped with plane := by simp [Matrix.unspecified], out := by simp [Matrix.unspecified] } }

/-- The end of a successful SCORE. -/
theorem Good.scored {s : State} (h : Good s) (hp : s.status.flags.placed = true) (hf : s.status.flags.final = false)
    (z : Vector PenScore 8) : Good (succeedStep .score (writeScores z s)) :=
  { params_legal := h.params_legal, memories_wf := h.memories_wf, memories_mapped := h.memories_mapped,
    fault_recorded := h.fault_recorded, no_fault_no_err := h.no_fault_no_err, esr_length := h.esr_length,
    flags_ordered := by simp [successFlags, hp, hf],
    placed_plane := h.placed_plane
    scored_known := fun _ => ⟨rfl, fun m => by
      simp only [succeedStep_res, writeScores_res, Fin.getElem_fin, Vector.getElem_map]; rfl⟩
    final_known := by simp [successFlags, hf] }

theorem mergedOut_wf (dark : Nat → Nat → Bool) (side : Nat) : (mergedOut dark side).wf := by
  have key : ∀ l : List (Nat × Nat),
      Mem.wf (l.foldr (fun c m => if dark c.1 c.2 then Mem.write m (cellIndex c.1 c.2) 1#1 else m) [])
      ∧ ∀ c ∈ l.foldr (fun c m => if dark c.1 c.2 then Mem.write m (cellIndex c.1 c.2) 1#1 else m) [], c.2 ≠ 0#1 := by
    intro l
    induction l with
    | nil => simp
    | cons d l ih =>
      rw [List.foldr_cons]
      split
      · refine ⟨Mem.wf_write _ _ ih.1, fun c hc => ?_⟩
        rcases Mem.mem_write hc with rfl | hc
        · exact (by decide : (1#1 : BitVec 1) ≠ 0#1)
        · exact ih.2 c hc
      · exact ih
  exact ⟨(key _).1, fun _ => (key _).2⟩

theorem mem_sideCells {side : Nat} {c : Nat × Nat} : c ∈ sideCells side ↔ c.1 < side ∧ c.2 < side := by
  obtain ⟨x, y⟩ := c
  simp only [sideCells, List.mem_flatMap, List.mem_range, List.mem_map, Prod.mk.injEq]
  constructor
  · rintro ⟨b, hb, a, ha, rfl, rfl⟩; exact ⟨ha, hb⟩
  · rintro ⟨hx, hy⟩; exact ⟨y, hy, x, hx, rfl, rfl⟩

theorem mergedOut_mapped (dark : Nat → Nat → Bool) (v : BitVec 6) :
    ∀ c ∈ (mergedOut dark (sideOf v)).cells, cellMapped c.1 := by
  have hs : sideOf v ≤ 177 := by unfold sideOf; split <;> omega
  have key : ∀ l : List (Nat × Nat), (∀ c ∈ l, c.1 < 177 ∧ c.2 < 177) →
      ∀ c ∈ l.foldr (fun c m => if dark c.1 c.2 then Mem.write m (cellIndex c.1 c.2) 1#1 else m) [],
        cellMapped c.1 := by
    intro l
    induction l with
    | nil => simp
    | cons d l ih =>
      intro hl
      rw [List.foldr_cons]
      have hd := hl d (by simp)
      have ih' := ih (fun c hc => hl c (by simp [hc]))
      split
      · refine Mem.all_write (p := fun k => cellMapped k) ?_ ih'
        unfold cellMapped cellIndex Config.maxSide; omega
      · exact ih'
  refine key _ (fun c hc => ?_)
  have := mem_sideCells.1 hc
  omega

theorem embedBits_wf {bits : BitVec 15} {m : Matrix 1} {k : Nat} {cs : List (Option Nat)} (h : m.wf) :
    (embedBits bits m k cs).wf := by
  induction cs generalizing m k with
  | nil => exact h
  | cons c cs ih => exact ih (Matrix.wf_writeAt _ _ h)

@[simp] theorem embedBits_cleared (bits : BitVec 15) (m : Matrix 1) (k : Nat) (cs : List (Option Nat)) :
    (embedBits bits m k cs).cleared = m.cleared := by
  induction cs generalizing m k with
  | nil => rfl
  | cons c cs ih => simp [embedBits, ih]

theorem embedBits_mapped {bits : BitVec 15} {m : Matrix 1} {k : Nat} {cs : List (Option Nat)}
    (hc : ∀ c ∈ cs, ∀ j ∈ c, cellMapped j) (h : ∀ c ∈ m.cells, cellMapped c.1) :
    ∀ c ∈ (embedBits bits m k cs).cells, cellMapped c.1 := by
  induction cs generalizing m k with
  | nil => exact h
  | cons c cs ih =>
    exact ih (fun x hx => hc x (by simp [hx])) (Matrix.all_writeAt (p := fun k => cellMapped k) (hc c (by simp)) h)

theorem formatTargets_mapped {s : State} {draw : Nat} :
    (∀ c ∈ formatTargets1 s draw, ∀ j ∈ c, cellMapped j) ∧ ∀ c ∈ formatTargets2 s draw, ∀ j ∈ c, cellMapped j := by
  constructor <;>
  · intro c hc
    obtain ⟨k, -, rfl⟩ := List.mem_map.1 hc
    exact landing_mapped

/-- The end of a successful FINALIZE. -/
theorem Good.finalized {s : State} (h : Good s) (hs : s.status.flags.scored = true) :
    Good (succeedStep .final (writeFormat s)) := by
  obtain ⟨w1, w2, w3, w4, w5, w6, w7, w8, w9, w10⟩ := h.memories_wf
  exact
    { params_legal := h.params_legal, fault_recorded := h.fault_recorded, no_fault_no_err := h.no_fault_no_err,
      esr_length := h.esr_length, placed_plane := h.placed_plane, scored_known := h.scored_known,
      flags_ordered := ⟨h.flags_ordered.1, fun _ => hs⟩,
      final_known := fun _ => ⟨by simp [writeFormat, mergedOut], rfl, rfl⟩,
      memories_wf := ⟨w1, w2, w3, w4, w5, w6, embedBits_wf (embedBits_wf (mergedOut_wf _ _)), w8, w9, w10⟩,
      memories_mapped :=
        { h.memories_mapped with
          out := embedBits_mapped formatTargets_mapped.2
            (embedBits_mapped formatTargets_mapped.1 (mergedOut_mapped _ _)) } }

/-- How a body leaves the invariant's clauses: kept in every case. -/
def Body.Keeps (b : Body) : Prop :=
  match b with
  | .done s => Good s
  | .raise _ _ s => Good s

theorem Body.Keeps.finish {b : Body} (h : b.Keeps) (w : Word) : Good (b.finish w) := by
  cases b with
  | done s => exact Good.afterComplete h
  | raise c i s => exact Good.afterTakeFault h c i w

theorem Body.Keeps.pause {b : Body} (h : b.Keeps) (w : Word) : Good (b.pause w) := by
  cases b with
  | done s => exact Good.congr h rfl rfl rfl rfl rfl rfl rfl
  | raise c i s => exact Good.afterTakeFault h c i w

theorem Body.Keeps.andThen {b : Body} {f : State → Body} (h : b.Keeps) (hf : ∀ s, Good s → (f s).Keeps) :
    (b.andThen f).Keeps := by
  cases b with
  | done s => exact hf s h
  | raise c i s => exact h

theorem Good.afterRsBody {s : State} (h : Good s) : (rsBody s).Keeps := by
  have hg := h.afterStartStep .rs
  rcases rsBody_cases s with ⟨code, info, -, hb⟩ | ⟨total, hv, hb⟩ <;> rw [hb]
  · exact hg.afterAdvanceDraws 2
  · have hv := validateBlocks_eq_ok.1 hv
    exact (((hg.afterWriteEcc hv.ecclen_pos hv.total_max).withCounts total).afterAdvanceDraws _).succeedRs

theorem Good.afterPlaceBody {s : State} (h : Good s) : (placeBody s).Keeps := by
  have hg := h.afterStartStep .place
  rcases placeBody_cases s with ⟨-, hb⟩ | ⟨-, code, info, -, hb⟩ | ⟨-, total, -, h'⟩
  · rw [hb]; exact hg
  · rw [hb]; exact hg.afterAdvanceDraws 8
  · rcases h' with ⟨-, hb⟩ | ⟨-, i, -, hb⟩ | ⟨-, -, hb⟩ <;> rw [hb]
    · exact (hg.withCounts total).afterAdvanceDraws 8
    · exact ((hg.afterForgetPlanes rfl).withCounts total).afterAdvanceDraws 8
    · exact ((hg.placed rfl rfl total).withCounts total).afterAdvanceDraws 8

theorem Good.afterScoreBody {s : State} (h : Good s) : (scoreBody s).Keeps := by
  have hg := h.afterStartStep .score
  rcases scoreBody_cases s with ⟨-, hb⟩ | ⟨-, -, hb⟩ | ⟨hp, -, hb⟩ <;> rw [hb]
  · exact hg
  · exact hg
  · exact (hg.scored hp rfl _).afterAdvanceDraws 8

theorem Good.afterFinalizeBody {s : State} (h : Good s) : (finalizeBody s).Keeps := by
  have hg := h.afterStartStep .final
  rcases finalizeBody_cases s with ⟨-, hb⟩ | ⟨-, -, hb⟩ | ⟨hs, -, ⟨k, -, hb⟩ | ⟨-, hb⟩⟩ <;> rw [hb]
  · exact hg
  · exact hg
  · exact hg.afterAdvanceDraws 3
  · exact (hg.finalized hs).afterAdvanceDraws 3

theorem Good.afterEncodeAllBody {s : State} (h : Good s) : (encodeAllBody s).Keeps := by
  unfold encodeAllBody
  split
  · exact h.afterFinalizeBody
  · exact h.afterScoreBody
  · exact h.afterPlaceBody
  · exact h.afterRsBody
  · exact h.afterRsBody
  · exact h.afterRsBody

theorem Good.afterClearBody {s : State} (h : Good s) : (clearBody s).Keeps :=
  { params_legal := h.params_legal, memories_wf := h.memories_wf, memories_mapped := h.memories_mapped,
    fault_recorded := h.fault_recorded, no_fault_no_err := h.no_fault_no_err, esr_length := h.esr_length,
    flags_ordered := by simp [SeqFlags.none], placed_plane := by simp [SeqFlags.none],
    scored_known := by simp [SeqFlags.none], final_known := by simp [SeqFlags.none] }

theorem Good.afterEncodeAllFrom {s : State} (h : Good s) (p : Phase) : (encodeAllFrom p s).Keeps := by
  have hall : (((rsBody s).andThen placeBody).andThen scoreBody |>.andThen finalizeBody).Keeps :=
    ((h.afterRsBody.andThen fun _ h => h.afterPlaceBody).andThen fun _ h => h.afterScoreBody).andThen
      fun _ h => h.afterFinalizeBody
  cases p with
  | idle => exact hall
  | ctrl => exact hall
  | rs => exact hall
  | place => exact (h.afterPlaceBody.andThen fun _ h => h.afterScoreBody).andThen fun _ h => h.afterFinalizeBody
  | score => exact h.afterScoreBody.andThen fun _ h => h.afterFinalizeBody
  | final => exact h.afterFinalizeBody

theorem Good.afterStepBody {s : State} (h : Good s) (w : Word) : (stepBody w s).Keeps := by
  unfold stepBody
  split
  · exact h.afterStartStep .ctrl
  · exact h.afterClearBody
  · exact h.afterRsBody
  · exact h.afterPlaceBody
  · exact h.afterScoreBody
  · exact h.afterFinalizeBody
  · exact h.afterEncodeAllBody
  · exact h

/-- Every command keeps the clauses. -/
theorem Good.afterExec {s t : State} (h : Good s) (i : Instr) (ht : exec i s = .next t) : Good t := by
  cases i <;> simp only [exec, execNop, execClear, execRsEncode, execPlace, execScore, execFinalize, execEncodeAll,
    Host.Outcome.next.injEq] at ht <;> subst ht
  · exact (h.afterStartStep .ctrl).afterComplete
  · exact h.afterClearBody.finish _
  · exact h.afterRsBody.finish _
  · exact h.afterPlaceBody.finish _
  · exact h.afterScoreBody.finish _
  · exact h.afterFinalizeBody.finish _
  · exact (h.afterEncodeAllFrom _).finish _

/-! ### The abort -/

theorem Good.flags_low {s : State} (h : Good s) :
    (s.status.flags.placed = false → s.status.flags.scored = false)
    ∧ (s.status.flags.scored = false → s.status.flags.final = false) := by
  obtain ⟨h1, h2⟩ := h.flags_ordered
  constructor
  · intro hp
    cases hs : s.status.flags.scored with
    | false => rfl
    | true => simp [h1 hs] at hp
  · intro hs
    cases hf : s.status.flags.final with
    | false => rfl
    | true => simp [h2 hf] at hs

/-- Marking result registers unspecified is allowed while the flag that vouches for them is 0. -/
theorem Good.withRes {s : State} (h : Good s) (r : ResultRegs) (hs : s.status.flags.scored = false) :
    Good { s with res := r } :=
  { params_legal := h.params_legal, memories_wf := h.memories_wf, memories_mapped := h.memories_mapped,
    fault_recorded := h.fault_recorded, no_fault_no_err := h.no_fault_no_err, flags_ordered := h.flags_ordered,
    placed_plane := h.placed_plane, esr_length := h.esr_length,
    scored_known := by simp [hs], final_known := by simp [h.flags_low.2 hs] }

theorem Good.afterForgetCounts {s : State} (h : Good s) : Good (forgetCounts s) := by
  unfold forgetCounts
  split
  · exact h
  · exact
      { params_legal := h.params_legal, memories_wf := h.memories_wf, memories_mapped := h.memories_mapped,
        fault_recorded := h.fault_recorded, no_fault_no_err := h.no_fault_no_err, flags_ordered := h.flags_ordered,
        placed_plane := h.placed_plane, scored_known := h.scored_known, final_known := h.final_known,
        esr_length := h.esr_length }

theorem Good.afterForgetEcc {s : State} (h : Good s) : Good (forgetEcc s) := by
  obtain ⟨w1, w2, w3, w4, w5, w6, w7, w8, w9, w10⟩ := h.memories_wf
  have hm := h.memories_mapped
  have key : ∀ cw : Mem 8, cw.wf → cw.below s.params.cwDepth →
      Good { s with seq := { s.seq with esr := freeEsr s s.draws }, mem := { s.mem with cw := cw } } := fun cw hw hb =>
    { params_legal := h.params_legal, fault_recorded := h.fault_recorded, no_fault_no_err := h.no_fault_no_err,
      flags_ordered := h.flags_ordered, placed_plane := h.placed_plane, scored_known := h.scored_known,
      final_known := h.final_known, esr_length := by simp [freeEsr],
      memories_wf := ⟨w1, hw, w3, w4, w5, w6, w7, w8, w9, w10⟩, memories_mapped := { hm with cw := hb } }
  unfold forgetEcc
  dsimp only
  split
  · exact key s.mem.cw w2 hm.cw
  · exact key _ (Mem.wf_forget _ _ w2) (fun c hc => hm.cw c (Mem.mem_forget hc))

theorem Good.afterForgetFormat {s : State} (h : Good s) (hf : s.status.flags.final = false) : Good (forgetFormat s) := by
  obtain ⟨w1, w2, w3, w4, w5, w6, w7, w8, w9, w10⟩ := h.memories_wf
  exact
    { params_legal := h.params_legal, fault_recorded := h.fault_recorded, no_fault_no_err := h.no_fault_no_err,
      flags_ordered := h.flags_ordered, placed_plane := h.placed_plane, scored_known := h.scored_known,
      esr_length := h.esr_length, final_known := by simp [hf],
      memories_wf := ⟨w1, w2, w3, w4, w5, w6, Matrix.wf_unspecified, w8, w9, w10⟩,
      memories_mapped := { h.memories_mapped with out := by simp [Matrix.unspecified] } }

theorem clearedOrKept_isKnown {w : Nat} {r : RegVal w} (h : r.isKnown = true) (draw off : Nat) :
    (clearedOrKept draw off r).isKnown = true := by
  unfold clearedOrKept; split
  · rfl
  · exact h

theorem Good.afterAbortedClear {s : State} (h : Good s) : Good (abortedClear s) :=
  { params_legal := h.params_legal, memories_wf := h.memories_wf, memories_mapped := h.memories_mapped,
    fault_recorded := h.fault_recorded, no_fault_no_err := h.no_fault_no_err, flags_ordered := h.flags_ordered,
    placed_plane := h.placed_plane, esr_length := h.esr_length
    scored_known := fun hs => ⟨clearedOrKept_isKnown (h.scored_known hs).1 _ _, fun m => by
      have hm := (h.scored_known hs).2 m
      simp only [Pen.isKnown, Bool.and_eq_true] at hm ⊢
      simp only [abortedClear, Fin.getElem_fin, Vector.getElem_ofFn, clearedOrKeptPen]
      exact ⟨⟨⟨⟨⟨clearedOrKept_isKnown hm.1.1.1.1.1 _ _, clearedOrKept_isKnown hm.1.1.1.1.2 _ _⟩,
        clearedOrKept_isKnown hm.1.1.1.2 _ _⟩, clearedOrKept_isKnown hm.1.1.2 _ _⟩,
        clearedOrKept_isKnown hm.1.2 _ _⟩, clearedOrKept_isKnown hm.2 _ _⟩⟩
    final_known := fun hf => ⟨(h.final_known hf).1, clearedOrKept_isKnown (h.final_known hf).2.1 _ _,
      clearedOrKept_isKnown (h.final_known hf).2.2 _ _⟩ }

theorem Good.afterDropStepFlags {s : State} (h : Good s) : Good (dropStepFlags s) :=
  (h.afterStartStep s.status.phase).congr rfl rfl rfl rfl rfl rfl rfl

/-- An abort keeps the clauses: it drops the flag of the step in progress and every later one (R114). -/
theorem Good.afterAbortEffects {s : State} (h : Good s) (w : Word) : Good (abortEffects w (dropStepFlags s)) := by
  have hg := h.afterDropStepFlags
  have hf : (dropStepFlags s).status.flags = startFlags (dropStepFlags s).status.phase s.status.flags := rfl
  generalize dropStepFlags s = t at hg hf
  unfold abortEffects
  split
  · exact hg
  · split
    · exact hg.afterAbortedClear
    · exact hg
  · exact hg.afterForgetEcc.afterForgetCounts
  · next hp => exact (hg.afterForgetPlanes (by rw [hf, hp]; rfl)).afterForgetCounts
  · next hp => exact hg.withRes _ (by rw [hf, hp]; rfl)
  · next hp => exact hg.afterForgetFormat (by rw [hf, hp]; rfl)

/-- What an abort leaves of the step in progress meets the clauses, dropped or kept (R244). -/
theorem Good.afterDropStep {s : State} (h : Good s) (w : Word) : Good (dropStep w s) := by
  unfold dropStep
  split
  · exact h
  · exact (h.afterAbortEffects w).afterAdvanceDraws 2

/-! ### The bus and reset -/

/-- What the address map names exists (R22, R60). -/
def Loc.Mapped (p : Params) : Loc → Prop
  | .fmtC1 k => k < 15
  | .fmtC2 k => k < 15
  | .fmtTable i => i < 32
  | .blk b => b < p.blkDepth
  | .cw i => i < p.cwDepth
  | .gf e => e < 256 * p.eccMax
  | .pl i => i < p.plDepth
  | .frame x y => x < 177 ∧ y < 177
  | .mat x y => x < 177 ∧ y < 177
  | _ => True

theorem locateRegister_mapped (p : Params) (off : Nat) : (locateRegister off).Mapped p := by
  unfold locateRegister; split <;> trivial

theorem locatePen_mapped (p : Params) (off : Nat) : (locatePen off).Mapped p := by
  unfold locatePen; dsimp only; split <;> trivial

theorem locateFormat_mapped (p : Params) (off : Nat) : (locateFormat off).Mapped p := by
  unfold locateFormat
  split_ifs <;> first | assumption | trivial | (show _ < _; omega)

theorem locateCell_mapped (p : Params) (cell : Nat) :
    (locateCell .frame cell).Mapped p ∧ (locateCell .mat cell).Mapped p := by
  unfold locateCell
  split_ifs with h
  · exact ⟨h, h⟩
  · exact ⟨trivial, trivial⟩

theorem Loc.mapped_ite {p : Params} {c : Prop} [Decidable c] {l l' : Loc} (h : c → l.Mapped p) (h' : l'.Mapped p) :
    (if c then l else l').Mapped p := by
  split
  · next hc => exact h hc
  · exact h'

theorem locate_mapped (p : Params) (off : Nat) : (locate p off).Mapped p :=
  Loc.mapped_ite (fun _ => locateRegister_mapped p off) <|
  Loc.mapped_ite (fun _ => locatePen_mapped p off) <|
  Loc.mapped_ite (fun _ => locateFormat_mapped p off) <|
  Loc.mapped_ite (fun _ => Loc.mapped_ite id trivial) <|
  Loc.mapped_ite (fun _ => Loc.mapped_ite id trivial) <|
  Loc.mapped_ite (fun _ => Loc.mapped_ite id trivial) <|
  Loc.mapped_ite (fun _ => Loc.mapped_ite id trivial) <|
  Loc.mapped_ite (fun _ => (locateCell_mapped p _).1) (locateCell_mapped p _).2

theorem Good.afterWriteLoc {s : State} (h : Good s) (v : Word) {l : Loc} (hl : l.Mapped s.params) :
    Good (writeLoc v s l) := by
  obtain ⟨w1, w2, w3, w4, w5, w6, w7, w8, w9, w10⟩ := h.memories_wf
  have hm := h.memories_mapped
  have key : ∀ m : Memories, m.plane = s.mem.plane → m.out = s.mem.out → Memories.wf m → Memories.Mapped s.params m →
      Good { s with mem := m } := fun m hp ho hw hmp =>
    { params_legal := h.params_legal, fault_recorded := h.fault_recorded, no_fault_no_err := h.no_fault_no_err,
      flags_ordered := h.flags_ordered, placed_plane := by simpa [hp] using h.placed_plane,
      scored_known := h.scored_known, esr_length := h.esr_length,
      final_known := by simpa [ho] using h.final_known, memories_wf := hw, memories_mapped := hmp }
  cases l with
  | status => exact h.afterWriteStatus v
  | cmd => exact h.afterAccept v
  | ctrl | version | eccode | ecclen | nblocks | rembits => exact h.congr rfl rfl rfl rfl rfl rfl rfl
  | fmtC1 k =>
    exact key _ rfl rfl ⟨w1, w2, w3, w4, w5, w6, w7, Mem.wf_write _ _ w8, w9, w10⟩
      { hm with fmtC1 := Mem.all_write (p := (· < 15)) hl hm.fmtC1 }
  | fmtC2 k =>
    exact key _ rfl rfl ⟨w1, w2, w3, w4, w5, w6, w7, w8, Mem.wf_write _ _ w9, w10⟩
      { hm with fmtC2 := Mem.all_write (p := (· < 15)) hl hm.fmtC2 }
  | fmtTable i =>
    exact key _ rfl rfl ⟨w1, w2, w3, w4, w5, w6, w7, w8, w9, Mem.wf_write _ _ w10⟩
      { hm with fmtTable := Mem.all_write (p := (· < 32)) hl hm.fmtTable }
  | blk b =>
    exact key _ rfl rfl ⟨Mem.wf_write _ _ w1, w2, w3, w4, w5, w6, w7, w8, w9, w10⟩
      { hm with blk := Mem.all_write (p := (· < s.params.blkDepth)) hl hm.blk }
  | cw i =>
    exact key _ rfl rfl ⟨w1, Mem.wf_write _ _ w2, w3, w4, w5, w6, w7, w8, w9, w10⟩
      { hm with cw := Mem.all_write (p := (· < s.params.cwDepth)) hl hm.cw }
  | gf e =>
    exact key _ rfl rfl ⟨w1, w2, Mem.wf_write _ _ w3, w4, w5, w6, w7, w8, w9, w10⟩
      { hm with gf := Mem.all_write (p := (· < 256 * s.params.eccMax)) hl hm.gf }
  | pl i =>
    exact key _ rfl rfl ⟨w1, w2, w3, Mem.wf_write _ _ w4, w5, w6, w7, w8, w9, w10⟩
      { hm with pl := Mem.all_write (p := (· < s.params.plDepth)) hl hm.pl }
  | frame x y =>
    have hx : x < 177 ∧ y < 177 := hl
    have hc : cellMapped (cellIndex x y) := by unfold cellMapped cellIndex Config.maxSide; omega
    exact key _ rfl rfl ⟨w1, w2, w3, w4, Mem.wf_write _ _ w5, w6, w7, w8, w9, w10⟩
      { hm with frame := Mem.all_write (p := fun k => cellMapped k) hc hm.frame }
  | id | params0 | params1 | err | errinfo | side | ndata | ntotal | selMask | fmtIndex | fmtBits | reserved => exact h
  | pen m f => exact h
  | mat x y => exact h

theorem Good.afterBusAccess {s : State} (h : Good s) (a : BusAccess) : Good (busAccess a s) := by
  rcases busAccess_cases a s with hb | ⟨off, -, -, hb⟩ | ⟨off, v, strobes, -, -, hb⟩ <;> rw [hb]
  · exact h.afterBusError
  · exact (h.afterAdvanceDraws 1).afterRespond _
  · exact (h.afterWriteLoc v (locate_mapped _ _)).afterRespond _

/-- The state after reset meets the clauses for every legal choice of the parameters. -/
theorem good_resetWith {p : Params} (hp : p.legal = true) : Good (State.resetWith p) :=
  { params_legal := hp, memories_wf := Memories.wf_unspecified,
    memories_mapped := by constructor <;> simp [State.resetWith, Memories.unspecified],
    fault_recorded := by simp [State.resetWith], no_fault_no_err := fun _ => rfl,
    flags_ordered := by simp [State.resetWith, SeqFlags.none], placed_plane := by simp [State.resetWith, SeqFlags.none],
    scored_known := by simp [State.resetWith, SeqFlags.none], final_known := by simp [State.resetWith, SeqFlags.none],
    esr_length := by simp [State.resetWith] }

end Sys2Proof.Machine
end

