-- ==== Sys2Proof/Laws/PerInstr.lean ====
section
/-! SUPPORT. The family CommandWord, stated of every command: its word (R90, R91). -/

/-- The command word of an instruction is well formed, its ZERO field is 0, its OPCODE is the command's, and the decoder
reads the command back. -/
def Sys2Proof.Laws.CommandWord.Statement (i : Sys2Proof.Instr) : Prop :=
  Sys2Proof.Instr.wellFormed i = true
    ∧ Sys2Proof.commandWordOk (Sys2Proof.encode i) = true
    ∧ Sys2Proof.zeroField (Sys2Proof.encode i) = 0#24
    ∧ Sys2Proof.opcodeField (Sys2Proof.encode i) = Sys2Proof.opcodeOf i
    ∧ Sys2Proof.decodeWord (Sys2Proof.encode i) = .ok i

theorem Sys2Proof.Laws.CommandWord.nop : Sys2Proof.Laws.CommandWord.Statement .nop := ⟨rfl, rfl, rfl, rfl, rfl⟩
theorem Sys2Proof.Laws.CommandWord.clear : Sys2Proof.Laws.CommandWord.Statement .clear := ⟨rfl, rfl, rfl, rfl, rfl⟩
theorem Sys2Proof.Laws.CommandWord.rsEncode : Sys2Proof.Laws.CommandWord.Statement .rsEncode :=
  ⟨rfl, rfl, rfl, rfl, rfl⟩
theorem Sys2Proof.Laws.CommandWord.place : Sys2Proof.Laws.CommandWord.Statement .place := ⟨rfl, rfl, rfl, rfl, rfl⟩
theorem Sys2Proof.Laws.CommandWord.score : Sys2Proof.Laws.CommandWord.Statement .score := ⟨rfl, rfl, rfl, rfl, rfl⟩
theorem Sys2Proof.Laws.CommandWord.finalize : Sys2Proof.Laws.CommandWord.Statement .finalize :=
  ⟨rfl, rfl, rfl, rfl, rfl⟩
theorem Sys2Proof.Laws.CommandWord.encodeAll : Sys2Proof.Laws.CommandWord.Statement .encodeAll :=
  ⟨rfl, rfl, rfl, rfl, rfl⟩
end

