-- ==== Sys2Proof/Laws/Turns.lean ====
section
/-! SUPPORT. What the bodies leave of the command in flight, and the end of a command: the facts that the turns of the
sequencer rest on. -/

namespace Sys2Proof.Machine

/-- What a body leaves to the command: the word in flight, the abort request, DONE, FAULT and ERR as they were. -/
structure InCommand (s t : State) : Prop where
  inflight : t.seq.inflight = s.seq.inflight
  abortReq : t.seq.abortReq = s.seq.abortReq
  done     : t.status.done = s.status.done
  fault    : t.status.fault = s.status.fault
  err      : t.err = s.err

theorem rsBody_inCommand {s t : State} (h : rsBody s = .done t) : InCommand s t := by
  rcases rsBody_cases s with ⟨_, _, _, hb⟩ | ⟨_, _, hb⟩ <;> rw [hb] at h <;> cases h
  exact ⟨rfl, rfl, rfl, rfl, rfl⟩

theorem placeBody_inCommand {s t : State} (h : placeBody s = .done t) : InCommand s t := by
  rcases placeBody_cases s with ⟨-, hb⟩ | ⟨-, _, _, -, hb⟩ | ⟨-, _, -, ⟨-, hb⟩ | ⟨-, _, -, hb⟩ | ⟨-, -, hb⟩⟩ <;>
    rw [hb] at h <;> cases h
  exact ⟨rfl, rfl, rfl, rfl, rfl⟩

theorem scoreBody_inCommand {s t : State} (h : scoreBody s = .done t) : InCommand s t := by
  rcases scoreBody_cases s with ⟨-, hb⟩ | ⟨-, -, hb⟩ | ⟨-, -, hb⟩ <;> rw [hb] at h <;> cases h
  exact ⟨rfl, rfl, rfl, rfl, rfl⟩

theorem finalizeBody_inCommand {s t : State} (h : finalizeBody s = .done t) : InCommand s t := by
  rcases finalizeBody_cases s with ⟨-, hb⟩ | ⟨-, -, hb⟩ | ⟨-, -, ⟨_, -, hb⟩ | ⟨-, hb⟩⟩ <;> rw [hb] at h <;> cases h
  exact ⟨rfl, rfl, rfl, rfl, rfl⟩

/-- However a command ends, it is no longer in flight, DONE is set and PHASE is IDLE (R112). -/
theorem finish_completes (w : Word) (b : Body) :
    (b.finish w).seq.inflight = none ∧ (b.finish w).seq.loops = 0 ∧ (b.finish w).seq.ended = false
      ∧ (b.finish w).status.done = true ∧ (b.finish w).status.phase = .idle := by
  cases b <;> exact ⟨rfl, rfl, rfl, rfl, rfl⟩

/-- Every command that runs completes (R112, R283). -/
theorem exec_completes {i : Instr} {s t : State} (h : exec i s = .next t) :
    t.seq.inflight = none ∧ t.seq.loops = 0 ∧ t.seq.ended = false ∧ t.status.done = true ∧ t.status.phase = .idle := by
  cases i <;>
    simp only [exec, execNop, execClear, execRsEncode, execPlace, execScore, execFinalize, execEncodeAll,
      Host.Outcome.next.injEq] at h <;>
    subst h <;> exact finish_completes _ _

/-- A body starts its own step, so starting the step before it changes nothing (R114, R121). -/
@[simp] theorem rsBody_startStep (s : State) : rsBody (startStep .rs s) = rsBody s := by simp [rsBody]

@[simp] theorem placeBody_startStep (s : State) : placeBody (startStep .place s) = placeBody s := by simp [placeBody]

@[simp] theorem scoreBody_startStep (s : State) : scoreBody (startStep .score s) = scoreBody s := by simp [scoreBody]

@[simp] theorem finalizeBody_startStep (s : State) : finalizeBody (startStep .final s) = finalizeBody s := by
  simp [finalizeBody]

/-- The sequencer's turn where no command is in flight changes nothing (R270). -/
theorem turns_idle {s : State} (h : s.seq.inflight = none) :
    runTurn s = .next s ∧ bodyTurn s = .next s ∧ workTurn s = .next s ∧ abortTurn s = .next s := by
  simp [runTurn, bodyTurn, workTurn, abortTurn, State.busy, h]

/-- Everything an abort turn can do with a word in flight (R118, R243): the fault of a check at acceptance, the abort, or
nothing where no abort is requested. -/
theorem abortTurn_cases {s : State} {w : Word} (h : s.seq.inflight = some w) :
    (∃ code, acceptanceFault w s = some code ∧ abortTurn s = .next (takeFault code w w s))
    ∨ (acceptanceFault w s = none ∧ s.seq.abortReq = true ∧ abortTurn s = .next (takeAbort w s))
    ∨ (acceptanceFault w s = none ∧ s.seq.abortReq = false ∧ abortTurn s = .next s) := by
  unfold abortTurn
  rw [h]
  dsimp only
  cases acceptanceFault w s with
  | some code => exact .inl ⟨code, rfl, rfl⟩
  | none =>
    cases hr : s.seq.abortReq with
    | true => exact .inr (.inl ⟨rfl, rfl, by simp⟩)
    | false => exact .inr (.inr ⟨rfl, rfl, by simp⟩)

/-- Of the memories an abort in RS changes CW alone (R244). -/
theorem forgetEcc_mem (s : State) : ∃ cw, (forgetEcc s).mem = { s.mem with cw := cw } := by
  unfold forgetEcc
  dsimp only
  split
  · exact ⟨s.mem.cw, rfl⟩
  · exact ⟨_, rfl⟩

/-- What no abort changes (R52, R244): of the memories all but CW, PLANE and OUT, and the abort request. -/
theorem dropStep_leaves (w : Word) (s : State) :
    (∃ cw plane out, (dropStep w s).mem = { s.mem with cw := cw, plane := plane, out := out })
    ∧ (dropStep w s).seq.abortReq = s.seq.abortReq := by
  unfold dropStep abortEffects
  repeat' split
  case h_3 =>
    obtain ⟨cw, h⟩ := forgetEcc_mem (dropStepFlags s)
    exact ⟨⟨cw, s.mem.plane, s.mem.out, by simp [h]⟩, by simp⟩
  case h_4 => exact ⟨⟨s.mem.cw, Matrix.unspecified 8, Matrix.unspecified 1, by simp⟩, by simp⟩
  all_goals exact ⟨⟨_, _, _, rfl⟩, by simp⟩

/-- An abort ends the command, whatever phase it is in (R112, R118). -/
theorem takeAbort_completes (w : Word) (s : State) :
    (takeAbort w s).seq.inflight = none ∧ (takeAbort w s).seq.loops = 0 ∧ (takeAbort w s).seq.ended = false
      ∧ (takeAbort w s).status.done = true
      ∧ (takeAbort w s).status.fault = true ∧ (takeAbort w s).status.phase = .idle
      ∧ (takeAbort w s).status.flags
        = (if bodyKept w s then s.status.flags else startFlags s.status.phase s.status.flags)
      ∧ (takeAbort w s).err
        = ⟨11#4, opcodeField w, s.status.phase.code, s.status.phase.code.setWidth 32⟩ := by
  simp [takeAbort, FaultCode.value]

/-- The four datapath bodies, where they succeed, have set their own flag in their own phase (R114, R116). -/
theorem bodies_succeed {s t : State} :
    (rsBody s = .done t → t.status.phase = .rs ∧ t.status.flags.eccValid = true)
    ∧ (placeBody s = .done t → t.status.phase = .place ∧ t.status.flags.placed = true)
    ∧ (scoreBody s = .done t → t.status.phase = .score ∧ t.status.flags.scored = true)
    ∧ (finalizeBody s = .done t → t.status.phase = .final ∧ t.status.flags.final = true) := by
  refine ⟨fun h => ?_, fun h => ?_, fun h => ?_, fun h => ?_⟩
  · rcases rsBody_cases s with ⟨_, _, _, hb⟩ | ⟨_, _, hb⟩ <;> rw [hb] at h <;> cases h
    exact ⟨rfl, rfl⟩
  · rcases placeBody_cases s with ⟨-, hb⟩ | ⟨-, _, _, -, hb⟩ | ⟨-, _, -, ⟨-, hb⟩ | ⟨-, _, -, hb⟩ | ⟨-, -, hb⟩⟩ <;>
      rw [hb] at h <;> cases h
    exact ⟨rfl, rfl⟩
  · rcases scoreBody_cases s with ⟨-, hb⟩ | ⟨-, -, hb⟩ | ⟨-, -, hb⟩ <;> rw [hb] at h <;> cases h
    exact ⟨rfl, rfl⟩
  · rcases finalizeBody_cases s with ⟨-, hb⟩ | ⟨-, -, hb⟩ | ⟨-, -, ⟨_, -, hb⟩ | ⟨-, hb⟩⟩ <;> rw [hb] at h <;> cases h
    exact ⟨rfl, rfl⟩

/-- Everything a body turn can do with a word in flight (R110, R112, R116): what follows an ended step, the body's success
flag, or the body's fault. -/
theorem bodyTurn_cases {s : State} {w : Word} (h : s.seq.inflight = some w) :
    (s.seq.ended = true ∧ nextOf w s = none ∧ bodyTurn s = .next (complete s))
    ∨ (s.seq.ended = true ∧ (∃ p, nextOf w s = some p ∧ bodyTurn s = .next (startStep p s)))
    ∨ (s.seq.ended = false ∧ ∃ t, stepBody w s = .done t ∧ bodyTurn s = .next (endStep t))
    ∨ (s.seq.ended = false ∧ ∃ c i t, stepBody w s = .raise c i t ∧ bodyTurn s = .next (takeFault c i w t)) := by
  unfold bodyTurn
  rw [h]
  cases hd : s.seq.ended with
  | true =>
    cases hn : nextOf w s with
    | none => exact .inl ⟨rfl, rfl, by simp [afterBody, hn]⟩
    | some p => exact .inr (.inl ⟨rfl, p, rfl, by simp [afterBody, hn]⟩)
  | false =>
    cases hb : stepBody w s with
    | done t => exact .inr (.inr (.inl ⟨rfl, t, rfl, by simp [hb]⟩))
    | raise c i t => exact .inr (.inr (.inr ⟨rfl, c, i, t, rfl, by simp [hb]⟩))

end Sys2Proof.Machine
end

