-- ==== Sys2Proof/Tests/Slice0.lean ====
section
/-! SUPPORT. Tests: command words from spec/30_encoding.md, the ill-formed smoke, vectors of spec/95_test_vectors.md, and
for every statement with hypotheses a witness that meets them. -/

namespace Sys2Proof.Tests

open Sys2Proof Sys2Proof.Machine Sys2Proof.Claims

/-! ### Small states -/

/-- The next state of an answer; the reset state where there is none. -/
def nextOr : StepResult → State
  | .next s => s
  | .fault _ => State.reset
  | .refused _ => State.reset

/-- `cmd i; wait` (R98). -/
def ran (i : Instr) (s : State) : State := nextOr (runTurn (hostWrite 0x010 (encode i) s))

/-- The word of a read. -/
def readWord (off : Nat) (s : State) : Word :=
  match (hostRead off s).resp with
  | some r => r.data
  | none => 0#32

/-- Command `w` in flight after reset. -/
def busyWith (w : Word) : State := accept w State.reset

/-- The reset state with a block list and a configuration. -/
def withBlocks (ecclen : BitVec 8) (blk : List (BitVec 8)) : State :=
  { State.reset with
    cfg := { version := 1#6, eccode := 1#2, ecclen := ecclen, nblocks := BitVec.ofNat 8 blk.length, rembits := 0#3 }
    mem := { Memories.unspecified with blk := (List.range blk.length).zip blk } }

/-- The toy table of L2.2, `GF[c][j] = c`, for `n` entries per row. -/
def toyTable (n : Nat) : Mem 8 :=
  (List.range 256).flatMap (fun c => (List.range n).map (fun j => (32 * c + j, BitVec.ofNat 8 c)))

/-- Vectors RS-1, RS-4 and RS-8: a block list, data codewords and the toy table. -/
def rsState (ecclen : BitVec 8) (blk : List (BitVec 8)) (cw : List Byte) : State :=
  let s := withBlocks ecclen blk
  { s with mem := { s.mem with cw := (List.range cw.length).zip cw, gf := toyTable ecclen.toNat } }

/-- Program P1's load: RS-1 with GF rows 1 and 3 alone, the rows the division reads (R281). -/
def minimalRs : State :=
  let s := withBlocks 2#8 [4#8]
  { s with mem := { s.mem with cw := [(0, 1#8), (1, 2#8)], gf := [(32, 1#8), (33, 1#8), (96, 3#8), (97, 3#8)] } }

/-- The operands of PL-1: one codeword, eight coordinates. -/
def placeState (cw : Byte) (pl : List (BitVec 24)) : State :=
  let s := withBlocks 1#8 [1#8]
  { s with mem := { s.mem with cw := [(0, cw)], pl := (List.range pl.length).zip pl } }

/-- PL[i] = (i, 0, tog) for i = 0..7. -/
def rowEntries (tog : Byte) : List (BitVec 24) := (List.range 8).map (fun i => tog ++ 0#8 ++ BitVec.ofNat 8 i)

/-- Format coordinates (k, y) for k = 0..14. -/
def formatRow (y : Byte) : Mem 16 := (List.range 15).map (fun k => (k, y ++ BitVec.ofNat 8 k))

/-- A state that FINALIZE accepts: the light frame, PLANE all 0, ECCODE 1, SEL_MASK 3, two rows of coordinates. -/
def finalState : State :=
  let s := withBlocks 1#8 [1#8]
  { s with
    status := { s.status with flags := ⟨true, true, true, false⟩ }
    res := { s.res with selMask := .known 3#3 }
    mem := { s.mem with
      plane := Machine.Matrix.zero 8, out := Machine.Matrix.zero 1, fmtC1 := formatRow 8#8, fmtC2 := formatRow 10#8,
      frame := (List.range 21).flatMap (fun y => (List.range 21).map (fun x => (cellIndex x y, 0#1))),
      fmtTable := [(11, 0x5B4B#15)] } }

/-- A state with the load of R281 for ENCODE_ALL, on which it passes every check: one block of one codeword, ECCLEN 1, so no
data codeword and no GF row. -/
def allState : State :=
  let s := placeState 0x80#8 (rowEntries 0x00#8)
  { s with
    status := { s.status with phase := .rs }
    mem := { s.mem with
      fmtC1 := formatRow 8#8, fmtC2 := formatRow 10#8, frame := finalState.mem.frame,
      fmtTable := (List.range 32).map (fun i => (i, 0x5B4B#15)) } }

/-- Command `i` in flight in phase `p`, with an abort requested. -/
def aborting (i : Instr) (p : Phase) (s : State) : State :=
  let s := accept (encode i) s
  { s with status := { s.status with phase := p }, seq := { s.seq with abortReq := true } }

/-! ### Decoding: words of R91 written out, and words that are no command -/

theorem test_decode_nop : decodeWord 0b00000000000000000000000000000000#32 = .ok .nop := by decide
theorem test_decode_clear : decodeWord 0b00000000000000000000000000000001#32 = .ok .clear := by decide
theorem test_decode_rs_encode : decodeWord 0b00000000000000000000000000010000#32 = .ok .rsEncode := by decide
theorem test_decode_place : decodeWord 0b00000000000000000000000000100000#32 = .ok .place := by decide
theorem test_decode_score : decodeWord 0b00000000000000000000000000110000#32 = .ok .score := by decide
theorem test_decode_finalize : decodeWord 0b00000000000000000000000001000000#32 = .ok .finalize := by decide
theorem test_decode_encode_all : decodeWord 0b00000000000000000000000001010000#32 = .ok .encodeAll := by decide

/-- CT-8, CT-9, CT-10: words that are no command are rejected by name. -/
theorem test_decode_illegal :
    decodeWord 0x100#32 = .error (.zeroFieldSet 0x100#32)
    ∧ decodeWord 0xFFFFFFFF#32 = .error (.zeroFieldSet 0xFFFFFFFF#32)
    ∧ decodeWord 0x51#32 = .error (.opcodeUnassigned 0x51#8) ∧ decodeWord 0x02#32 = .error (.opcodeUnassigned 0x02#8)
    ∧ decodeWord 0x80000010#32 = .error (.zeroFieldSet 0x80000010#32) := by decide

/-- Lane order (R68): the byte at +0 holds the OPCODE. -/
theorem test_decode_bytes :
    decode [0x20#8, 0x00#8, 0x00#8, 0x00#8, 0xAA#8] = .ok (.place, [0xAA#8])
    ∧ decode [0x00#8, 0x00#8, 0x00#8, 0x20#8] = .error (.zeroFieldSet 0x20000000#32)
    ∧ decode [0x20#8, 0x00#8, 0x00#8] = .error .truncated
    ∧ decodeTableWord 32 0x50 = some .encodeAll ∧ decodeTableWord 32 0x11 = none := by decide

/-! ### Ill-formed terms -/

theorem test_illformed_zero_field : commandWordOk 0x00000110#32 = false := by decide
theorem test_illformed_opcode : commandWordOk 0x00000011#32 = false := by decide
theorem test_illformed_offset : (BusAccess.read 0x00002#20).wellFormed = false := by decide
theorem test_illformed_write_offset : (BusAccess.writeWord 0x00022#20 5#32).wellFormed = false := by decide
theorem test_illformed_strobes : (BusAccess.write 0x00020#20 5#32 0x7#4).wellFormed = false := by decide
theorem test_wellformed_access : (BusAccess.writeWord 0x00020#20 5#32).wellFormed = true := by decide
theorem test_illformed_params :
    (Params.legal { Params.default with eccMax := 129 } = false) ∧ (Params.legal { Params.default with eccMax := 0 } = false)
    ∧ (Params.legal { Params.default with blkDepth := 256 } = false)
    ∧ (Params.legal { Params.default with blkDepth := 0 } = false)
    ∧ (Params.legal { Params.default with cwDepth := 16385 } = false)
    ∧ (Params.legal { Params.default with cwDepth := 0 } = false)
    ∧ (Params.legal { Params.default with plDepth := 65537 } = false)
    ∧ (Params.legal { Params.default with plDepth := 0 } = false)
    ∧ (Params.legal { Params.default with n4Weight := 2 ^ 20 + 1 } = false) ∧ Params.default.legal = true := by decide

/-! ### Control, bus and status (L2.1) -/

theorem test_ct1_id : readWord 0x000 State.reset = 0x51524501#32 := by decide
theorem test_ct2_params : readWord 0x004 State.reset = 0x10008020#32 ∧ readWord 0x01C State.reset = 0xB1008000#32 := by
  decide
theorem test_ct3_nop : readWord 0x00C (ran .nop State.reset) = 0x00000002#32 := by decide
theorem test_ct4_irq :
    let s := ran .nop (hostWrite 0x008 1#32 State.reset)
    readWord 0x00C s = 0x12#32 ∧ s.irq = true ∧ readWord 0x00C (hostWrite 0x00C 2#32 s) = 0#32
    ∧ readWord 0x00C (hostWrite 0x008 0#32 s) = 2#32 := by decide
/-- CT-7, CT-11, CT-12. -/
theorem test_ct7_illegal :
    let s := nextOr (runTurn (hostWrite 0x010 0x11#32 State.reset))
    readWord 0x00C s = 6#32 ∧ readWord 0x014 s = 0x00011101#32 ∧ readWord 0x018 s = 0x11#32
    ∧ readWord 0x00C (hostWrite 0x010 0#32 s) = 0xE#32 ∧ readWord 0x014 (hostWrite 0x010 0#32 s) = 0x00011101#32
    ∧ readWord 0x00C (hostWrite 0x00C 0xE#32 (hostWrite 0x010 0#32 s)) = 0#32
    ∧ readWord 0x014 (hostWrite 0x00C 0xE#32 s) = 0#32 := by decide
theorem test_ct14_score_sequence :
    let s := ran .score State.reset
    readWord 0x00C s = 6#32 ∧ readWord 0x014 s = 0x0004300A#32 ∧ readWord 0x018 s = 0x30#32 := by decide
theorem test_ct15_finalize_sequence :
    let s := ran .finalize State.reset
    readWord 0x00C s = 6#32 ∧ readWord 0x014 s = 0x0005400A#32 ∧ readWord 0x018 s = 0x40#32 := by decide
/-- CT-16 to CT-18. -/
theorem test_ct16_bus_errors :
    readWord 0x002 State.reset = 0#32 ∧ (hostRead 0x002 State.reset).status.buserr = true
    ∧ (hostWrite 0x022 5#32 State.reset).cfg.version = 0#6 ∧ (hostWrite 0x022 5#32 State.reset).status.buserr = true
    ∧ readWord 0x04C State.reset = 0#32 ∧ readWord 0x118 State.reset = 0#32 ∧ readWord 0x23C State.reset = 0#32
    ∧ (hostRead 0x23C (hostRead 0x118 (hostRead 0x04C State.reset))).status.buserr = false := by decide
/-- CT-21, CT-22. -/
theorem test_ct21_version :
    readWord 0x020 (hostWrite 0x020 0x7F#32 State.reset) = 0x3F#32
    ∧ readWord 0x034 (hostWrite 0x020 0x7F#32 State.reset) = 0#32
    ∧ readWord 0x034 (hostWrite 0x020 40#32 State.reset) = 177#32 := by decide
/-- CT-24 to CT-28, while BUSY = 1. -/
theorem test_ct24_busy :
    let s := busyWith (encode .encodeAll)
    (hostWrite 0x020 3#32 s).status.buserr = true ∧ (hostWrite 0x020 3#32 s).cfg.version = 0#6
    ∧ readWord 0x10000 s = 0#32 ∧ (hostRead 0x10000 s).status.buserr = true ∧ readWord 0x00C s = 0x00020001#32
    ∧ (hostRead 0x00C s).status.buserr = false ∧ (hostWrite 0x010 0#32 s).seq.inflight = some 0x50#32
    ∧ (hostWrite 0x008 0x100#32 s).seq.abortReq = true := by decide
/-- CT-28 (b): an abort seen in RS. -/
theorem test_ct28_aborted :
    let s := nextOr (takeTurn .abort (hostWrite 0x008 0x100#32 (busyWith (encode .rsEncode))))
    readWord 0x00C s = 6#32 ∧ readWord 0x014 s = 0x0002100B#32 ∧ readWord 0x018 s = 2#32 := by decide
/-- R243: SEQUENCE, checked at acceptance, comes before an abort. -/
theorem test_abort_after_sequence :
    readWord 0x014 (nextOr (takeTurn .abort (hostWrite 0x008 0x100#32 (busyWith (encode .score))))) = 0x0004300A#32 := by
  decide
/-- R110, R153: between the success flag of PLACE and its completion STATUS shows BUSY = 1, PLACED = 1, PHASE = PLACE; an
abort of the single command seen there leaves the flag as the step's start set it (R114; log 25). -/
theorem test_success_flag_before_completion :
    let s := nextOr (bodyTurn (accept (encode .place) (placeState 0x80#8 (rowEntries 0#8))))
    let t := nextOr (takeTurn .abort (hostWrite 0x008 0x100#32 s))
    readWord 0x00C s = 0x00030201#32 ∧ readWord 0x00C (nextOr (bodyTurn s)) = 0x202#32
    ∧ readWord 0x00C t = 6#32 ∧ readWord 0x014 t = 0x0003200B#32 := by decide +kernel
/-- R116: ENCODE_ALL's RS step that has ended, and the PLACE step it starts. -/
theorem test_encode_all_next_step :
    let s := nextOr (bodyTurn (accept (encode .encodeAll) (placeState 0x80#8 (rowEntries 0#8))))
    readWord 0x00C s = 0x00020101#32 ∧ readWord 0x00C (nextOr (bodyTurn s)) = 0x00030101#32 := by decide +kernel
/-- CT-29. -/
theorem test_ct29_abort_idle :
    (hostWrite 0x008 0x100#32 State.reset).seq.abortReq = false
    ∧ readWord 0x008 (hostWrite 0x008 0x107#32 State.reset) = 7#32 := by decide
/-- CT-30: CLEAR. -/
theorem test_ct30_clear :
    let s := ran .clear finalState
    readWord 0x00C s = 2#32 ∧ readWord 0x040 s = 0#32 ∧ s.mem.plane = finalState.mem.plane := by decide

/-- R244: an abort of RS_ENCODE behind its success flag forgets the entries that the command wrote, whatever the block list
reads as now: here no BLK entry is written, NTOTAL is 4 and NDATA 2. -/
theorem test_rs_abort_forgets_written :
    let s := endStep (accept (encode .rsEncode) (withBlocks 2#8 [4#8]))
    let s := { s with
      seq := { s.seq with abortReq := true }
      res := { s.res with ndata := .known 2#16, ntotal := .known 4#16 }
      mem := { s.mem with blk := [], cw := [(0, 1#8), (1, 2#8), (2, 2#8), (3, 3#8), (4, 9#8)] } }
    (nextOr (takeTurn .abort s)).mem.cw = [(0, 1#8), (1, 2#8), (4, 9#8)] := by decide +kernel

/-- R244: an abort between the RS step of ENCODE_ALL and the PLACE step: the RS body keeps its flag and its results. -/
theorem test_encode_all_abort_keeps_body :
    let s := nextOr (bodyTurn (accept (encode .encodeAll) (rsState 2#8 [4#8] [1#8, 2#8])))
    let t := nextOr (takeTurn .abort (hostWrite 0x008 0x100#32 s))
    readWord 0x00C t = 0x106#32 ∧ readWord 0x014 t = 0x0002500B#32 ∧ readWord 0x018 t = 2#32 ∧ readWord 0x038 t = 2#32
    ∧ t.mem.cw = [(0, 1#8), (1, 2#8), (2, 2#8), (3, 3#8)] := by decide +kernel

/-! ### RS_ENCODE (L2.2) -/

/-- RS-1. -/
theorem test_rs1 :
    let s := ran .rsEncode (rsState 2#8 [4#8] [1#8, 2#8])
    s.mem.cw = [(0, 1#8), (1, 2#8), (2, 2#8), (3, 3#8)] ∧ readWord 0x038 s = 2#32 ∧ readWord 0x03C s = 4#32
    ∧ readWord 0x00C s = 0x102#32 := by decide +kernel
/-- P1: the same codewords from GF rows 1 and 3 alone. -/
theorem test_p1 : (ran .rsEncode minimalRs).mem.cw = [(0, 1#8), (1, 2#8), (2, 2#8), (3, 3#8)] := by decide +kernel
/-- RS-8 with the toy table. -/
theorem test_rs8 :
    (ran .rsEncode (rsState 2#8 [4#8, 5#8] [1#8, 2#8, 3#8, 4#8, 5#8])).mem.cw.map (·.2)
      = [1#8, 2#8, 3#8, 4#8, 5#8, 2#8, 3#8, 6#8, 1#8] := by decide +kernel

/-! ### PLACE (L2.3) -/

/-- PL-4: CW[0] = 0xA5, toggles 0x0F. -/
theorem test_pl4 :
    let s := ran .place (placeState 0xA5#8 (rowEntries 0x0F#8))
    (List.range 8).map (fun x => readWord (0xC0000 + 4 * x) s)
      = [0xF0#32, 0x0F#32, 0xF0#32, 0x0F#32, 0x0F#32, 0xF0#32, 0x0F#32, 0xF0#32]
    ∧ readWord 0x00C s = 0x202#32 := by decide +kernel
/-- PL-6: the lowest bad coordinate. -/
theorem test_pl6 :
    let s := ran .place (placeState 0x80#8 [0#24, 1#24, 2#24, 3#24, 4#24, 21#24, 0x1900#24, 7#24])
    readWord 0x00C s = 6#32 ∧ readWord 0x014 s = 0x00032008#32 ∧ readWord 0x018 s = 5#32 ∧ readWord 0x03C s = 1#32 := by
  decide +kernel

/-! ### SCORE (L2.4) -/

/-- A line of modules from its picture. -/
def lineOf (ds : List Nat) : List Bool := ds.map (fun d => d == 1)

/-- LN-a, LN-b, LN-e, LN-g and LN-j: N1 and the N3 occurrences. -/
theorem test_line_vectors :
    let parts := fun ds => (n1Line (lineOf ds), n3Line .ratioRuns (lineOf ds))
    parts [1,0,1,1,1,0,1,0,0,0,0,0,0,0,0,0,0,0,0,0,0] = (12, 1)
    ∧ parts [0,0,0,0,1,1,0,0,1,1,1,1,1,1,0,0,1,1,0,0,0] = (4, 1)
    ∧ parts [1,0,1,1,1,0,1,0,1,1,1,0,1,0,0,0,0,0,0,0,0] = (6, 2)
    ∧ parts [0,1,0,0,0,1,0,0,0,0,0,0,0,0,0,0,0,0,0,0,0] = (13, 0)
    ∧ parts [1,1,0,0,1,1,1,1,1,1,0,0,1,1,0,0,0,0,0,0,0] = (9, 1) := by decide +kernel

/-- SC-5 on its grid, the N4 vectors and the selections of SC-8. -/
theorem test_score_vectors :
    let g : Grid := lineOf [1,0,1,1,1,0,1,0,0,0,0,0,0,0,0,0,0,0,0,0,0] :: List.replicate 20 (List.replicate 21 false)
    scoreGrid Params.default 21 g = { n1 := 786, n2 := 1179, n3 := 40, n4 := 90, dark := 5 }
    ∧ [154, 155, 198, 199, 242, 243, 265].map (fun d => n4Score Params.default d 441) = [30, 20, 10, 0, 0, 10, 20]
    ∧ selectMask [9#32, 8#32, 8#32, 7#32, 7#32, 9#32, 9#32, 9#32] = 3
    ∧ selectMask [0#32, 1#32, 1#32, 1#32, 1#32, 1#32, 1#32, 0#32] = 0
    ∧ selectMask [7#32, 6#32, 5#32, 4#32, 3#32, 2#32, 1#32, 1#32] = 6 := by decide +kernel

/-! ### FINALIZE and ENCODE_ALL (L2.5) -/

/-- FM-1's string at both regions: index 11, 101101101001011 in k order. -/
theorem test_fm1 :
    let s := ran .finalize finalState
    readWord 0x044 s = 11#32 ∧ readWord 0x048 s = 0x5B4B#32 ∧ readWord 0x00C s = 0xF02#32
    ∧ (List.range 15).map (fun k => s.mem.out.read (cellIndex k 8))
      = [1, 0, 1, 1, 0, 1, 1, 0, 1, 0, 0, 1, 0, 1, 1].map (fun b => some (BitVec.ofNat 1 b))
    ∧ s.mem.out.read (cellIndex 5 9) = some 0#1 := by decide +kernel
/-- FM-2: FMT_C2[3] = (21, 8) faults with info 19. -/
theorem test_fm2 :
    let bad := { finalState with
      mem := { finalState.mem with fmtC2 := Mem.write finalState.mem.fmtC2 3 0x0815#16 } }
    let s := ran .finalize bad
    readWord 0x018 s = 19#32 ∧ readWord 0x014 s = 0x00054009#32 ∧ readWord 0x00C s = 0x706#32 := by decide +kernel
/-- R121: a fault in the PLACE body of ENCODE_ALL, after RS has succeeded. -/
theorem test_encode_all_fault :
    let bad := { placeState 0x80#8 (rowEntries 0#8) with cfg := { (withBlocks 1#8 [1#8]).cfg with version := 41#6 } }
    let s := ran .encodeAll bad
    readWord 0x00C s = 0x106#32 ∧ readWord 0x014 s = 0x00035002#32 ∧ readWord 0x018 s = 41#32 := by decide +kernel

/-! ### The host pipeline -/

/-- Tables that are the same for every version and EC code. -/
def flatTables (capacity n : Nat) (blocks : List Nat) (rem : Nat) : TableProvider :=
  { capacity := fun _ _ => capacity, eccLength := fun _ _ => n, blocks := fun _ _ => blocks, galois := fun _ _ _ => 0#8,
    placement := fun _ => [], remainderBits := fun _ => rem, frame := fun _ _ _ => false,
    formatStrings := fun _ => 0#15, formatCoords1 := fun _ => Vector.replicate 15 (0#8, 0#8),
    formatCoords2 := fun _ => Vector.replicate 15 (0#8, 0#8) }

/-- R225, R131: NDATA of blocks 5 and 30 with ECCLEN 10 is 35 − 20 = 15, so a capacity of 120 is consistent, 121 is not. -/
theorem test_tables_ndata :
    dataCodewords (flatTables 120 10 [5, 30] 0) 1 0#2 = 15 ∧ tablesConsistent (flatTables 120 10 [5, 30] 0) = true
    ∧ tablesConsistent (flatTables 121 10 [5, 30] 0) = false := by decide +kernel
/-- R227, D24: a table with a value that no location of QRE holds, and a table that is not there, are not usable. -/
theorem test_tables_load :
    tablesFit Params.default (flatTables 128 10 [26] 7) = true ∧ tablesFit Params.default (flatTables 128 10 [300] 0) = false
    ∧ tablesFit Params.default (flatTables 128 10 (List.replicate 129 26) 0) = false
    ∧ tablesFit Params.default (flatTables 128 10 [26] 8) = false ∧ tablesFit Params.default (flatTables 128 33 [40] 0) = false
    ∧ (encodeSymbol none HostParams.default [1#8] .low State.reset).1 = .error .tableLoadFailure
    ∧ (encodeSymbol (some (flatTables 128 10 [26] 8)) HostParams.default [1#8] .low State.reset).1
      = .error .tableLoadFailure := by decide +kernel
/-- R221, R228, R229: the sentinel, an input that is too long, and the wait for a fault that nobody acknowledges. -/
theorem test_encode_symbol :
    let run := fun bytes s => (encodeSymbol (some (flatTables 128 10 [26] 0)) HostParams.default bytes .low s).1
    run [] State.reset = .matrix [[false]] ∧ run (List.replicate 15 1#8) State.reset = .error .overflow
    ∧ run [1#8] (busyWith 0x11#32) = .waiting := by decide +kernel

/-! ### Witnesses: for every statement with hypotheses, inputs that meet them, each clause at its boundary values -/

/-- A state of a run in which NOP is in flight. -/
theorem busyNop_inv : Inv (busyWith (encode .nop)) := by
  have h := (good_resetWith (p := Params.default) (by decide)).afterAccept (encode .nop)
  exact { h with
    idle_phase := by simp [busyWith]
    idle_loops := by simp [busyWith]
    idle_ended := by simp [busyWith]
    ended_flags := by simp [busyWith]
    ended_counts := by simp [busyWith]
    busy_phase := by simp only [busyWith, accept_seq, Option.some.injEq]; rintro w rfl; decide
    busy_clean := fun _ => ⟨rfl, rfl⟩
    step_flags := fun _ => by decide }

theorem witness_ParameterRegisterFields : State.reset.params.legal = true ∧ ∃ t, step State.reset = .next t :=
  ⟨by decide, _, rfl⟩

theorem witness_ResetForgetsMemories : ∃ t, takeTurn .reset finalState = .next t := ⟨_, rfl⟩

theorem witness_StepKeepsInvariant :
    Inv (busyWith (encode .nop)) ∧ ∃ t, step (busyWith (encode .nop)) = .next t :=
  ⟨busyNop_inv, _, rfl⟩

theorem witness_DoneMarksCommandEnd :
    let s := busyWith (encode .nop)
    ∃ t, step s = .next t ∧ s.status.done = false ∧ t.status.done = true ∧ s.busy = true ∧ t.busy = false
      ∧ s.turns.head? ≠ some .reset := ⟨_, rfl, by decide⟩

theorem witness_FaultOnlyEndsCommand :
    let s := busyWith 0x11#32
    ∃ t, step s = .next t ∧ s.status.fault = false ∧ t.status.fault = true := ⟨_, rfl, by decide⟩

theorem witness_RunCompletesCommandInFlight : (busyWith (encode .clear)).busy = true := by decide

theorem witness_SequencerNeverWritesTables :
    (∃ t, runTurn (busyWith (encode .clear)) = .next t) ∧ (∃ t, bodyTurn (busyWith (encode .encodeAll)) = .next t)
    ∧ (∃ t, workTurn (busyWith (encode .place)) = .next t)
    ∧ ∃ t, abortTurn (aborting .place .place State.reset) = .next t := ⟨⟨_, rfl⟩, ⟨_, rfl⟩, ⟨_, rfl⟩, ⟨_, rfl⟩⟩

/-- The smallest and the largest word that is no command, and one beside an opcode. -/
theorem witness_IllegalWordFaults :
    State.reset.busy = false ∧ State.reset.status.fault = false
    ∧ (∀ i, 0x02#32 ≠ encode i) ∧ (∀ i, 0xFFFFFFFF#32 ≠ encode i) ∧ ∀ i, 0x51#32 ≠ encode i := by
  refine ⟨by decide, by decide, ?_, ?_, ?_⟩ <;> intro i <;> cases i <;> decide

/-- A step that has not ended, and one that has, in the first phase and the last. -/
theorem witness_StepRunsDecodedCommand :
    (busyWith 0x50#32).seq.inflight = some 0x50#32 ∧ decodeWord 0x50#32 = .ok .encodeAll ∧ (busyWith 0x50#32).turns = []
    ∧ { busyWith 0x50#32 with turns := [.run, .work] }.turns = .run :: [.work] ∧ (busyWith 0x50#32).seq.ended = false
    ∧ (∀ p ∈ [Phase.rs, .place, .score, .final], (endStep (aborting .encodeAll p State.reset)).seq.ended = true
        ∧ (endStep (aborting .encodeAll p State.reset)).seq.inflight = some 0x50#32
        ∧ (endStep (aborting .encodeAll p State.reset)).status.phase = p) := by decide

theorem witness_AcceptedCommandWrite :
    State.reset.busy = false ∧ State.reset.status.fault = false ∧ ∀ i, 0x02#32 ≠ encode i :=
  ⟨by decide, by decide, by intro i; cases i <;> decide⟩

/-- Busy without a fault, and a fault without a command in flight. -/
theorem witness_RefusedCommandWrite :
    (busyWith 0#32).busy = true ∧ (nextOr (runTurn (busyWith 0x11#32))).status.fault = true := by decide

/-- Offsets 2 and 0xFFFFF are misaligned; one strobe is cleared. -/
theorem witness_BusErrorAccesses :
    (0x00002#20).toNat % 4 ≠ 0 ∧ (0xFFFFF#20).toNat % 4 ≠ 0 ∧ (0x7#4 : BitVec 4) ≠ 0xF#4 ∧ (0xE#4 : BitVec 4) ≠ 0xF#4 := by
  decide

theorem witness_HostAccessesInProgramOrder :
    let s := { State.reset with host := [.read 0x00000#20, .read 0x00004#20] }
    s.params.busOrdered = true ∧ s.host = .read 0x00000#20 :: [.read 0x00004#20] := by decide

/-- Offsets 0x020 and 0xFFFFC and the misaligned 0x002 read; 0x000, 0x004, 0x010 and 0xFFFFC written, and CTRL and STATUS
with a cleared strobe. -/
theorem witness_BusyAccessesThatTakeEffect :
    (busyWith (encode .score)).busy = true ∧ 0x20 ≤ (0x00020#20).toNat ∧ 0x20 ≤ (0xFFFFC#20).toNat
    ∧ (0x00002#20).toNat % 4 ≠ 0 ∧ (0xE#4 : BitVec 4) ≠ 0xF#4 ∧ (0x7#4 : BitVec 4) ≠ 0xF#4
    ∧ ∀ off ∈ [0x00000#20, 0x00004#20, 0x00010#20, 0xFFFFC#20], off.toNat ≠ 0x008 ∧ off.toNat ≠ 0x00C := by
  simp only [List.forall_mem_cons, List.not_mem_nil, false_imp_iff, implies_true, and_true]
  decide +kernel

theorem witness_BusyHostChangesNoOperand : (busyWith (encode .place)).busy = true := by decide

theorem witness_HostAccessKeepsSequenceFlags :
    (∀ v strobes, BusAccess.writeWord 0x0000C#20 0xFFFFFFFF#32 ≠ .write 0x00010#20 v strobes)
    ∧ (∀ v strobes, BusAccess.writeWord 0x00014#20 0#32 ≠ .write 0x00010#20 v strobes)
    ∧ ∀ v strobes, BusAccess.read 0x00010#20 ≠ .write 0x00010#20 v strobes := by
  refine ⟨?_, ?_, ?_⟩ <;> intro v strobes <;> simp

/-- Each reserved range at its first and last word, at the default parameters. -/
theorem witness_ReservedAndReadOnlyLocations :
    (∀ o ∈ [0x04C, 0x0FC, 0x23C, 0x27C, 0x300, 0x3FC, 0x600, 0xFFFC, 0x14000, 0x1FFFC, 0x28000, 0x3FFFC, 0x60000, 0x7FFFC],
        (BitVec.ofNat 20 o).toNat = o ∧ o % 4 = 0 ∧ ReservedOffset Params.default o)
    ∧ (∀ m ∈ [0, 7], m < 8 ∧ ReservedOffset Params.default (0x118 + 0x20 * m)
        ∧ ReservedOffset Params.default (0x11C + 0x20 * m))
    ∧ (∀ c ∈ [(177, 0), (0, 177), (255, 255)], (0xC0000 + 4 * (256 * c.2 + c.1)) < 2 ^ 20
        ∧ ReservedOffset Params.default (0x80000 + 4 * (256 * c.2 + c.1))
        ∧ ReservedOffset Params.default (0xC0000 + 4 * (256 * c.2 + c.1)))
    ∧ State.reset.busy = false ∧ State.reset.params = Params.default
    ∧ (∀ off ∈ [0x00000#20, 0x00048#20], off.toNat % 4 = 0 ∧
        off.toNat ∈ [0x000, 0x004, 0x014, 0x018, 0x01C, 0x034, 0x038, 0x03C, 0x040, 0x044, 0x048])
    ∧ (∀ off ∈ [0x00100#20, 0x001FC#20], off.toNat % 4 = 0 ∧ 0x100 ≤ off.toNat ∧ off.toNat < 0x200)
    ∧ ∀ off ∈ [0xC0000#20, 0xFFFFC#20], off.toNat % 4 = 0 ∧ 0xC0000 ≤ off.toNat := by
  have cell : ∀ x y, x < 256 → y < 256 → (177 ≤ x ∨ 177 ≤ y) →
      ReservedOffset Params.default (0x80000 + 4 * (256 * y + x))
      ∧ ReservedOffset Params.default (0xC0000 + 4 * (256 * y + x)) := fun x y hx hy h => by
    unfold ReservedOffset
    constructor <;> iterate 9 right
    · exact ⟨x, hx, y, hy, h, .inl rfl⟩
    · exact ⟨x, hx, y, hy, h, .inr rfl⟩
  have pen : ∀ m < 8, ReservedOffset Params.default (0x118 + 0x20 * m)
      ∧ ReservedOffset Params.default (0x11C + 0x20 * m) := fun m hm =>
    ⟨.inr (.inl ⟨m, hm, .inl rfl⟩), .inr (.inl ⟨m, hm, .inr rfl⟩)⟩
  simp only [List.forall_mem_cons, List.not_mem_nil, false_imp_iff, implies_true, and_true]
  refine ⟨?_, ⟨⟨by decide, pen 0 (by decide)⟩, by decide, pen 7 (by decide)⟩,
    ⟨⟨by decide, cell 177 0 (by decide) (by decide) (by decide)⟩,
      ⟨by decide, cell 0 177 (by decide) (by decide) (by decide)⟩,
      by decide, cell 255 255 (by decide) (by decide) (by decide)⟩, by decide +kernel⟩
  simp [ReservedOffset, Params.default]

/-- The window bounds, and registers, table entries and cells that hold specified values at the first and the last offset. -/
theorem witness_OffsetsReadTheirContent :
    let s := { finalState with mem := { finalState.mem with plane := Machine.Matrix.zero 8, out := Machine.Matrix.zero 1 } }
    State.reset.busy = false ∧ State.reset.params.legal = true ∧ 0 < State.reset.params.blkDepth
    ∧ 127 < State.reset.params.blkDepth ∧ 4095 < State.reset.params.cwDepth ∧ 31 < State.reset.params.eccMax
    ∧ 32767 < State.reset.params.plDepth
    ∧ s.busy = false ∧ s.params.legal = true ∧ s.res.ndata = .known 0#16 ∧ s.res.ntotal = .known 0#16
    ∧ s.res.selMask = .known 3#3 ∧ s.res.fmtIndex = .known 0#5 ∧ s.res.fmtBits = .known 0#15
    ∧ (∀ m : Fin 8, s.res.pen[m] = Pen.zero)
    ∧ (∀ k ∈ [0, 256 * 176 + 176], s.mem.plane.read k = some 0#8 ∧ s.mem.out.read k = some 0#1)
    ∧ (let u := { State.reset with mem := { Memories.unspecified with
         blk := [(0, 1#8), (127, 2#8)], cw := [(0, 1#8), (4095, 2#8)], gf := [(0, 1#8), (8191, 2#8)],
         pl := [(0, 1#24), (32767, 2#24)], frame := [(0, 1#1), (45232, 0#1)], fmtC1 := [(0, 1#16), (14, 2#16)],
         fmtC2 := [(0, 1#16), (14, 2#16)], fmtTable := [(0, 1#15), (31, 2#15)] } }
       u.mem.blk.read 127 = some 2#8 ∧ u.mem.cw.read 4095 = some 2#8 ∧ u.mem.gf.read 8191 = some 2#8
       ∧ u.mem.pl.read 32767 = some 2#24 ∧ u.mem.frame.read 45232 = some 0#1 ∧ 45232 % 256 < 177 ∧ 45232 / 256 < 177
       ∧ u.mem.fmtC1.read 14 = some 2#16 ∧ u.mem.fmtC2.read 14 = some 2#16 ∧ u.mem.fmtTable.read 31 = some 2#15
       ∧ u.mem.blk.read 0 = some 1#8 ∧ u.busy = false ∧ u.params.legal = true) := by
  simp only [List.forall_mem_cons, List.not_mem_nil, false_imp_iff, implies_true, and_true]
  decide +kernel

/-- Neighbouring entries, and VERSION beside a register that is not SIDE. -/
theorem witness_WriteLeavesOtherLocations :
    State.reset.busy = false
    ∧ ∀ p ∈ [(0x00020#20, 0x00024#20), (0x00400#20, 0x00404#20), (0x0FFFC#20, 0x10000#20), (0xFFFFC#20, 0x00000#20)],
        p.1.toNat % 4 = 0 ∧ p.2.toNat % 4 = 0 ∧ p.1 ≠ p.2 ∧ p.1.toNat ∉ [0x008, 0x00C, 0x010]
        ∧ (p.1.toNat = 0x020 → p.2.toNat ≠ 0x034) := by
  simp only [List.forall_mem_cons, List.not_mem_nil, false_imp_iff, implies_true, and_true]
  decide +kernel

theorem witness_OperandReadsGiveWrittenValues :
    let s := { finalState with mem := { finalState.mem with
      cw := [(0, 7#8)], pl := [(0, 9#24)], gf := [(33, 5#8)], plane := Machine.Matrix.zero 8 } }
    s.mem.blk.read 0 = some 1#8 ∧ s.mem.cw.read 0 = some 7#8 ∧ s.mem.pl.read 0 = some 9#24
    ∧ s.mem.fmtC1.read 14 = some 0x080E#16 ∧ s.mem.fmtC2.read 14 = some 0x0A0E#16
    ∧ s.mem.fmtTable.read 11 = some 0x5B4B#15 ∧ s.mem.gf.read (1 * s.params.eccMax + 1) = some 5#8
    ∧ s.mem.plane.read (256 * 20 + 20) = some 0#8 ∧ s.mem.frame.read (256 * 20 + 20) = some 0#1 := by decide +kernel

theorem witness_CanonicalMemoriesEqual :
    let a : Mem 8 := [(1, 5#8), (4, 6#8)]
    Mem.wf a ∧ ∀ k, a.read k = Mem.read (Mem.write (Mem.write [] 4 6#8) 1 5#8) k := ⟨by decide, fun _ => rfl⟩

theorem witness_AbortEndsCommand :
    let s := aborting .score .score finalState
    s.seq.inflight = some 0x30#32 ∧ decodeWord 0x30#32 = .ok .score ∧ SequencePasses .score s ∧ s.seq.abortReq = true
    ∧ (busyWith 0x20#32).seq.inflight = some 0x20#32 ∧ decodeWord 0x20#32 = .ok .place
    ∧ SequencePasses .place (busyWith 0x20#32) ∧ (busyWith 0x20#32).seq.abortReq = false := by
  unfold SequencePasses
  decide

/-- An abort in every phase: in RS before any loop iteration, after one and after the step has ended, of ENCODE_ALL and of
RS_ENCODE, with a good and with a bad block list. -/
theorem witness_AbortLeavesUnspecified :
    let good := aborting .encodeAll .rs (rsState 2#8 [4#8] [1#8, 2#8])
    (∀ s ∈ [good, { good with seq := { good.seq with loops := 1 } }, endStep good, aborting .encodeAll .rs State.reset],
      SequencePasses .encodeAll s ∧ s.seq.inflight = some 0x50#32 ∧ s.seq.abortReq = true ∧ s.status.phase = .rs)
    ∧ (let single := endStep (aborting .rsEncode .rs (rsState 2#8 [4#8] [1#8, 2#8]))
       single.seq.inflight = some 0x10#32 ∧ decodeWord 0x10#32 = .ok .rsEncode ∧ SequencePasses .rsEncode single
       ∧ single.seq.abortReq = true ∧ single.status.phase = .rs ∧ BlocksPass single
       ∧ single.seq.ended = true ∧ single.res.ntotal = .known 0#16)
    ∧ (endStep good).seq.ended = true ∧ good.seq.ended = false
    ∧ decodeWord 0x50#32 = .ok .encodeAll ∧ BlocksPass good
    ∧ ¬BlocksPass (aborting .encodeAll .rs State.reset)
    ∧ (∀ p ∈ [Phase.place, .score, .final],
        (aborting .encodeAll p State.reset).seq.inflight = some 0x50#32 ∧ (aborting .encodeAll p State.reset).status.phase = p)
    ∧ (aborting .nop .ctrl State.reset).seq.inflight = some (encode .nop) ∧ decodeWord (encode .nop) = .ok .nop := by
  unfold BlocksPass LengthsLegal SequencePasses
  decide +kernel

theorem witness_AbortedClearPerRegister :
    let s := aborting .clear .ctrl finalState
    s.seq.inflight = some (encode .clear) ∧ s.status.phase = .ctrl ∧ s.seq.abortReq = true
    ∧ ∃ t, takeTurn .abort s = .next t := ⟨by decide, by decide, by decide, _, rfl⟩

/-- The largest ECC length and the largest total that pass, and a block with no data. -/
theorem witness_RsEncodeCompletes :
    BlocksPass (withBlocks 32#8 [33#8]) ∧ BlocksPass (withBlocks 1#8 (List.replicate 16 241#8 ++ [240#8]))
    ∧ total (withBlocks 1#8 (List.replicate 16 241#8 ++ [240#8])) = 4096 ∧ BlocksPass (withBlocks 3#8 [3#8]) := by
  unfold BlocksPass LengthsLegal
  decide +kernel

/-- The minimal load of P1: rows 1 and 3 are the ones the division reads. -/
theorem witness_CwEncoded : BlocksPass minimalRs ∧ eccTotal minimalRs ≤ total minimalRs ∧ RsTablesWritten minimalRs := by
  unfold BlocksPass LengthsLegal RsTablesWritten BlkWritten
  decide +kernel

/-- RS-F1, RS-F2, RS-F3, RS-F4, RS-F5 and RS-F6. -/
theorem witness_RsEncodeFaultsInOrder :
    eccLen (withBlocks 0#8 [4#8]) = 0 ∧ eccLen (withBlocks 33#8 [40#8]) > 32
    ∧ (withBlocks 2#8 []).cfg.nblocks.toNat = 0
    ∧ (withBlocks 2#8 (List.replicate 129 4#8)).cfg.nblocks.toNat > (withBlocks 2#8 []).params.blkDepth
    ∧ (let s := withBlocks 3#8 [5#8, 2#8, 1#8]
       LengthsLegal s ∧ (blkAt s s.draws 1).toNat < eccLen s ∧ ∀ b' < 1, eccLen s ≤ (blkAt s s.draws b').toNat)
    ∧ (let s := withBlocks 1#8 (List.replicate 17 255#8)
       LengthsLegal s ∧ (∀ k ∈ sizes s, eccLen s ≤ k) ∧ total s > s.params.cwDepth) := by
  unfold LengthsLegal
  decide +kernel

theorem witness_RegisterDivisionIsLongDivision :
    let gf := fun c : Byte => [c, c]
    1 ≤ 2 ∧ ∀ f, (gf f).length = 2 := ⟨by decide, fun _ => rfl⟩

theorem witness_DivisionIsLinear :
    let gf := fun c : Byte => [c, c]
    1 ≤ 2 ∧ (∀ f, (gf f).length = 2) ∧ (∀ a b, gf (a ^^^ b) = List.zipWith (· ^^^ ·) (gf a) (gf b))
    ∧ [1#8, 2#8].length = [3#8, 0#8].length := ⟨by decide, fun _ => rfl, fun _ _ => rfl, rfl⟩

/-- The operands of PL-1, with the last cell of row 0 at the side's edge too. -/
theorem witness_PlaceCompletes :
    let s := placeState 0x80#8 (rowEntries 0#8)
    let e := placeState 0x80#8 (rowEntries 0#8 ++ [0x000014#24])
    VersionLegal s ∧ BlocksPass s ∧ bitTotal s ≤ s.params.plDepth ∧ PlacementLegal s ∧ Inside e (plAt e e.draws 8)
    ∧ PlWritten s ∧ Names s 7 7 0 := by
  unfold VersionLegal BlocksPass LengthsLegal PlacementLegal Inside PlWritten Names
  decide +kernel

/-- PL-8 at 0 and 41, the block list's faults, PL-7, PL-6. -/
theorem witness_PlaceFaultsInOrder :
    (∀ v ∈ [0#6, 41#6], ¬VersionLegal { State.reset with cfg := { State.reset.cfg with version := v } })
    ∧ VersionLegal (withBlocks 0#8 [4#8]) ∧ eccLen (withBlocks 0#8 [4#8]) = 0
    ∧ VersionLegal (withBlocks 2#8 []) ∧ (withBlocks 2#8 []).cfg.nblocks.toNat = 0
    ∧ (let s := withBlocks 3#8 [5#8, 2#8, 1#8]
       VersionLegal s ∧ LengthsLegal s ∧ (blkAt s s.draws 1).toNat < eccLen s)
    ∧ (let s := withBlocks 1#8 (List.replicate 17 255#8)
       VersionLegal s ∧ LengthsLegal s ∧ total s > s.params.cwDepth)
    ∧ (let s := { withBlocks 1#8 (List.replicate 16 241#8 ++ [240#8]) with
         cfg := { (withBlocks 1#8 (List.replicate 17 0#8)).cfg with rembits := 1#3 } }
       VersionLegal s ∧ BlocksPass s ∧ bitTotal s = 32769 ∧ bitTotal s > s.params.plDepth)
    ∧ (let s := placeState 0x80#8 [0#24, 1#24, 2#24, 3#24, 4#24, 21#24, 0x1900#24, 7#24]
       VersionLegal s ∧ BlocksPass s ∧ bitTotal s ≤ s.params.plDepth ∧ ¬Inside s (plAt s s.draws 5)
       ∧ ∀ i' < 5, Inside s (plAt s s.draws i')) := by
  unfold VersionLegal BlocksPass LengthsLegal Inside
  decide +kernel

/-- Versions 1 and 40. -/
theorem witness_ScoreCompletes :
    ∀ v ∈ [1#6, 40#6],
      let s := { finalState with cfg := { finalState.cfg with version := v } }
      s.status.flags.placed = true ∧ VersionLegal s := by
  unfold VersionLegal
  decide

theorem witness_ScoreFaultsInOrder :
    State.reset.status.flags.placed = false
    ∧ ∀ v ∈ [0#6, 41#6],
        let s := { finalState with cfg := { finalState.cfg with version := v } }
        s.status.flags.placed = true ∧ ¬VersionLegal s := by
  unfold VersionLegal
  decide

theorem witness_N3CountsOccurrences :
    let rs := [(true, 1), (false, 1), (true, 3), (false, 1), (true, 1)]
    ∀ r, r ∈ ({2} : Finset Nat) ↔ OccursAt rs r := by
  intro rs r
  simp only [Finset.mem_singleton]
  constructor
  · rintro rfl
    exact ⟨(true, 1), (false, 1), (true, 3), (false, 1), (true, 1), by decide⟩
  · rintro ⟨a, b, c, d, e, h2, -, -, -, -, he, -⟩
    have := (List.getElem?_eq_some_iff.1 he).1
    simp only [rs, List.length_cons, List.length_nil] at this
    omega

/-- D = 198 lies in band 1 and D = 199 in band 0 (T = 441). -/
theorem witness_N4CountsBands :
    Params.default.n4Rule = .exactBands ∧ (0 < 441 ∧ 198 ≤ 441)
    ∧ ((1 * 441 : Int) ≤ |20 * 198 - 10 * 441| ∧ |20 * (198 : Int) - 10 * 441| < (1 + 1) * 441)
    ∧ ((0 * 441 : Int) ≤ |20 * 199 - 10 * 441| ∧ |20 * (199 : Int) - 10 * 441| < (0 + 1) * 441)
    ∧ (0 = 0 ∨ 0 = 441) ∧ (441 = 0 ∨ 441 = 441) := by
  refine ⟨rfl, by decide, ?_, ?_, by decide, by decide⟩ <;> norm_num

/-- S = 1 and S = 177. -/
theorem witness_PenaltyBounds :
    (∀ S ∈ [1, 177], 1 ≤ S ∧ S ≤ 177) ∧ Params.default.n3Rule = .ratioRuns ∧ Params.default.n4Rule = .exactBands
    ∧ Params.default.n4Weight ≤ 2 ^ 20 ∧ Params.default.n4Weight = 10 := by decide

theorem witness_FinalizeCompletes :
    finalState.status.flags.scored = true ∧ VersionLegal finalState ∧ finalState.res.selMask = .known 3#3
    ∧ FormatLegal finalState ∧ FmtWritten finalState ∧ Names1 finalState 14 14 8 ∧ Names2 finalState 0 0 10 := by
  unfold VersionLegal FormatLegal FmtWritten Inside Names1 Names2
  decide +kernel

/-- A bad coordinate at the last index of each region. -/
theorem witness_FinalizeFaultsInOrder :
    State.reset.status.flags.scored = false
    ∧ (let s := { finalState with cfg := { finalState.cfg with version := 41#6 } }
       s.status.flags.scored = true ∧ ¬VersionLegal s)
    ∧ (let s := { finalState with
         mem := { finalState.mem with fmtC1 := Mem.write finalState.mem.fmtC1 14 0x0815#16 } }
       s.status.flags.scored = true ∧ VersionLegal s ∧ ¬Inside s (fmtC1At s s.draws 14)
       ∧ ∀ k' < 14, Inside s (fmtC1At s s.draws k'))
    ∧ (let s := { finalState with
         mem := { finalState.mem with fmtC2 := Mem.write finalState.mem.fmtC2 14 0x1508#16 } }
       VersionLegal s ∧ (∀ k < 15, Inside s (fmtC1At s s.draws k)) ∧ ¬Inside s (fmtC2At s s.draws 14)
       ∧ ∀ k' < 14, Inside s (fmtC2At s s.draws k')) := by
  unfold VersionLegal Inside
  decide +kernel

/-- The load of R281, with FMT_TABLE written at every index that a SEL_MASK value gives. -/
theorem witness_EncodeAllCompletes :
    allState.status.phase = .rs ∧ VersionLegal allState ∧ BlocksPass allState
    ∧ bitTotal allState ≤ allState.params.plDepth ∧ PlacementLegal allState ∧ FormatLegal allState
    ∧ BlkWritten allState ∧ PlWritten allState ∧ FmtWritten allState ∧ RsTablesWritten allState ∧ FrameWritten allState
    ∧ ∀ mask : BitVec 3, (allState.mem.fmtTable.read (formatIdx allState mask)).isSome := by
  unfold VersionLegal BlocksPass LengthsLegal PlacementLegal FormatLegal RsTablesWritten BlkWritten PlWritten FmtWritten
    FrameWritten Inside
  decide +kernel

/-- FINALIZE run after a SCORE that succeeds ends without a fault where its coordinates are legal. -/
theorem score_finalize_no_fault {s : State} (hf : s.status.fault = false) (hp : s.status.flags.placed = true)
    (hv : versionOk s = true)
    (hc : badFormatCoord (sideOf s.cfg.version) (formatCoords1 s (s.draws + 8)) (formatCoords2 s (s.draws + 8)) = none) :
    (issue .score s).status.fault = false ∧ (issue .finalize (issue .score s)).status.fault = false := by
  have h1 : issue .score s = complete (succeedStep .score (advanceDraws 8 (writeScores
      (candidateScores (accept (encode .score) s)) (startStep .score (accept (encode .score) s))))) := by
    rcases scoreBody_cases (accept (encode .score) s) with ⟨h, -⟩ | ⟨-, h, -⟩ | ⟨-, -, h⟩
    · rw [show (accept (encode .score) s).status.flags.placed = s.status.flags.placed from rfl, hp] at h; cases h
    · rw [show versionOk (accept (encode .score) s) = versionOk s from rfl, hv] at h; cases h
    · simp [issue, exec, execScore, h]
  generalize candidateScores (accept (encode .score) s) = z at h1
  refine ⟨by rw [h1]; simpa using hf, ?_⟩
  rcases finalizeBody_cases (accept (encode .finalize) (issue .score s)) with
    ⟨h, -⟩ | ⟨-, h, -⟩ | ⟨-, -, ⟨k, h, -⟩ | ⟨-, h⟩⟩
  · rw [h1] at h; cases h
  · rw [h1] at h
    change versionOk s = false at h
    rw [hv] at h; cases h
  · rw [h1] at h
    change badFormatCoord (sideOf s.cfg.version) (formatCoords1 s (s.draws + 8)) (formatCoords2 s (s.draws + 8)) = _ at h
    rw [hc] at h; cases h
  · have : (issue .finalize (issue .score s)).status.fault = (issue .score s).status.fault := by
      generalize issue .score s = u at h ⊢
      simp [issue, exec, execFinalize, h]
    rw [this, h1]; simpa using hf

theorem witness_EncodeAllIsTheFourCommands :
    let s1 := issue .rsEncode allState
    let s2 := issue .place s1
    let s3 := issue .score s2
    allState.status.fault = false ∧ s1.status.fault = false ∧ s2.status.fault = false ∧ s3.status.fault = false
    ∧ (issue .finalize s3).status.fault = false
    ∧ ∃ t, exec .encodeAll (accept (encode .encodeAll) allState) = .next t := by
  have h2 : (issue .rsEncode allState).status.fault = false
      ∧ (issue .place (issue .rsEncode allState)).status.fault = false
      ∧ (issue .place (issue .rsEncode allState)).status.flags.placed = true
      ∧ versionOk (issue .place (issue .rsEncode allState)) = true
      ∧ badFormatCoord (sideOf (issue .place (issue .rsEncode allState)).cfg.version)
          (formatCoords1 (issue .place (issue .rsEncode allState)) ((issue .place (issue .rsEncode allState)).draws + 8))
          (formatCoords2 (issue .place (issue .rsEncode allState)) ((issue .place (issue .rsEncode allState)).draws + 8))
        = none := by decide +kernel
  have h := score_finalize_no_fault h2.2.1 h2.2.2.1 h2.2.2.2.1 h2.2.2.2.2
  exact ⟨by decide, h2.1, h2.2.1, h.1, h.2, _, rfl⟩

/-- ENCODE_ALL at its first and its last step, an ended step, an ILLEGAL word, and a body that leaves the command in
flight. -/
theorem witness_CommandsBodyByBody :
    (busyWith 0x50#32).seq.inflight = some (encode .encodeAll)
    ∧ (aborting .encodeAll .final State.reset).seq.inflight = some (encode .encodeAll)
    ∧ (endStep (busyWith 0x50#32)).seq.inflight = some 0x50#32 ∧ (busyWith 0x11#32).seq.inflight = some 0x11#32
    ∧ (let s := accept 0x20#32 (placeState 0x80#8 (rowEntries 0#8))
       s.seq.ended = false ∧ phaseAllowed 0x20#32 s.status.phase = true
       ∧ ∃ t, bodyTurn s = .next t ∧ t.busy = true ∧ t.status.phase = .place) :=
  ⟨by decide, by decide, by decide, by decide, by decide, by decide, _, rfl, by decide +kernel, by decide +kernel⟩

/-- A fault in RS and one in PLACE. -/
theorem witness_EncodeAllFaultRecord :
    (let s := busyWith 0x50#32
     s.status.phase = .rs ∧ s.status.fault = false ∧ ∃ t, exec .encodeAll s = .next t ∧ t.status.fault = true
       ∧ t.err.phase = 2#3)
    ∧ (let s := { allState with cfg := { allState.cfg with version := 41#6 } }
       s.status.phase = .rs ∧ s.status.fault = false ∧ ∃ t, exec .encodeAll s = .next t ∧ t.status.fault = true
         ∧ t.err.phase = 3#3) :=
  ⟨⟨by decide, by decide, _, rfl, by decide⟩, ⟨by decide, by decide, _, rfl, by decide +kernel⟩⟩

/-- States that differ in entries no command reads: CW[NTOTAL], row 0 and entry ECCLEN of GF, BLK[NBLOCKS], PL[B], cells
outside S × S, another string, and registers of other rows. -/
def elsewhere (s : State) : State :=
  { s with
    ctrl := ⟨true, true, true⟩
    res := { s.res with ntotal := .unspecified, fmtBits := .unspecified }
    mem := { s.mem with
      blk := Mem.write s.mem.blk s.cfg.nblocks.toNat 7#8
      cw := Mem.write s.mem.cw (total s) 7#8
      gf := Mem.write (Mem.write s.mem.gf 0 9#8) (32 + eccLen s) 9#8
      pl := Mem.write s.mem.pl (bitTotal s) 7#24
      frame := Mem.write s.mem.frame (256 * 21) 1#1
      fmtTable := Mem.write s.mem.fmtTable 12 1#15 } }

/-- A successful run of each command on two states that differ outside the entries it reads. -/
theorem witness_CommandsReadOnlyTheirOperands :
    let rs := rsState 2#8 [4#8] [1#8, 2#8]
    let pl := placeState 0x80#8 (rowEntries 0#8)
    rs ≠ elsewhere rs ∧ pl ≠ elsewhere pl ∧ finalState ≠ elsewhere finalState
    ∧ RsOperandsAgree rs (elsewhere rs) ∧ PlaceOperandsAgree pl (elsewhere pl)
    ∧ ScoreOperandsAgree finalState (elsewhere finalState) ∧ FinalizeOperandsAgree finalState (elsewhere finalState)
    ∧ (∀ s ∈ [rs, pl, finalState], s.params = (elsewhere s).params ∧ s.draws = (elsewhere s).draws)
    ∧ (∀ i s, (∃ t, exec i s = .next t) ∧ ∃ t', exec i (elsewhere s) = .next t') := by
  have hne : ∀ s : State, s.ctrl.ieDone = false → s ≠ elsewhere s := fun s hs h => by
    have := congrArg (fun x => x.ctrl.ieDone) h
    rw [hs] at this; cases this
  have hm : ModulesAgree finalState (elsewhere finalState) :=
    ⟨rfl, fun _ _ _ _ _ => rfl, fun _ x hx y hy => by
      rw [show (elsewhere finalState).mem.frame = Mem.write finalState.mem.frame (256 * 21) 1#1 from rfl,
        Mem.read_write_other]
      have hs : side finalState = 21 := by decide
      omega⟩
  refine ⟨hne _ rfl, hne _ rfl, hne _ rfl, ⟨⟨rfl, rfl, by decide +kernel⟩, fun _ => ?_, fun _ c h1 h2 j hj => ?_⟩,
    ⟨rfl, rfl, ⟨rfl, rfl, by decide +kernel⟩, fun _ => ?_, fun _ _ => ?_⟩, ⟨rfl, hm⟩,
    ⟨rfl, hm, rfl, rfl, fun _ _ => ⟨rfl, rfl⟩, by decide +kernel⟩, fun _ _ => ⟨rfl, rfl⟩,
    fun i s => ⟨exec_next i s, exec_next i _⟩⟩
  · decide +kernel
  · have he : eccLen (rsState 2#8 [4#8] [1#8, 2#8]) = 2 := by decide
    have hp : (rsState 2#8 [4#8] [1#8, 2#8]).params.eccMax = 32 := by decide
    rw [he] at hj
    rw [show (elsewhere (rsState 2#8 [4#8] [1#8, 2#8])).mem.gf
      = Mem.write (Mem.write (rsState 2#8 [4#8] [1#8, 2#8]).mem.gf 0 9#8) 34 9#8 from rfl, hp,
      Mem.read_write_other _ _ (by omega), Mem.read_write_other _ _ (by omega)]
  · decide +kernel
  · decide +kernel

/-- L1.9's first fields, and a field of width 0. -/
theorem witness_PackingRoundTrip : ∀ f ∈ [(4, 4), (11, 8), (0x4D, 8), (0, 4), (0, 0)], f.1 < 2 ^ f.2 := by decide

/-- Tables whose capacity is filled exactly, and tables with a block smaller than its ECC codewords. -/
theorem witness_PackedStreamFillsData :
    (∀ tp ∈ [flatTables 128 10 [26] 0, flatTables 120 10 [5, 30] 0], tablesConsistent tp = true
      ∧ selectVersion tp HostParams.default 1#2 [1#8, 2#8].length = some 1) := by
  simp only [List.forall_mem_cons, List.not_mem_nil, false_imp_iff, implies_true, and_true]
  decide +kernel

end Sys2Proof.Tests
end

namespace Sys2Proof.Machine

/-! ### The parameter registers (R24) -/

/-- The high field of a concatenation counts multiples of the low field's range. -/
theorem toNat_append_eq_add {m n : Nat} (hi : BitVec m) (lo : BitVec n) :
    (hi ++ lo).toNat = hi.toNat * 2 ^ n + lo.toNat := by
  rw [BitVec.toNat_append, ← Nat.shiftLeft_add_eq_or_of_lt lo.isLt, Nat.shiftLeft_eq]

/-- Legal parameters fit the fields that report them (R6, R24). -/
theorem Params.legal_fits_fields {p : Params} (h : p.legal = true) :
    p.cwDepth < 2 ^ 16 ∧ p.blkDepth < 2 ^ 8 ∧ p.eccMax < 2 ^ 8 ∧ p.plDepth < 2 ^ 17 := by
  simp only [Params.legal, Bool.and_eq_true, decide_eq_true_eq] at h
  omega

theorem params0Word_toNat {p : Params} (h : p.legal = true) :
    (params0Word p).toNat = p.cwDepth * 2 ^ 16 + p.blkDepth * 2 ^ 8 + p.eccMax := by
  obtain ⟨hcw, hblk, hecc, -⟩ := Params.legal_fits_fields h
  simp only [params0Word, toNat_append_eq_add, BitVec.toNat_ofNat, Nat.mod_eq_of_lt hcw, Nat.mod_eq_of_lt hblk,
    Nat.mod_eq_of_lt hecc]
  omega

theorem params1Word_toNat {p : Params} (h : p.legal = true) :
    (params1Word p).toNat = 177 * 2 ^ 24 + p.plDepth := by
  obtain ⟨-, -, -, hpl⟩ := Params.legal_fits_fields h
  simp only [params1Word, toNat_append_eq_add, BitVec.toNat_ofNat, Nat.mod_eq_of_lt hpl, Config.maxSide]
  omega

/-! ### The bodies keep the parameters -/

/-- The state a body ends in, by success or by fault. -/
def Body.state : Body → State
  | .done s => s
  | .raise _ _ s => s

@[simp] theorem Body.state_done (s : State) : (Body.done s).state = s := rfl

@[simp] theorem Body.state_raise (c : FaultCode) (i : Word) (s : State) : (Body.raise c i s).state = s := rfl

@[simp] theorem Body.finish_params (w : Word) (b : Body) : (b.finish w).params = b.state.params := by
  cases b with
  | done s => exact complete_params s
  | raise c i s => exact takeFault_params c i w s

@[simp] theorem Body.pause_params (w : Word) (b : Body) : (b.pause w).params = b.state.params := by
  cases b with
  | done s => exact endStep_params s
  | raise c i s => exact takeFault_params c i w s

/-- A chain keeps the parameters where its second body does, whether or not the first one succeeds (R121). -/
theorem Body.andThen_state_params {b : Body} {f : State → Body} (hf : ∀ s, (f s).state.params = s.params) :
    (b.andThen f).state.params = b.state.params := by
  cases b with
  | done s => exact hf s
  | raise c i s => rfl

@[simp] theorem nopBody_state_params (s : State) : (nopBody s).state.params = s.params := rfl

@[simp] theorem clearBody_state_params (s : State) : (clearBody s).state.params = s.params := rfl

@[simp] theorem rsBody_state_params (s : State) : (rsBody s).state.params = s.params := by
  rcases rsBody_cases s with ⟨_, _, -, hb⟩ | ⟨_, -, hb⟩ <;> simp [hb]

@[simp] theorem placeBody_state_params (s : State) : (placeBody s).state.params = s.params := by
  rcases placeBody_cases s with ⟨-, hb⟩ | ⟨-, _, _, -, hb⟩ | ⟨-, _, -, ⟨-, hb⟩ | ⟨-, _, -, hb⟩ | ⟨-, -, hb⟩⟩ <;>
    simp [hb]

@[simp] theorem scoreBody_state_params (s : State) : (scoreBody s).state.params = s.params := by
  rcases scoreBody_cases s with ⟨-, hb⟩ | ⟨-, -, hb⟩ | ⟨-, -, hb⟩ <;> simp [hb]

@[simp] theorem finalizeBody_state_params (s : State) : (finalizeBody s).state.params = s.params := by
  rcases finalizeBody_cases s with ⟨-, hb⟩ | ⟨-, -, hb⟩ | ⟨-, -, ⟨_, -, hb⟩ | ⟨-, hb⟩⟩ <;> simp [hb]

/-- ENCODE_ALL keeps the parameters from whatever step it goes on (R121). -/
@[simp] theorem encodeAllFrom_state_params (p : Phase) (s : State) : (encodeAllFrom p s).state.params = s.params := by
  cases p <;> simp [encodeAllFrom, Body.andThen_state_params]

@[simp] theorem encodeAllBody_state_params (s : State) : (encodeAllBody s).state.params = s.params := by
  unfold encodeAllBody; split <;> simp

@[simp] theorem stepBody_state_params (w : Word) (s : State) : (stepBody w s).state.params = s.params := by
  unfold stepBody; split <;> simp

/-! ### The commands and the turns keep the parameters -/

theorem exec_params {i : Instr} {s t : State} (h : exec i s = .next t) : t.params = s.params := by
  cases i <;>
    simp only [exec, execNop, execClear, execRsEncode, execPlace, execScore, execFinalize, execEncodeAll,
      Host.Outcome.next.injEq] at h <;>
    subst h <;> simp

theorem runWord_params {w : Word} {s t : State} (h : runWord w s = .next t) : t.params = s.params := by
  unfold runWord at h
  split at h
  · exact exec_params h
  · cases h; exact takeFault_params ..

theorem runTurn_params {s t : State} (h : runTurn s = .next t) : t.params = s.params := by
  unfold runTurn runRest at h
  split at h
  · next w _ =>
    split at h
    · split at h
      · next p _ => exact (runWord_params h).trans (startStep_params p s)
      · cases h; exact complete_params s
    · exact runWord_params h
  · cases h; rfl

theorem afterBody_params (w : Word) (s : State) : (afterBody w s).params = s.params := by
  unfold afterBody; split <;> simp

theorem bodyTurn_params {s t : State} (h : bodyTurn s = .next t) : t.params = s.params := by
  unfold bodyTurn at h
  split at h <;> cases h
  · split <;> simp [afterBody_params]
  · rfl

theorem workTurn_params {s t : State} (h : workTurn s = .next t) : t.params = s.params := by
  unfold workTurn at h
  split at h <;> cases h <;> rfl

theorem takeAbort_params (w : Word) (s : State) : (takeAbort w s).params = s.params := by simp [takeAbort]

theorem abortTurn_params {s t : State} (h : abortTurn s = .next t) : t.params = s.params := by
  cases hw : s.seq.inflight with
  | none =>
    rw [(turns_idle hw).2.2.2] at h
    cases h; rfl
  | some w =>
    rcases abortTurn_cases hw with ⟨_, -, ha⟩ | ⟨-, -, ha⟩ | ⟨-, -, ha⟩ <;> rw [ha] at h <;> cases h
    · exact takeFault_params ..
    · exact takeAbort_params w s
    · rfl

/-- No location a host can write holds a parameter (R24, R65). -/
@[simp] theorem writeLoc_params (v : Word) (s : State) (l : Loc) : (writeLoc v s l).params = s.params := by
  cases l with
  | status => exact writeStatus_params v s
  | _ => rfl

@[simp] theorem busAccess_params (a : BusAccess) (s : State) : (busAccess a s).params = s.params := by
  rcases busAccess_cases a s with hb | ⟨_, -, -, hb⟩ | ⟨_, _, _, -, -, hb⟩ <;> simp [hb]

theorem hostTurn_params {k : Nat} {s t : State} (h : hostTurn k s = .next t) : t.params = s.params := by
  unfold hostTurn at h
  split at h <;> cases h
  · exact busAccess_params ..
  · rfl

theorem takeTurn_params {u : Turn} {s t : State} (h : takeTurn u s = .next t) : t.params = s.params := by
  cases u with
  | host k => exact hostTurn_params h
  | run => exact runTurn_params h
  | body => exact bodyTurn_params h
  | work => exact workTurn_params h
  | abort => exact abortTurn_params h
  | reset => cases h; exact applyReset_params s

/-- No step changes a parameter (R24). -/
theorem step_params {s t : State} (h : step s = .next t) : t.params = s.params := by
  unfold step stepTurn at h
  split at h
  · exact (takeTurn_params h).trans rfl
  · split at h
    · exact runTurn_params h
    · exact hostTurn_params h

/-- Settles O2: the words of the two registers are computed field by field from parameters that fit, and each of the
six turns a step can take keeps the parameters. -/
theorem parameterRegisterFields : Obligations.ParameterRegisterFields := by
  intro s
  exact ⟨fun hp => ⟨params0Word_toNat hp, params1Word_toNat hp⟩, fun _ => step_params⟩

end Sys2Proof.Machine

namespace Sys2Proof.Machine

open Sys2Proof.Claims

/-! ### Which accesses take effect (R63 to R67, R111) -/

theorem readAllowed_iff {s : State} {off : Offset} :
    readAllowed s off = true ↔ off.toNat % 4 = 0 ∧ (s.busy = false ∨ off.toNat < 0x20) := by
  simp [readAllowed, aligned_iff]

theorem writeAllowed_iff {s : State} {off : Offset} {strobes : BitVec 4} :
    writeAllowed s off strobes = true ↔
      off.toNat % 4 = 0 ∧ strobes = 0xF#4 ∧ (s.busy = false ∨ off.toNat = 0x008 ∨ off.toNat = 0x00C)
        ∧ (off.toNat = 0x010 → s.status.fault = false) := by
  simp [writeAllowed, aligned_iff, ← BitVec.toNat_inj, and_assoc, or_assoc, imp_iff_not_or]

theorem busAccess_read_allowed {s : State} {off : Offset} (h : readAllowed s off = true) :
    busAccess (.read off) s = respond (readLoc s s.draws (locate s.params off.toNat)) (advanceDraws 1 s) := if_pos h

theorem busAccess_read_refused {s : State} {off : Offset} (h : ¬ readAllowed s off = true) :
    busAccess (.read off) s = busError s := if_neg h

theorem busAccess_write_allowed {s : State} {off : Offset} {v : Word} {strobes : BitVec 4}
    (h : writeAllowed s off strobes = true) :
    busAccess (.write off v strobes) s = respond 0#32 (writeLoc v s (locate s.params off.toNat)) := if_pos h

theorem busAccess_write_refused {s : State} {off : Offset} {v : Word} {strobes : BitVec 4}
    (h : ¬ writeAllowed s off strobes = true) : busAccess (.write off v strobes) s = busError s := if_neg h

/-- Settles O17: neither access is among those that take effect, and every other access is the bus error of R67. -/
theorem busErrorAccesses : Obligations.BusErrorAccesses := by
  intro s off v strobes
  refine ⟨fun hmis => ⟨?_, ?_⟩, fun hcleared => ?_⟩
  · refine busAccess_read_refused fun h => ?_
    obtain ⟨h4, -⟩ := readAllowed_iff.1 h
    exact hmis h4
  · refine busAccess_write_refused fun h => ?_
    obtain ⟨h4, -⟩ := writeAllowed_iff.1 h
    exact hmis h4
  · refine busAccess_write_refused fun h => ?_
    obtain ⟨-, hall, -⟩ := writeAllowed_iff.1 h
    exact hcleared hall

/-! ### The registers readable at any time (R22 to R29, R66) -/

/-- A read that takes effect answers the word of the location its number names. -/
theorem readsAs_readLoc {s : State} {o : Nat} (ho : o < 2 ^ 20) (h4 : o % 4 = 0) (hb : s.busy = false ∨ o < 0x20) :
    ReadsAs s o (readLoc s s.draws (locate s.params o)) := by
  have hn : (BitVec.ofNat 20 o).toNat = o := by rw [BitVec.toNat_ofNat, Nat.mod_eq_of_lt ho]
  have ha : readAllowed s (BitVec.ofNat 20 o) = true := by rw [readAllowed_iff, hn]; exact ⟨h4, hb⟩
  rw [ReadsAs, hostRead, busAccess_read_allowed ha, hn, respond_resp]

/-- The eight registers below 0x020 answer whether or not a command is in flight. -/
theorem readsAs_low {s : State} {o : Nat} {w : Word} (h : readLoc s s.draws (locate s.params o) = w)
    (ho : o < 0x20 := by decide) (h4 : o % 4 = 0 := by decide) : ReadsAs s o w :=
  h ▸ readsAs_readLoc (by omega) h4 (.inr ho)

/-- A word is the literal of its numeric value. -/
theorem eq_ofNat_of_toNat {w n : Nat} {x : BitVec w} (h : x.toNat = n) : x = BitVec.ofNat w n := by
  rw [← h, BitVec.ofNat_toNat, BitVec.setWidth_eq]

theorem errWord_toNat (e : ErrRegs) :
    e.word.toNat = e.code.toNat + e.cmd.toNat * 2 ^ 8 + e.phase.toNat * 2 ^ 16 := by
  simp only [ErrRegs.word, toNat_append_eq_add, BitVec.toNat_ofNat]
  omega

theorem toNat_ofBool_eq_bit (b : Bool) : (BitVec.ofBool b).toNat = bit b := by cases b <;> rfl

theorem readLoc_ctrl_toNat (s : State) (d : Nat) :
    (readLoc s d .ctrl).toNat = bit s.ctrl.ieDone + bit s.ctrl.ieFault * 2 + bit s.ctrl.ieBuserr * 2 ^ 2 := by
  simp only [readLoc, toNat_append_eq_add, toNat_ofBool_eq_bit, BitVec.toNat_ofNat]
  omega

/-- In every state the eight registers answer with their fields in place. -/
theorem lowRegistersRead (s : State) : LowRegistersRead s := by
  refine ⟨readsAs_low rfl, fun hp => ⟨?params0, ?params1⟩, ⟨_, readsAs_low rfl⟩, ⟨_, readsAs_low rfl⟩, ?ctrl,
    readsAs_low rfl, readsAs_low rfl, ?err, readsAs_low rfl⟩
  case params0 => exact readsAs_low (eq_ofNat_of_toNat (params0Word_toNat hp))
  case params1 => exact readsAs_low (eq_ofNat_of_toNat (params1Word_toNat hp))
  case ctrl => exact readsAs_low (eq_ofNat_of_toNat (readLoc_ctrl_toNat s s.draws))
  case err => exact readsAs_low (eq_ofNat_of_toNat (errWord_toNat s.err))

/-! ### Accesses while BUSY = 1 (R66) -/

/-- A whole write of CTRL takes effect in every state (R66). -/
theorem hostWrite_ctrl (s : State) (v : Word) : hostWrite 0x008 v s = respond 0#32 (writeCtrl v s) :=
  busAccess_write_allowed (writeAllowed_iff.2 ⟨rfl, rfl, .inr (.inl rfl), fun h => absurd h (by decide)⟩)

/-- A whole write of STATUS takes effect in every state (R66). -/
theorem hostWrite_status (s : State) (v : Word) : hostWrite 0x00C v s = respond 0#32 (writeStatus v s) :=
  busAccess_write_allowed (writeAllowed_iff.2 ⟨rfl, rfl, .inr (.inr rfl), fun h => absurd h (by decide)⟩)

/-- With BUSY = 1 a read past the eight registers, or of a misaligned offset, is a bus error (R64, R66). -/
theorem busAccess_read_busy {s : State} {off : Offset} (hb : s.busy = true)
    (ho : 0x20 ≤ off.toNat ∨ off.toNat % 4 ≠ 0) : busAccess (.read off) s = busError s := by
  refine busAccess_read_refused fun h => ?_
  rw [readAllowed_iff, hb] at h
  obtain ⟨h4, h | h⟩ := h
  · cases h
  · omega

/-- With BUSY = 1 only a whole write of CTRL or of STATUS is no bus error (R63, R66). -/
theorem busAccess_write_busy {s : State} {off : Offset} {v : Word} {strobes : BitVec 4} (hb : s.busy = true)
    (ho : (off.toNat ≠ 0x008 ∧ off.toNat ≠ 0x00C) ∨ strobes ≠ 0xF#4) :
    busAccess (.write off v strobes) s = busError s := by
  refine busAccess_write_refused fun h => ?_
  rw [writeAllowed_iff, hb] at h
  obtain ⟨-, hs, h | h, -⟩ := h
  · cases h
  · obtain ho | ho := ho
    · omega
    · exact ho hs

/-- Settles O19: the eight registers and the two writes take effect in every state, and with BUSY = 1 no other access is
among those that do. -/
theorem busyAccessesThatTakeEffect : Obligations.BusyAccessesThatTakeEffect := fun s _ v _ hb =>
  ⟨lowRegistersRead s, hostWrite_ctrl s v, hostWrite_status s v, busAccess_read_busy hb, busAccess_write_busy hb⟩

/-! ### The windows of the address map (R22, R60) -/

section
variable {p : Params} {o : Nat}

theorem locate_registerWindow (h : o < 0x100) : locate p o = locateRegister o := if_pos h

theorem locate_penWindow (h : 0x100 ≤ o) (h' : o < 0x200) : locate p o = locatePen o := by
  rw [locate, if_neg, if_pos] <;> omega

theorem locate_formatWindow (h : 0x200 ≤ o) (h' : o < 0x400) : locate p o = locateFormat o := by
  rw [locate, if_neg, if_neg, if_pos] <;> omega

theorem locate_blkWindow (h : 0x400 ≤ o) (h' : o < 0x10000) :
    locate p o = if (o - 0x400) / 4 < p.blkDepth then .blk ((o - 0x400) / 4) else .reserved := by
  rw [locate, if_neg, if_neg, if_neg, if_pos] <;> omega

theorem locate_cwWindow (h : 0x10000 ≤ o) (h' : o < 0x20000) :
    locate p o = if (o - 0x10000) / 4 < p.cwDepth then .cw ((o - 0x10000) / 4) else .reserved := by
  rw [locate, if_neg, if_neg, if_neg, if_neg, if_pos] <;> omega

theorem locate_gfWindow (h : 0x20000 ≤ o) (h' : o < 0x40000) :
    locate p o = if (o - 0x20000) / 4 < 256 * p.eccMax then .gf ((o - 0x20000) / 4) else .reserved := by
  rw [locate, if_neg, if_neg, if_neg, if_neg, if_neg, if_pos] <;> omega

theorem locate_plWindow (h : 0x40000 ≤ o) (h' : o < 0x80000) :
    locate p o = if (o - 0x40000) / 4 < p.plDepth then .pl ((o - 0x40000) / 4) else .reserved := by
  rw [locate, if_neg, if_neg, if_neg, if_neg, if_neg, if_neg, if_pos] <;> omega

theorem locate_frameWindow (h : 0x80000 ≤ o) (h' : o < 0xC0000) :
    locate p o = locateCell .frame ((o - 0x80000) / 4) := by
  rw [locate, if_neg, if_neg, if_neg, if_neg, if_neg, if_neg, if_neg, if_pos] <;> omega

theorem locate_matWindow (h : 0xC0000 ≤ o) : locate p o = locateCell .mat ((o - 0xC0000) / 4) := by
  rw [locate, if_neg, if_neg, if_neg, if_neg, if_neg, if_neg, if_neg, if_neg] <;> omega

end

/-! ### The reserved offsets (R22, R39, R60) -/

theorem locateRegister_reserved {o : Nat} (h : 0x04C ≤ o) : locateRegister o = .reserved := by
  unfold locateRegister
  split
  case h_20 => rfl
  all_goals omega

theorem locatePen_reserved {o : Nat} (h : 0x18 ≤ (o - 0x100) % 0x20) : locatePen o = .reserved := by
  unfold locatePen
  dsimp only
  split
  case h_7 => rfl
  all_goals omega

theorem locateFormat_reserved {o : Nat} (h : o = 0x23C ∨ o = 0x27C ∨ 0x300 ≤ o) : locateFormat o = .reserved := by
  obtain rfl | rfl | h := h
  · rfl
  · rfl
  · rw [locateFormat, if_neg, if_neg, if_neg] <;> omega

theorem locateCell_reserved {mk : Nat → Nat → Loc} {x y : Nat} (hx : x < 256) (h : 177 ≤ x ∨ 177 ≤ y) :
    locateCell mk (256 * y + x) = .reserved := by
  have hmod : (256 * y + x) % 256 = x := by omega
  have hdiv : (256 * y + x) / 256 = y := by omega
  rw [locateCell, hmod, hdiv, if_neg]
  simp only [Config.maxSide]
  omega

/-- A reserved offset names no location, whatever the parameters: one case per clause, each in its own window. -/
theorem locate_reservedOffset {p : Params} {o : Nat} (h : ReservedOffset p o) : locate p o = .reserved := by
  rcases h with ⟨h, h'⟩ | ⟨m, hm, h⟩ | h | h | ⟨h, h'⟩ | ⟨h, h'⟩ | ⟨h, h'⟩ | ⟨h, h'⟩ | ⟨h, h'⟩
    | ⟨x, hx, y, hy, hxy, rfl | rfl⟩
  · rw [locate_registerWindow h', locateRegister_reserved h]
  · rw [locate_penWindow (by omega) (by omega), locatePen_reserved (by omega)]
  · rw [locate_formatWindow (by omega) (by omega), locateFormat_reserved (.inl h)]
  · rw [locate_formatWindow (by omega) (by omega), locateFormat_reserved (.inr (.inl h))]
  · rw [locate_formatWindow (by omega) h', locateFormat_reserved (.inr (.inr h))]
  · rw [locate_blkWindow (by omega) h', if_neg (by omega)]
  · rw [locate_cwWindow (by omega) h', if_neg (by omega)]
  · rw [locate_gfWindow (by omega) h', if_neg (by omega)]
  · rw [locate_plWindow (by omega) h', if_neg (by omega)]
  · rw [locate_frameWindow (by omega) (by omega), Nat.add_sub_cancel_left, Nat.mul_div_cancel_left _ (by decide),
      locateCell_reserved hx hxy]
  · rw [locate_matWindow (by omega), Nat.add_sub_cancel_left, Nat.mul_div_cancel_left _ (by decide),
      locateCell_reserved hx hxy]

/-! ### Locations that ignore writes (R22, R60, R65) -/

/-- The locations that a write leaves as they are: read-only registers, MAT cells and reserved offsets (R65). -/
def Loc.ignoresWrites : Loc → Bool
  | .id | .params0 | .params1 | .err | .errinfo | .side | .ndata | .ntotal | .selMask | .fmtIndex | .fmtBits
  | .pen _ _ | .mat _ _ | .reserved => true
  | _ => false

theorem writeLoc_of_ignoresWrites {l : Loc} (h : l.ignoresWrites = true) (v : Word) (s : State) :
    writeLoc v s l = s := by
  cases l <;> cases h <;> rfl

/-- A write to such a location answers without an error and does nothing else (R65). CMD, the one location that FAULT
guards, is not among them. -/
theorem busAccess_writeWord_ignored {s : State} {off : Offset} (v : Word) (hb : s.busy = false)
    (h4 : off.toNat % 4 = 0) (h : (locate s.params off.toNat).ignoresWrites = true) :
    busAccess (.writeWord off v) s = respond 0#32 s := by
  have hcmd : off.toNat ≠ 0x010 := fun ho => by rw [ho] at h; cases h
  rw [busAccess_write_allowed (writeAllowed_iff.2 ⟨h4, rfl, .inl hb, fun ho => absurd ho hcmd⟩),
    writeLoc_of_ignoresWrites h]

section
variable {p : Params} {o : Nat}

theorem locate_readOnlyRegister_ignoresWrites
    (h : o ∈ [0x000, 0x004, 0x014, 0x018, 0x01C, 0x034, 0x038, 0x03C, 0x040, 0x044, 0x048]) :
    (locate p o).ignoresWrites = true := by
  fin_cases h <;> rfl

theorem locate_penWindow_ignoresWrites (h : 0x100 ≤ o ∧ o < 0x200) : (locate p o).ignoresWrites = true := by
  rw [locate_penWindow h.1 h.2, locatePen]
  split <;> rfl

theorem locate_matWindow_ignoresWrites (h : 0xC0000 ≤ o) : (locate p o).ignoresWrites = true := by
  rw [locate_matWindow h, locateCell]
  split <;> rfl

end

/-- Settles O23: a reserved offset names the location `reserved`, which reads 0, and every location named here ignores
writes. -/
theorem reservedAndReadOnlyLocations : Obligations.ReservedAndReadOnlyLocations := by
  intro s off v hb h4
  have ignored := busAccess_writeWord_ignored (s := s) (off := off) v hb h4
  refine ⟨fun h => ?_, fun h => ignored (locate_readOnlyRegister_ignoresWrites h),
    fun h => ignored (locate_penWindow_ignoresWrites h), fun h => ignored (locate_matWindow_ignoresWrites h)⟩
  have hres := locate_reservedOffset h
  exact ⟨by rw [busAccess_read_allowed (readAllowed_iff.2 ⟨h4, .inl hb⟩), hres]; rfl, ignored (by rw [hres]; rfl)⟩

end Sys2Proof.Machine

namespace Sys2Proof.Machine

open Sys2Proof.Claims

/-! ### Sums of unequal lengths, the shorter side padded with 0 (R136) -/

@[simp] theorem xorPadded_nil_left (b : List Byte) : xorPadded [] b = b := by rw [xorPadded]

@[simp] theorem xorPadded_nil_right (a : List Byte) : xorPadded a [] = a := by cases a <;> rfl

@[simp] theorem xorPadded_cons_cons (x y : Byte) (a b : List Byte) :
    xorPadded (x :: a) (y :: b) = (x ^^^ y) :: xorPadded a b := rfl

@[simp] theorem xorPadded_length (a b : List Byte) : (xorPadded a b).length = max a.length b.length := by
  induction a generalizing b with
  | nil => simp
  | cons x a ih => cases b <;> simp [ih, Nat.add_max_add_right]

theorem xorPadded_comm (a b : List Byte) : xorPadded a b = xorPadded b a := by
  induction a generalizing b with
  | nil => simp
  | cons x a ih =>
    cases b with
    | nil => simp
    | cons y b => simp [ih b, BitVec.xor_comm x y]

theorem xorPadded_assoc (a b c : List Byte) : xorPadded (xorPadded a b) c = xorPadded a (xorPadded b c) := by
  induction a generalizing b c with
  | nil => simp
  | cons x a ih =>
    cases b with
    | nil => simp
    | cons y b =>
      cases c with
      | nil => simp
      | cons z c => simp [ih b c, BitVec.xor_assoc]

theorem xorPadded_right_comm (a b c : List Byte) :
    xorPadded (xorPadded a b) c = xorPadded (xorPadded a c) b := by
  rw [xorPadded_assoc, xorPadded_comm b c, ← xorPadded_assoc]

/-- Adding `n` zeros pads to length `n`. -/
theorem xorPadded_replicate_zero (a : List Byte) (n : Nat) :
    xorPadded a (List.replicate n 0#8) = a ++ List.replicate (n - a.length) 0#8 := by
  induction a generalizing n with
  | nil => simp
  | cons x a ih => cases n <;> simp [List.replicate_succ, ih]

/-- A shifted register added to a full row is the padded sum of the register's tail and the row. -/
theorem zipWith_gfAdd_append_zero {a r : List Byte} (h : r.length = a.length + 1) :
    List.zipWith gfAdd (a ++ [0#8]) r = xorPadded a r := by
  induction a generalizing r with
  | nil =>
    obtain ⟨y, rfl⟩ := List.length_eq_one_iff.1 h
    simp
  | cons x a ih =>
    cases r with
    | nil => cases h
    | cons y r => simp [ih (r := r) (by simpa using h)]

/-! ### Both forms of the division add one row per step (R134, R136) -/

/-- What the step of leading term `f` adds: its row, and `n` zeros where the step is skipped. -/
def addedRow (gf : Byte → List Byte) (n : Nat) (f : Byte) : List Byte :=
  if f = 0#8 then List.replicate n 0#8 else gf f

theorem longRound_eq_xorPadded (gf : Byte → List Byte) (n : Nat) (f : Byte) (w : List Byte) :
    longRound gf n f w = xorPadded w (addedRow gf n f) := by
  unfold longRound addedRow
  by_cases hf : f = 0#8
  · simp [hf, xorPadded_replicate_zero]
  · simp [hf]

section
variable {gf : Byte → List Byte} {n : Nat} (hgf : ∀ f, (gf f).length = n)
include hgf

theorem addedRow_length (f : Byte) : (addedRow gf n f).length = n := by
  unfold addedRow; split <;> simp [hgf]

theorem divideStep_cons_eq_xorPadded {e d : Byte} {es : List Byte} (hes : es.length + 1 = n) :
    divideStep gf (e :: es) d = xorPadded es (addedRow gf n (d ^^^ e)) := by
  unfold divideStep addedRow
  by_cases hf : d ^^^ e = 0#8
  · have hpad : n - es.length = 1 := by omega
    simp [hf, xorPadded_replicate_zero, hpad]
  · simp [hf, zipWith_gfAdd_append_zero, hgf, hes]

/-- The working register of the long division is the padded sum of the division register and the data codewords still to
come: each round drops the same leading term and adds the same row. -/
theorem longRounds_xorPadded_eq_divideBlock {esr ds : List Byte} (hpos : 1 ≤ n) (hesr : esr.length = n) (t : Nat) :
    longRounds gf n ds.length (xorPadded esr ds) = divideBlock (fun _ => gf) t esr ds := by
  induction ds generalizing esr t with
  | nil => simp [longRounds, divideBlock]
  | cons d ds ih =>
    obtain ⟨e, es, rfl⟩ : ∃ e es, esr = e :: es := List.exists_cons_of_length_pos (by omega)
    have hstep : longRound gf n (e ^^^ d) (xorPadded es ds) = xorPadded (divideStep gf (e :: es) d) ds := by
      rw [longRound_eq_xorPadded, divideStep_cons_eq_xorPadded hgf hesr, xorPadded_right_comm, BitVec.xor_comm]
    have hlen : (divideStep gf (e :: es) d).length = n :=
      (divideStep_length (by simp) fun f => (hgf f).trans hesr.symm).trans hesr
    rw [List.length_cons, xorPadded_cons_cons, longRounds, hstep, divideBlock, ih hlen]

/-- Padding the data to length `n` beforehand changes nothing where there is a round: the first one pads to length `n`
itself. -/
theorem longRounds_xorPadded_zeros (hpos : 1 ≤ n) (d : Byte) (ds : List Byte) :
    longRounds gf n (d :: ds).length (xorPadded (List.replicate n 0#8) (d :: ds))
      = longRounds gf n (d :: ds).length (d :: ds) := by
  obtain ⟨m, rfl⟩ : ∃ m, n = m + 1 := ⟨n - 1, by omega⟩
  have hrow : xorPadded (addedRow gf (m + 1) d) (List.replicate m 0#8) = addedRow gf (m + 1) d := by
    simp [xorPadded_replicate_zero, addedRow_length hgf]
  have hround : longRound gf (m + 1) d (xorPadded (List.replicate m 0#8) ds) = longRound gf (m + 1) d ds := by
    rw [longRound_eq_xorPadded, longRound_eq_xorPadded, xorPadded_comm _ ds, xorPadded_right_comm, xorPadded_assoc,
      hrow]
  rw [List.replicate_succ, xorPadded_cons_cons, BitVec.zero_xor, List.length_cons, longRounds, longRounds, hround]

end

/-- Settles O38: the working register of the long division is, from the first round on, the padded sum of the division
register and the data codewords still to come. -/
theorem registerDivisionIsLongDivision : Obligations.RegisterDivisionIsLongDivision := by
  intro gf n ds hpos hgf
  cases ds with
  | nil => simp [divideBlock, longDivision, longRounds]
  | cons d ds =>
    have hrounds : longRounds gf n (d :: ds).length (d :: ds)
        = divideBlock (fun _ => gf) 0 (List.replicate n 0#8) (d :: ds) := by
      rw [← longRounds_xorPadded_zeros hgf hpos, longRounds_xorPadded_eq_divideBlock hgf hpos List.length_replicate]
    have hlen : (divideBlock (fun _ => gf) 0 (List.replicate n 0#8) (d :: ds)).length = n :=
      (divideBlock_length (by simpa) (by simp [hgf])).trans List.length_replicate
    rw [longDivision, hrounds, List.take_left' hlen]

end Sys2Proof.Machine

namespace Sys2Proof.Machine

open Sys2Proof.Claims

/-! ### The lines of a matrix (R173) -/

theorem map_range_succ {α : Type} (f : Nat → α) (n : Nat) :
    (List.range (n + 1)).map f = f 0 :: (List.range n).map (fun i => f (i + 1)) := by
  rw [List.range_succ_eq_map, List.map_cons, List.map_map]
  rfl

theorem columns_gridOf (S : Nat) (c : Nat → Nat → Bool) :
    columns S (gridOf S c) = (List.range S).map (fun x => (List.range S).map (fun y => c x y)) := by
  refine List.map_congr_left fun x hx => ?_
  rw [gridOf, List.map_map]
  refine List.map_congr_left fun y _ => ?_
  simp [List.mem_range.1 hx]

/-- A sum over the lines of a matrix is the sum over its rows and the sum over its columns. -/
theorem sum_gridLines (f : List Bool → Nat) (S : Nat) (c : Nat → Nat → Bool) :
    ((gridLines S (gridOf S c)).map f).sum =
      ∑ y ∈ Finset.range S, f ((List.range S).map (fun x => c x y))
      + ∑ x ∈ Finset.range S, f ((List.range S).map (fun y => c x y)) := by
  rw [gridLines, columns_gridOf, List.map_append, List.sum_append, gridOf, List.map_map, List.map_map]
  rfl

/-- A bound for every line of length `S` bounds the sum over the `2·S` lines. -/
theorem sum_gridLines_le {f : List Bool → Nat} {S B : Nat} (hf : ∀ line, line.length = S → f line ≤ B)
    (c : Nat → Nat → Bool) : ((gridLines S (gridOf S c)).map f).sum ≤ 2 * S * B := by
  have hsum : ∀ line : Nat → List Bool, (∀ i, (line i).length = S) → ∑ i ∈ Finset.range S, f (line i) ≤ S * B :=
    fun line hlen => by simpa using Finset.sum_le_card_nsmul (Finset.range S) _ B fun i _ => hf _ (hlen i)
  calc ((gridLines S (gridOf S c)).map f).sum
      ≤ S * B + S * B := by
        rw [sum_gridLines]
        exact Nat.add_le_add (hsum _ (by simp)) (hsum _ (by simp))
    _ = 2 * S * B := by ring

/-! ### Run lists (R173) -/

/-- The number of modules in a run list. -/
def runsLength (rs : List (Bool × Nat)) : Nat := (rs.map Prod.snd).sum

@[simp] theorem runsLength_nil : runsLength [] = 0 := rfl

@[simp] theorem runsLength_cons (r : Bool × Nat) (rs : List (Bool × Nat)) :
    runsLength (r :: rs) = r.2 + runsLength rs := List.sum_cons

@[simp] theorem consRun_nil (c : Bool) : consRun c [] = [(c, 1)] := rfl

/-- A module lengthens the first run where it has its colour, and is a run of its own where it has not. -/
theorem consRun_cons (c : Bool) (r : Bool × Nat) (rs : List (Bool × Nat)) :
    consRun c (r :: rs) = if c = r.1 then (r.1, r.2 + 1) :: rs else (c, 1) :: r :: rs := rfl

theorem runsLength_consRun (c : Bool) (rs : List (Bool × Nat)) :
    runsLength (consRun c rs) = runsLength rs + 1 := by
  cases rs with
  | nil => rfl
  | cons r rs => rw [consRun_cons]; split <;> simp <;> omega

theorem runsLength_runs (line : List Bool) : runsLength (runs line) = line.length := by
  induction line with
  | nil => rfl
  | cons c cs ih => rw [runs, runsLength_consRun, ih, List.length_cons]

theorem pos_of_mem_consRun {c : Bool} {rs : List (Bool × Nat)} (h : ∀ r ∈ rs, 1 ≤ r.2) :
    ∀ r ∈ consRun c rs, 1 ≤ r.2 := by
  cases rs with
  | nil => simp
  | cons r rs =>
    rw [consRun_cons]
    split
    · exact List.forall_mem_cons.2 ⟨Nat.le_add_left 1 _, (List.forall_mem_cons.1 h).2⟩
    · exact List.forall_mem_cons.2 ⟨Nat.le_refl 1, h⟩

/-- Every run is at least one module long. -/
theorem pos_of_mem_runs (line : List Bool) : ∀ r ∈ runs line, 1 ≤ r.2 := by
  induction line with
  | nil => simp [runs]
  | cons c cs ih => exact pos_of_mem_consRun ih

theorem isChain_consRun {c : Bool} {rs : List (Bool × Nat)} (h : rs.IsChain (fun r r' => r.1 ≠ r'.1)) :
    (consRun c rs).IsChain (fun r r' => r.1 ≠ r'.1) := by
  cases rs with
  | nil => exact .singleton _
  | cons r rs =>
    rw [consRun_cons]
    split
    case isTrue => exact List.isChain_cons.2 (List.isChain_cons.1 h)
    case isFalse hc => exact .cons_cons hc h

/-- Neighbouring runs differ in colour. -/
theorem isChain_runs (line : List Bool) : (runs line).IsChain (fun r r' => r.1 ≠ r'.1) := by
  induction line with
  | nil => exact .nil
  | cons c cs ih => exact isChain_consRun ih

/-! ### Rule N1 (R174) -/

/-- The N1 points of a run list are the sum of `l − 2` over its runs of length `l ≥ 5`. -/
theorem sum_n1Run (rs : List (Bool × Nat)) :
    (rs.map (fun r => n1Run r.2)).sum = ((rs.filter (fun r => 5 ≤ r.2)).map (fun r => r.2 - 2)).sum := by
  induction rs with
  | nil => rfl
  | cons r rs ih =>
    by_cases hr : 5 ≤ r.2
    · have hpoints : n1Run r.2 = r.2 - 2 := by rw [n1Run, if_pos hr]; omega
      simp [hr, ih, hpoints]
    · have hpoints : n1Run r.2 = 0 := if_neg hr
      simp [hr, ih, hpoints]

/-- Settles O45: the lines are the rows and the columns, and a run's points are `l − 2` from length 5 up. -/
theorem n1SumsLongRuns : Obligations.N1SumsLongRuns := by
  intro S c
  rw [n1Score, sum_gridLines]
  simp only [n1Line, sum_n1Run]

/-- The N1 points of a run list are 2 below its number of modules, or none. -/
theorem sum_n1Run_le (rs : List (Bool × Nat)) : (rs.map (fun r => n1Run r.2)).sum ≤ runsLength rs - 2 := by
  induction rs with
  | nil => simp
  | cons r rs ih =>
    have hrun : n1Run r.2 ≤ r.2 - 2 := by unfold n1Run; split <;> omega
    rw [List.map_cons, List.sum_cons, runsLength_cons]
    omega

theorem n1Line_le (line : List Bool) : n1Line line ≤ line.length - 2 := by
  rw [← runsLength_runs]
  exact sum_n1Run_le _

/-! ### Rule N2 (R175) -/

theorem windows_map_range (f g : Nat → Bool) (n : Nat) :
    windows ((List.range (n + 1)).map f) ((List.range (n + 1)).map g) =
      ∑ x ∈ Finset.range n, if f x = f (x + 1) ∧ f x = g x ∧ f x = g (x + 1) then 1 else 0 := by
  induction n generalizing f g with
  | zero => rfl
  | succ n ih =>
    have htail := ih (fun x => f (x + 1)) (fun x => g (x + 1))
    rw [map_range_succ _ n, map_range_succ _ n] at htail
    rw [map_range_succ f, map_range_succ g, map_range_succ _ n, map_range_succ _ n, windows, htail,
      Finset.sum_range_succ', Nat.add_comm]

theorem gridWindows_map_range (row : Nat → List Bool) (n : Nat) :
    gridWindows ((List.range (n + 1)).map row) = ∑ y ∈ Finset.range n, windows (row y) (row (y + 1)) := by
  induction n generalizing row with
  | zero => rfl
  | succ n ih =>
    have htail := ih (fun y => row (y + 1))
    rw [map_range_succ _ n] at htail
    rw [map_range_succ row, map_range_succ _ n, gridWindows, htail, Finset.sum_range_succ', Nat.add_comm]

/-- Settles O46: the windows of adjacent rows, counted from the left, summed over the rows. -/
theorem n2CountsWindows : Obligations.N2CountsWindows := by
  intro S c
  cases S with
  | zero => rfl
  | succ n =>
    rw [n2Score, gridOf, gridWindows_map_range, Finset.card_filter, Finset.sum_product_right]
    simp only [windows_map_range, Nat.add_sub_cancel]

/-! ### Rule N3 (R176) -/

theorem patternHere_iff (a b c d e : Bool × Nat) (rest : List (Bool × Nat)) :
    patternHere (a :: b :: c :: d :: e :: rest) = true ↔
      c.1 = true ∧ a.2 = b.2 ∧ b.2 = d.2 ∧ d.2 = e.2 ∧ c.2 = 3 * b.2 := by
  simp [patternHere, and_assoc]

theorem patternHere_iff_occursAt_two (rs : List (Bool × Nat)) : patternHere rs = true ↔ OccursAt rs 2 := by
  match rs with
  | [] | [_] | [_, _] | [_, _, _] | [_, _, _, _] => simp [patternHere, OccursAt]
  | a :: b :: c :: d :: e :: rest => simp [patternHere_iff, OccursAt]

/-- An occurrence is the pattern at the start of what is left two runs before it. -/
theorem occursAt_add_two_iff (rs : List (Bool × Nat)) (i : Nat) :
    OccursAt rs (i + 2) ↔ patternHere (rs.drop i) = true := by
  rw [patternHere_iff_occursAt_two]
  simp [OccursAt, List.getElem?_drop, Nat.add_assoc]

theorem patternCount_eq_card (rs : List (Bool × Nat)) :
    patternCount rs = ((Finset.range rs.length).filter (fun i => patternHere (rs.drop i) = true)).card := by
  induction rs with
  | nil => rfl
  | cons r rs ih =>
    rw [patternCount, ih, Finset.card_filter, Finset.card_filter, List.length_cons, Finset.sum_range_succ', Nat.add_comm]
    rfl

theorem lt_length_of_occursAt {rs : List (Bool × Nat)} {r : Nat} (h : OccursAt rs r) : r < rs.length := by
  obtain ⟨_, _, _, _, _, -, -, -, hc, -⟩ := h
  exact (List.getElem?_eq_some_iff.1 hc).1

theorem two_le_of_occursAt {rs : List (Bool × Nat)} {r : Nat} (h : OccursAt rs r) : 2 ≤ r := by
  obtain ⟨_, _, _, _, _, h2, -⟩ := h
  exact h2

/-- The occurrences of a run list are the starts of the pattern, two runs further on. -/
theorem patternCount_eq_card_of_occursAt {rs : List (Bool × Nat)} {occ : Finset Nat}
    (hocc : ∀ r, r ∈ occ ↔ OccursAt rs r) : patternCount rs = occ.card := by
  rw [patternCount_eq_card, ← Finset.card_map (addRightEmbedding 2)]
  congr 1
  ext r
  simp only [Finset.mem_map, Finset.mem_filter, Finset.mem_range, addRightEmbedding_apply, hocc]
  constructor
  · rintro ⟨i, ⟨-, hi⟩, rfl⟩
    exact (occursAt_add_two_iff rs i).2 hi
  · intro hr
    obtain ⟨i, rfl⟩ := Nat.exists_eq_add_of_le' (two_le_of_occursAt hr)
    exact ⟨i, ⟨by have := lt_length_of_occursAt hr; omega, (occursAt_add_two_iff rs i).1 hr⟩, rfl⟩

/-- Settles O47: the count over the starts of the pattern is the count over its middle runs, and the lines are the rows
and the columns. -/
theorem n3CountsOccurrences : Obligations.N3CountsOccurrences := by
  refine ⟨fun rs occ hocc => patternCount_eq_card_of_occursAt hocc, fun S c => ?_⟩
  rw [n3Score, sum_gridLines]
  rfl

/-! ### Rule N4 (R177) -/

theorem absDiff_cast (a b : Nat) : (absDiff a b : Int) = |(a : Int) - b| := by
  rw [absDiff, Int.abs_eq_natAbs]
  omega

theorem n4Score_exactBands {p : Params} (hp : p.n4Rule = .exactBands) (D T : Nat) :
    n4Score p D T = p.n4Weight * (absDiff (20 * D) (10 * T) / T) := by
  rw [n4Score, hp]

/-- Settles O48: the quotient by `T` is the number of whole bands, and the deviation is `10·T` at both ends. -/
theorem n4CountsBands : Obligations.N4CountsBands := by
  intro p D T hp hT _
  rw [n4Score_exactBands hp]
  constructor
  · intro k hlo hhi
    have hdev : (absDiff (20 * D) (10 * T) : Int) = |20 * (D : Int) - 10 * T| := by
      rw [absDiff_cast]; push_cast; rfl
    rw [← hdev] at hlo hhi
    rw [Nat.div_eq_of_lt_le (by exact_mod_cast hlo) (by exact_mod_cast hhi)]
  · intro hend
    have hdev : absDiff (20 * D) (10 * T) = 10 * T := by unfold absDiff; omega
    rw [hdev, Nat.mul_div_cancel _ hT, Nat.mul_comm]

/-! ### The bounds (R182) -/

/-- The third run of the pattern is dark and three times as long as the second. -/
theorem middle_of_patternHere {a b c : Bool × Nat} {rest : List (Bool × Nat)}
    (h : patternHere (a :: b :: c :: rest) = true) : c.1 = true ∧ c.2 = 3 * b.2 := by
  match rest with
  | [] | [_] => cases h
  | d :: e :: rest =>
    obtain ⟨hdark, -, -, -, hlen⟩ := (patternHere_iff a b c d e rest).1 h
    exact ⟨hdark, hlen⟩

theorem patternCount_cons_of_not {r : Bool × Nat} {rs : List (Bool × Nat)} (h : ¬ patternHere (r :: rs) = true) :
    patternCount (r :: rs) = patternCount rs := by
  rw [patternCount, if_neg h, Nat.zero_add]

/-- After an occurrence the pattern starts again four runs on at the earliest: one and three runs on its middle run would
be light, and two runs on it would have the length of its neighbour. -/
theorem patternCount_of_patternHere {a b c d e : Bool × Nat} {rest : List (Bool × Nat)} (hd : 1 ≤ d.2)
    (hchain : (c :: d :: e :: rest).IsChain (fun r r' => r.1 ≠ r'.1))
    (hpat : patternHere (a :: b :: c :: d :: e :: rest) = true) :
    patternCount (a :: b :: c :: d :: e :: rest) = patternCount (e :: rest) + 1 := by
  obtain ⟨hdark, -, -, hde, -⟩ := (patternHere_iff a b c d e rest).1 hpat
  obtain ⟨hcd, hne, hrest⟩ : c.1 ≠ d.1 ∧ d.1 ≠ e.1 ∧ (e :: rest).IsChain (fun r r' => r.1 ≠ r'.1) := by
    simpa [List.isChain_cons_cons] using hchain
  have hone : ¬ patternHere (b :: c :: d :: e :: rest) = true := fun h =>
    hcd (hdark.trans (middle_of_patternHere h).1.symm)
  have htwo : ¬ patternHere (c :: d :: e :: rest) = true := fun h => by
    have := (middle_of_patternHere h).2
    omega
  have hthree : ¬ patternHere (d :: e :: rest) = true := fun h => by
    cases rest with
    | nil => cases h
    | cons f rest =>
      have hef := (List.isChain_cons_cons.1 hrest).1
      have hce : e.1 = c.1 := by rw [Bool.eq_not_of_ne hcd, Bool.eq_not_of_ne hne, Bool.not_not]
      exact hef (hce.trans (hdark.trans (middle_of_patternHere h).1.symm))
  rw [patternCount, if_pos hpat, patternCount_cons_of_not hone, patternCount_cons_of_not htwo,
    patternCount_cons_of_not hthree, Nat.add_comm]

/-- Each occurrence takes the six modules or more of its first four runs, and the last one a run more. -/
theorem six_mul_patternCount_le : (rs : List (Bool × Nat)) → (∀ r ∈ rs, 1 ≤ r.2) →
    rs.IsChain (fun r r' => r.1 ≠ r'.1) → 6 * patternCount rs ≤ runsLength rs - 1
  | [], _, _ => Nat.le_refl 0
  | a :: rs, hpos, hchain => by
    by_cases hpat : patternHere (a :: rs) = true
    · match rs with
      | [] | [_] | [_, _] | [_, _, _] => cases hpat
      | b :: c :: d :: e :: rest =>
        obtain ⟨_, hab, hbd, hde, hmid⟩ := (patternHere_iff a b c d e rest).1 hpat
        have hd : 1 ≤ d.2 := hpos d (by simp)
        have ih := six_mul_patternCount_le (e :: rest) (fun r hr => hpos r (List.mem_of_mem_drop (i := 4) hr))
          hchain.tail.tail.tail.tail
        rw [patternCount_of_patternHere hd hchain.tail.tail hpat]
        simp only [runsLength_cons] at ih ⊢
        omega
    · have ha : 1 ≤ a.2 := hpos a List.mem_cons_self
      have ih := six_mul_patternCount_le rs (List.forall_mem_cons.1 hpos).2 hchain.tail
      rw [patternCount_cons_of_not hpat, runsLength_cons]
      omega

theorem n3Line_le (line : List Bool) : n3Line .ratioRuns line ≤ (line.length - 1) / 6 := by
  rw [← runsLength_runs, Nat.le_div_iff_mul_le (by decide), Nat.mul_comm]
  exact six_mul_patternCount_le _ (pos_of_mem_runs line) (isChain_runs line)

theorem n1Score_le (S : Nat) (c : Nat → Nat → Bool) : n1Score S (gridOf S c) ≤ 2 * S * (S - 2) :=
  sum_gridLines_le (fun line hlen => hlen ▸ n1Line_le line) c

theorem n2Score_le (S : Nat) (c : Nat → Nat → Bool) : n2Score (gridOf S c) ≤ 3 * (S - 1) ^ 2 := by
  rw [n2CountsWindows S c]
  refine Nat.mul_le_mul_left 3 ((Finset.card_filter_le _ _).trans_eq ?_)
  simp [sq]

theorem n3Score_le (S : Nat) (c : Nat → Nat → Bool) :
    n3Score .ratioRuns S (gridOf S c) ≤ 40 * (2 * S * ((S - 1) / 6)) :=
  Nat.mul_le_mul_left 40 (sum_gridLines_le (fun line hlen => hlen ▸ n3Line_le line) c)

/-- The deviation is at most `10·T`. -/
theorem n4Score_le {p : Params} (hp : p.n4Rule = .exactBands) {D T : Nat} (h : D ≤ T) :
    n4Score p D T ≤ 10 * p.n4Weight := by
  have hdev : absDiff (20 * D) (10 * T) ≤ T * 10 := by unfold absDiff; omega
  rw [n4Score_exactBands hp, Nat.mul_comm 10 p.n4Weight]
  exact Nat.mul_le_mul_left _ (Nat.div_le_of_le_mul hdev)

theorem darkCount_le (S : Nat) (c : Nat → Nat → Bool) : darkCount (gridOf S c) ≤ S * S := by
  have hrow : ∀ n ∈ (gridOf S c).map (fun row => row.count true), n ≤ S := by
    simp only [gridOf, List.map_map, List.mem_map]
    rintro n ⟨y, -, rfl⟩
    exact List.count_le_length.trans_eq (by simp)
  simpa [darkCount, gridOf] using List.sum_le_card_nsmul _ S hrow

/-- The bounds of R182 at the largest side, 177. -/
theorem penalty_bounds_at_maxSide {S : Nat} (h : S ≤ 177) :
    2 * S * (S - 2) ≤ 61950 ∧ 3 * (S - 1) ^ 2 ≤ 92928 ∧ 40 * (2 * S * ((S - 1) / 6)) ≤ 410640 ∧ S * S ≤ 31329 := by
  have hsix : (S - 1) / 6 ≤ 29 := by omega
  refine ⟨?_, ?_, ?_, ?_⟩
  · exact Nat.mul_le_mul (Nat.mul_le_mul_left 2 h) (Nat.sub_le_sub_right h 2)
  · exact Nat.mul_le_mul_left 3 (Nat.pow_le_pow_left (Nat.sub_le_sub_right h 1) 2)
  · exact Nat.mul_le_mul_left 40 (Nat.mul_le_mul (Nat.mul_le_mul_left 2 h) hsix)
  · exact Nat.mul_le_mul h h

/-- The total is the sum of the four scores where the sum fits in 32 bits (R178). -/
theorem total_toNat {r : PenScore} (h : r.n1 + r.n2 + r.n3 + r.n4 < 2 ^ 32) :
    r.total.toNat = r.n1 + r.n2 + r.n3 + r.n4 := by
  rw [PenScore.total, BitVec.toNat_ofNat, Nat.mod_eq_of_lt h]

/-- Settles O50: the bounds of the single scores, each at most its value at side 177, keep the total below 2²⁵. -/
theorem penaltyBounds : Obligations.PenaltyBounds := by
  intro p S c _ hS hn3 hn4 r
  have h1 : r.n1 ≤ 2 * S * (S - 2) := n1Score_le S c
  have h2 : r.n2 ≤ 3 * (S - 1) ^ 2 := n2Score_le S c
  have h3 : r.n3 ≤ 40 * (2 * S * ((S - 1) / 6)) := by
    simpa only [r, scoreGrid, hn3] using n3Score_le S c
  have hdark : r.dark ≤ S * S := darkCount_le S c
  have h4 : r.n4 ≤ 10 * p.n4Weight := n4Score_le hn4 hdark
  obtain ⟨m1, m2, m3, mdark⟩ := penalty_bounds_at_maxSide hS
  have h1' := h1.trans m1
  have h2' := h2.trans m2
  have h3' := h3.trans m3
  refine ⟨h1, h2, h3, h4, hdark.trans_eq (sq S).symm, h1', h2', h3', hdark.trans mdark, fun hw => ?_, fun hw => ?_⟩
  · rw [total_toNat (by omega)]
    omega
  · rw [total_toNat (by omega)]
    omega

end Sys2Proof.Machine

namespace Sys2Proof.Machine

open Sys2Proof.Claims

/-! ### The checks of FINALIZE (R30, R95, R201) -/

theorem versionOk_iff {s : State} : versionOk s = true ↔ VersionLegal s := by simp [versionOk, VersionLegal]

theorem sideOf_eq_side {s : State} (hv : VersionLegal s) : sideOf s.cfg.version = side s := if_pos hv

/-- A legal side is at most MAX_SIDE (R6, R35). -/
theorem side_le_maxSide {s : State} (hv : VersionLegal s) : side s ≤ Config.maxSide := by
  obtain ⟨-, hmax⟩ := hv
  simp only [side, Config.maxSide]
  omega

theorem coordOk_iff_inside {s : State} {w : Nat} {e : BitVec w} : coordOk (side s) e = true ↔ Inside s e := by
  simp [coordOk, Inside]

theorem coordOk_eq_false_iff {s : State} {w : Nat} {e : BitVec w} : coordOk (side s) e = false ↔ ¬Inside s e := by
  rw [← coordOk_iff_inside, Bool.not_eq_true]

/-- The search over the first `n` values of a function finds the first one that satisfies `p`, counted from `i`. -/
theorem firstIndex_map_range {α : Type} {p : α → Bool} {f : Nat → α} {i k n : Nat} (hk : k < n)
    (hbad : p (f k) = true) (hfirst : ∀ j < k, p (f j) = false) :
    firstIndex p i ((List.range n).map f) = some (i + k) := by
  have hget {j : Nat} (hj : j < n) : ((List.range n).map f)[j]? = some (f j) := by simp [hj]
  rw [firstIndex_eq_some, Nat.add_sub_cancel_left]
  refine ⟨Nat.le_add_right i k, ⟨f k, hget hk, hbad⟩, fun j hj a ha => ?_⟩
  rw [hget (hj.trans hk), Option.some.injEq] at ha
  exact ha ▸ hfirst j hj

/-- The first coordinate of a region that is not legal is what the search over that region finds. -/
theorem firstIndex_coords {s : State} {coord : Nat → BitVec 16} {i k : Nat} (hk : k < 15)
    (hbad : ¬Inside s (coord k)) (hfirst : ∀ j < k, Inside s (coord j)) :
    firstIndex (fun e => !coordOk (side s) e) i ((List.range 15).map coord) = some (i + k) :=
  firstIndex_map_range hk (by rw [coordOk_eq_false_iff.2 hbad]; rfl)
    fun j hj => by rw [coordOk_iff_inside.2 (hfirst j hj)]; rfl

/-- A search over a region of legal coordinates finds nothing. -/
theorem firstIndex_coords_eq_none {s : State} {coord : Nat → BitVec 16} {i : Nat}
    (h : ∀ k < 15, Inside s (coord k)) :
    firstIndex (fun e => !coordOk (side s) e) i ((List.range 15).map coord) = none := by
  rw [firstIndex_eq_none]
  intro e he
  obtain ⟨k, hk, rfl⟩ := List.mem_map.1 he
  rw [coordOk_iff_inside.2 (h k (List.mem_range.1 hk))]
  rfl

/-- The primary region is searched first. -/
theorem badFormatCoord_primary {s : State} {k : Nat} {c2 : List (BitVec 16)} (hk : k < 15)
    (hbad : ¬Inside s (fmtC1At s s.draws k)) (hfirst : ∀ j < k, Inside s (fmtC1At s s.draws j)) :
    badFormatCoord (side s) (formatCoords1 s s.draws) c2 = some k := by
  rw [badFormatCoord, formatCoords1, firstIndex_coords hk hbad hfirst, Nat.zero_add]

/-- The secondary region is searched where the whole primary one is legal. -/
theorem badFormatCoord_secondary {s : State} {k : Nat} (hprimary : ∀ j < 15, Inside s (fmtC1At s s.draws j))
    (hk : k < 15) (hbad : ¬Inside s (fmtC2At s s.draws k)) (hfirst : ∀ j < k, Inside s (fmtC2At s s.draws j)) :
    badFormatCoord (side s) (formatCoords1 s s.draws) (formatCoords2 s s.draws) = some (16 + k) := by
  rw [badFormatCoord, formatCoords1, formatCoords2, firstIndex_coords_eq_none hprimary,
    firstIndex_coords hk hbad hfirst]

theorem badFormatCoord_of_formatLegal {s : State} (h : FormatLegal s) :
    badFormatCoord (side s) (formatCoords1 s s.draws) (formatCoords2 s s.draws) = none := by
  rw [badFormatCoord, formatCoords1, formatCoords2, firstIndex_coords_eq_none fun k hk => (h k hk).1,
    firstIndex_coords_eq_none fun k hk => (h k hk).2]

/-! ### How FINALIZE ends (R112, R200, R201) -/

theorem finalizeBody_of_not_scored {s : State} (hs : s.status.flags.scored = false) :
    finalizeBody s = .raise .sequence (encode .finalize) (startStep .final s) := by
  simpa [hs] using finalizeBody_cases s

theorem finalizeBody_of_not_versionLegal {s : State} (hs : s.status.flags.scored = true) (hv : ¬VersionLegal s) :
    finalizeBody s = .raise .badVersion (s.cfg.version.setWidth 32) (startStep .final s) := by
  rw [← versionOk_iff, Bool.not_eq_true] at hv
  simpa [hs, hv] using finalizeBody_cases s

theorem finalizeBody_of_badFormatCoord {s : State} {k : Nat} (hs : s.status.flags.scored = true)
    (hv : VersionLegal s)
    (hk : badFormatCoord (side s) (formatCoords1 s s.draws) (formatCoords2 s s.draws) = some k) :
    finalizeBody s = .raise .badFmtCoord (BitVec.ofNat 32 k) (advanceDraws 3 (startStep .final s)) := by
  simpa [hs, versionOk_iff.2 hv, sideOf_eq_side hv, hk] using finalizeBody_cases s

theorem finalizeBody_of_formatLegal {s : State} (hs : s.status.flags.scored = true) (hv : VersionLegal s)
    (hl : FormatLegal s) :
    finalizeBody s = .done (succeedStep .final (advanceDraws 3 (writeFormat (startStep .final s)))) := by
  simpa [hs, versionOk_iff.2 hv, sideOf_eq_side hv, badFormatCoord_of_formatLegal hl] using finalizeBody_cases s

/-- A fault that the body of FINALIZE raises before its writes, after `n` draws, ends the command with memories and
results as they were (R201). -/
theorem exec_finalize_of_raise {s : State} {code : FaultCode} {info : Word} {n : Nat}
    (h : finalizeBody s = .raise code info (advanceDraws n (startStep .final s))) :
    ∃ t, exec .finalize s = .next t ∧ Faulted s t code.value 0x40#8 5#3 info { s.status.flags with final := false }
      ∧ t.mem = s.mem ∧ t.res = s.res := by
  have hexec : exec .finalize s
      = .next (takeFault code info (encode .finalize) (advanceDraws n (startStep .final s))) := by
    rw [exec, execFinalize, h, finish_raise]
  refine ⟨_, hexec, ⟨?around, rfl, rfl, rfl⟩, rfl, rfl⟩
  case around => constructor <;> rfl

/-- Settles O52: each clause names the one case of the body whose earlier checks pass. -/
theorem finalizeFaultsInOrder : Obligations.FinalizeFaultsInOrder := by
  intro s left
  refine ⟨?sequence, ?version, ?primary, ?secondary⟩
  case sequence =>
    intro hs
    exact exec_finalize_of_raise (n := 0) (finalizeBody_of_not_scored hs)
  case version =>
    intro hs hv
    have hinfo : s.cfg.version.setWidth 32 = BitVec.ofNat 32 s.cfg.version.toNat := (BitVec.ofNat_toNat 32 _).symm
    exact exec_finalize_of_raise (n := 0) (hinfo ▸ finalizeBody_of_not_versionLegal hs hv)
  case primary =>
    intro hs hv k hk hbad hfirst
    exact exec_finalize_of_raise (finalizeBody_of_badFormatCoord hs hv (badFormatCoord_primary hk hbad hfirst))
  case secondary =>
    intro hs hv hprimary k hk hbad hfirst
    exact exec_finalize_of_raise
      (finalizeBody_of_badFormatCoord hs hv (badFormatCoord_secondary hprimary hk hbad hfirst))

/-! ### The merged plane (R156, R202) -/

/-- Cells of one matrix have one number each, since a column number is below 256 (R60). -/
theorem cellIndex_inj {x y x' y' : Nat} (hx : x < 256) (hx' : x' < 256) :
    cellIndex x y = cellIndex x' y' ↔ x = x' ∧ y = y' := by
  unfold cellIndex
  omega

/-- The dark cells of a list of cells, as OUT lists them (log 18). -/
def darkCells (dark : Nat → Nat → Bool) (cells : List (Nat × Nat)) : Mem 1 :=
  cells.foldr (fun c m => if dark c.1 c.2 then Mem.write m (cellIndex c.1 c.2) 1#1 else m) []

theorem mergedOut_eq_darkCells (dark : Nat → Nat → Bool) (side : Nat) :
    mergedOut dark side = { cleared := true, cells := darkCells dark (sideCells side) } := rfl

theorem read_darkCells {dark : Nat → Nat → Bool} {cells : List (Nat × Nat)} {x y : Nat} (hx : x < 256)
    (hcells : ∀ c ∈ cells, c.1 < 256) :
    (darkCells dark cells).read (cellIndex x y) = if (x, y) ∈ cells ∧ dark x y = true then some 1#1 else none := by
  induction cells with
  | nil => simp [darkCells, Mem.read]
  | cons c cells ih =>
    obtain ⟨hc, htail⟩ := List.forall_mem_cons.1 hcells
    have hstep : darkCells dark (c :: cells)
        = if dark c.1 c.2 then Mem.write (darkCells dark cells) (cellIndex c.1 c.2) 1#1 else darkCells dark cells := rfl
    by_cases hsame : (x, y) = c
    · subst hsame
      by_cases hdark : dark x y = true <;> simp [hstep, hdark, ih htail]
    · have hother : cellIndex x y ≠ cellIndex c.1 c.2 := fun h => hsame (Prod.ext_iff.2 ((cellIndex_inj hx hc).1 h))
      have hread : (darkCells dark (c :: cells)).read (cellIndex x y)
          = (darkCells dark cells).read (cellIndex x y) := by
        rw [hstep]
        split
        · exact Mem.read_write_other _ _ hother
        · rfl
      simp [hread, ih htail, hsame]

/-- OUT before the format bits: the module inside S × S, 0 outside. -/
theorem read_mergedOut {dark : Nat → Nat → Bool} {side x y : Nat} (hx : x < 256) (hside : side ≤ 256) :
    (mergedOut dark side).read (cellIndex x y)
      = some (if x < side ∧ y < side then BitVec.ofBool (dark x y) else 0#1) := by
  have hcells : ∀ c ∈ sideCells side, c.1 < 256 := fun c hc => (mem_sideCells.1 hc).1.trans_le hside
  rw [mergedOut_eq_darkCells, Matrix.read, read_darkCells hx hcells]
  simp only [mem_sideCells]
  by_cases hin : x < side ∧ y < side
  · cases hdark : dark x y <;> simp [hin]
  · simp [hin]

/-! ### The format bits over it (R202, R204) -/

/-- No cell of a cleared matrix is unspecified (log 18). -/
theorem Matrix.isSome_read_of_cleared {w : Nat} {m : Matrix w} (h : m.cleared = true) (k : Nat) :
    (m.read k).isSome := by
  unfold Matrix.read
  split
  · rfl
  · rw [if_pos h]; rfl

/-- A cell that no coordinate names keeps its value. -/
theorem read_embedBits_of_notMem {bits : BitVec 15} {m : Matrix 1} {i j : Nat} {cs : List (Option Nat)}
    (h : some j ∉ cs) : (embedBits bits m i cs).read j = m.read j := by
  induction cs generalizing m i with
  | nil => rfl
  | cons c cs ih =>
    rw [List.mem_cons, not_or] at h
    obtain ⟨hc, hcs⟩ := h
    rw [embedBits, ih hcs, Matrix.read_writeAt, if_neg (Ne.symm hc)]

/-- The last coordinate that names a cell gives its bit. -/
theorem read_embedBits_of_last {bits : BitVec 15} {m : Matrix 1} {i j k : Nat} {cs : List (Option Nat)}
    (hk : cs[k]? = some (some j)) (hlast : ∀ k', k < k' → cs[k']? ≠ some (some j)) :
    (embedBits bits m i cs).read j = some (BitVec.ofBool (bits.getLsbD (14 - (i + k)))) := by
  induction cs generalizing m i k with
  | nil => cases hk
  | cons c cs ih =>
    cases k with
    | zero =>
      obtain rfl : c = some j := by simpa using hk
      have hcs : some j ∉ cs := fun hmem => by
        obtain ⟨k', hk'⟩ := List.mem_iff_getElem?.1 hmem
        exact hlast (k' + 1) (Nat.succ_pos k') hk'
      rw [embedBits, read_embedBits_of_notMem hcs, Matrix.read_writeAt, if_pos rfl, Nat.add_zero]
    | succ k =>
      rw [embedBits, ih hk fun k' hk' => hlast (k' + 1) (Nat.succ_lt_succ hk'), Nat.add_assoc, Nat.add_comm 1]

/-! ### The two regions (R43, R202) -/

/-- The cells that a region of legal coordinates names. -/
def regionCells (coord : Nat → BitVec 16) : List (Option Nat) :=
  (List.range 15).map fun k => some (cellIndex (coordX (coord k)) (coordY (coord k)))

theorem coordX_lt {w : Nat} (e : BitVec w) : coordX e < 256 := (e.extractLsb' 0 8).isLt

section
variable {coord : Nat → BitVec 16} {x y k : Nat}

theorem regionCells_getElem? (hx : x < 256) :
    (regionCells coord)[k]? = some (some (cellIndex x y))
      ↔ k < 15 ∧ coordX (coord k) = x ∧ coordY (coord k) = y := by
  by_cases hk : k < 15
  · simp [regionCells, hk, cellIndex_inj (coordX_lt _) hx]
  · simp [regionCells, hk]

/-- The last coordinate of a region that names a cell gives its bit of the string. -/
theorem read_embedBits_regionCells {bits : BitVec 15} {m : Matrix 1} (hx : x < 256) (hk : k < 15)
    (hnames : coordX (coord k) = x ∧ coordY (coord k) = y)
    (hlast : ∀ k' < 15, k < k' → ¬(coordX (coord k') = x ∧ coordY (coord k') = y)) :
    (embedBits bits m 0 (regionCells coord)).read (cellIndex x y) = some (BitVec.ofBool (bits.getLsbD (14 - k))) := by
  rw [read_embedBits_of_last ((regionCells_getElem? hx).2 ⟨hk, hnames⟩), Nat.zero_add]
  intro k' hk' hget
  obtain ⟨hlt, hnames'⟩ := (regionCells_getElem? hx).1 hget
  exact hlast k' hlt hk' hnames'

/-- A cell that no coordinate of a region names is not among the region's. -/
theorem read_embedBits_regionCells_unnamed {bits : BitVec 15} {m : Matrix 1} (hx : x < 256)
    (h : ∀ k < 15, ¬(coordX (coord k) = x ∧ coordY (coord k) = y)) :
    (embedBits bits m 0 (regionCells coord)).read (cellIndex x y) = m.read (cellIndex x y) := by
  refine read_embedBits_of_notMem fun hmem => ?_
  obtain ⟨k, hget⟩ := List.mem_iff_getElem?.1 hmem
  obtain ⟨hk, hnames⟩ := (regionCells_getElem? hx).1 hget
  exact h k hk hnames

end

/-- A legal coordinate lands on the cell it names (R50). -/
theorem landing_of_inside {s : State} {w : Nat} {e : BitVec w} (hv : VersionLegal s) (h : Inside s e)
    (draw off : Nat) : landing e draw off = some (cellIndex (coordX e) (coordY e)) :=
  if_pos ⟨h.1.trans_le (side_le_maxSide hv), h.2.trans_le (side_le_maxSide hv)⟩

/-- Every read of a written entry gives its value (R70). -/
theorem orFree_of_isSome {w : Nat} {v : Option (BitVec w)} (h : v.isSome) (draw draw' off lo : Nat) :
    orFree v draw off lo = orFree v draw' off lo := by
  obtain ⟨x, rfl⟩ := Option.isSome_iff_exists.1 h
  rfl

/-- The cells that the writes of a region find, where their second read of its entries gives the legal coordinates of
the first one. -/
theorem map_landing_eq_regionCells {s : State} (hv : VersionLegal s) {coord again : Nat → BitVec 16} {off : Nat → Nat}
    (h : ∀ k < 15, again k = coord k ∧ Inside s (coord k)) (draw : Nat) :
    (List.range 15).map (fun k => landing (again k) draw (off k)) = regionCells coord := by
  refine List.map_congr_left fun k hk => ?_
  obtain ⟨hagain, hin⟩ := h k (List.mem_range.1 hk)
  rw [hagain, landing_of_inside hv hin]

theorem formatTargets1_eq {s : State} (hv : VersionLegal s) (hl : FormatLegal s) (hw : FmtWritten s) (draw : Nat) :
    formatTargets1 s draw = regionCells (fmtC1At s s.draws) :=
  map_landing_eq_regionCells hv (fun k hk => ⟨orFree_of_isSome (hw k hk).1 .., (hl k hk).1⟩) _

theorem formatTargets2_eq {s : State} (hv : VersionLegal s) (hl : FormatLegal s) (hw : FmtWritten s) (draw : Nat) :
    formatTargets2 s draw = regionCells (fmtC2At s s.draws) :=
  map_landing_eq_regionCells hv (fun k hk => ⟨orFree_of_isSome (hw k hk).2 .., (hl k hk).2⟩) _

/-! ### What FINALIZE writes (R202, R203) -/

theorem formatIndex_toNat (s : State) (mask : BitVec 3) : (formatIndex s.cfg.eccode mask).toNat = formatIdx s mask :=
  toNat_append_eq_add _ _

theorem selMaskAt_of_known {s : State} {mask : BitVec 3} (h : s.res.selMask = .known mask) (draw : Nat) :
    selMaskAt s draw = mask := by
  rw [selMaskAt, h]
  rfl

theorem writeFormat_res {s : State} {mask : BitVec 3} (h : s.res.selMask = .known mask) :
    (writeFormat s).res = { s.res with
      fmtIndex := .known (BitVec.ofNat 5 (formatIdx s mask)), fmtBits := .known (formatBits s mask) } := by
  rw [formatBits, ← formatIndex_toNat, ← eq_ofNat_of_toNat rfl, ← selMaskAt_of_known h s.draws]
  rfl

theorem isSome_read_writeFormat_out (s : State) (k : Nat) : ((writeFormat s).mem.out.read k).isSome :=
  Matrix.isSome_read_of_cleared (by simp [writeFormat, mergedOut]) k

/-- OUT on written coordinates: the merged plane, the primary region over it, the secondary one over both. -/
theorem writeFormat_out {s : State} {mask : BitVec 3} (h : s.res.selMask = .known mask) (hv : VersionLegal s)
    (hl : FormatLegal s) (hw : FmtWritten s) :
    (writeFormat s).mem.out
      = embedBits (formatBits s mask)
          (embedBits (formatBits s mask) (mergedOut (moduleAt s s.draws mask.toNat) (side s)) 0
            (regionCells (fmtC1At s s.draws))) 0 (regionCells (fmtC2At s s.draws)) := by
  rw [← formatTargets1_eq hv hl hw (s.draws + 1), ← formatTargets2_eq hv hl hw (s.draws + 1), ← sideOf_eq_side hv,
    formatBits, ← formatIndex_toNat, ← selMaskAt_of_known h s.draws]
  rfl

/-- Each cell of OUT is read from the last layer that writes it. -/
theorem outFinal_writeFormat {s : State} {mask : BitVec 3} (h : s.res.selMask = .known mask) (hv : VersionLegal s)
    (hl : FormatLegal s) (hw : FmtWritten s) :
    OutFinal (moduleAt s s.draws mask.toNat) (formatBits s mask) s (writeFormat s) := by
  have hside : side s ≤ 256 := (side_le_maxSide hv).trans (by decide)
  intro x hx y _
  rw [writeFormat_out h hv hl hw]
  refine ⟨?secondary, ?primary, ?inside, ?outside⟩
  case secondary =>
    intro k hk hnames hlast
    exact read_embedBits_regionCells hx hk hnames hlast
  case primary =>
    intro h2 k hk hnames hlast
    exact (read_embedBits_regionCells_unnamed hx h2).trans (read_embedBits_regionCells hx hk hnames hlast)
  case inside =>
    intro h2 h1 hxs hys
    refine (read_embedBits_regionCells_unnamed hx h2).trans ((read_embedBits_regionCells_unnamed hx h1).trans ?_)
    rw [read_mergedOut hx hside, if_pos ⟨hxs, hys⟩]
  case outside =>
    intro h2 h1 hout
    refine (read_embedBits_regionCells_unnamed hx h2).trans ((read_embedBits_regionCells_unnamed hx h1).trans ?_)
    rw [read_mergedOut hx hside, if_neg (by omega)]

/-- Settles O51: with every check passed the body succeeds, and OUT is what its three layers of writes leave. -/
theorem finalizeCompletes : Obligations.FinalizeCompletes := by
  intro s mask hs hv hmask hl
  have hexec : exec .finalize s
      = .next (complete (succeedStep .final (advanceDraws 3 (writeFormat (startStep .final s))))) := by
    rw [exec, execFinalize, finalizeBody_of_formatLegal hs hv hl, finish_done]
  refine ⟨_, hexec, ⟨?around, rfl, rfl, rfl⟩, rfl, ?res, rfl, ?specified, ?out⟩
  case around => constructor <;> rfl
  case res => exact writeFormat_res (s := startStep .final s) hmask
  case specified => exact isSome_read_writeFormat_out (startStep .final s)
  case out => exact fun hw => outFinal_writeFormat (s := startStep .final s) hmask hv hl hw

end Sys2Proof.Machine

namespace Sys2Proof.Machine

/-! ### Packing and its walk (R224, R226) -/

/-- The number a bit string names, most significant bit first: what the walk reads from a field's bits. -/
def bitsValue (bits : List Bool) : Nat := bits.foldl (fun acc b => 2 * acc + b.toNat) 0

@[simp] theorem bitsValue_concat (bits : List Bool) (b : Bool) :
    bitsValue (bits ++ [b]) = 2 * bitsValue bits + b.toNat := by
  simp [bitsValue, List.foldl_append]

@[simp] theorem fieldBits_length (f : Nat × Nat) : (fieldBits f).length = f.2 := by simp [fieldBits]

/-- A field of width `w + 1` is the field of its upper `w` bits, then its lowest bit. -/
theorem fieldBits_succ (v w : Nat) : fieldBits (v, w + 1) = fieldBits (v / 2, w) ++ [v.testBit 0] := by
  simp only [fieldBits, List.range_succ, List.map_append, List.map_cons, List.map_nil]
  congr 1
  · refine List.map_congr_left fun i hi => ?_
    have hi : w + 1 - 1 - i = w - 1 - i + 1 := by have := List.mem_range.1 hi; omega
    rw [hi, Nat.testBit_add_one]
  · simp

/-- Only the bits below its width enter a field. -/
theorem fieldBits_mod (v w : Nat) : fieldBits (v % 2 ^ w, w) = fieldBits (v, w) := by
  refine List.map_congr_left fun i hi => ?_
  have hi : w - 1 - i < w := by have := List.mem_range.1 hi; omega
  simp [Nat.testBit_mod_two_pow, hi]

theorem bitsValue_fieldBits {v w : Nat} (h : v < 2 ^ w) : bitsValue (fieldBits (v, w)) = v := by
  induction w generalizing v with
  | zero => simp_all [fieldBits, bitsValue]
  | succ w ih =>
    have hhalf : v / 2 < 2 ^ w := by omega
    rw [fieldBits_succ, bitsValue_concat, ih hhalf, Nat.toNat_testBit, pow_zero, Nat.div_one, Nat.div_add_mod]

theorem fieldBits_bitsValue (bits : List Bool) : fieldBits (bitsValue bits, bits.length) = bits := by
  induction bits using List.reverseRecOn with
  | nil => rfl
  | append_singleton bits b ih =>
    have hhalf : (2 * bitsValue bits + b.toNat) / 2 = bitsValue bits := by
      rw [Nat.mul_add_div two_pos, Nat.div_eq_of_lt b.toNat_lt, add_zero]
    rw [List.length_append, List.length_singleton, fieldBits_succ, bitsValue_concat, hhalf, ih, Nat.testBit_zero]
    cases b <;> simp [Nat.add_mod]

/-- A byte packed from up to eight bits holds those bits, then zeros (D27). -/
theorem fieldBits_byteOfBits (bits : List Bool) :
    fieldBits ((byteOfBits bits).toNat, 8) = (List.range 8).map (fun i => bits.getD i false) := by
  have hvalue : byteOfBits bits = BitVec.ofNat 8 (bitsValue ((List.range 8).map (fun i => bits.getD i false))) := by
    rw [byteOfBits, bitsValue, List.foldl_map]
    congr! with acc i
    cases bits.getD i false <;> rfl
  rw [hvalue, BitVec.toNat_ofNat, fieldBits_mod]
  exact fieldBits_bitsValue ((List.range 8).map (fun i => bits.getD i false))

theorem prefix_fieldBits_byteOfBits {bits : List Bool} (h : bits.length ≤ 8) :
    bits <+: fieldBits ((byteOfBits bits).toNat, 8) := by
  rw [fieldBits_byteOfBits, List.prefix_iff_getElem]
  refine ⟨by simpa using h, fun i hi => ?_⟩
  simp [hi]

/-- Cutting a bit string into bytes loses no bit: at most zeros follow it (R224). -/
theorem prefix_bitsOfBytes_bytesOfBits (bits : List Bool) : bits <+: bitsOfBytes (bytesOfBits bits) := by
  fun_induction bytesOfBits bits with
  | case1 b7 b6 b5 b4 b3 b2 b1 b0 rest ih =>
    rw [bitsOfBytes, List.flatMap_cons, fieldBits_byteOfBits]
    exact (List.prefix_append_right_inj [b7, b6, b5, b4, b3, b2, b1, b0]).2 ih
  | case2 => exact List.nil_prefix
  | case3 bits hlong hnil =>
    have hlen : bits.length ≤ 8 := by
      by_contra hlen
      exact hlong bits[0] bits[1] bits[2] bits[3] bits[4] bits[5] bits[6] bits[7] (bits.drop 8)
        (by simp only [List.cons_getElem_drop_succ, List.drop_zero])
    simpa [bitsOfBytes] using prefix_fieldBits_byteOfBits hlen

/-- The fields' bits begin the packed codewords' bits, whatever the pads (R224). -/
theorem prefix_bitsOfBytes_packFields (hp : HostParams) (fields : List (Nat × Nat)) (n : Nat) :
    fields.flatMap fieldBits <+: bitsOfBytes (packFields hp fields n) := by
  rw [packFields, bitsOfBytes, List.flatMap_append]
  exact (prefix_bitsOfBytes_bytesOfBits _).trans (List.prefix_append ..)

theorem walkFields_cons (w : Nat) (ws : List Nat) (bits : List Bool) :
    walkFields (w :: ws) bits = bitsValue (bits.take w) :: walkFields ws (bits.drop w) := rfl

/-- A walk of a bit string that the fields' bits begin reads the fields' values. -/
theorem walkFields_flatMap_append {fields : List (Nat × Nat)} (h : ∀ f ∈ fields, f.1 < 2 ^ f.2) (tail : List Bool) :
    walkFields (fields.map (·.2)) (fields.flatMap fieldBits ++ tail) = fields.map (·.1) := by
  induction fields with
  | nil => rfl
  | cons f fields ih =>
    obtain ⟨hf, hfields⟩ := List.forall_mem_cons.1 h
    rw [List.map_cons, List.flatMap_cons, List.append_assoc, walkFields_cons, List.take_left' (fieldBits_length f),
      List.drop_left' (fieldBits_length f), bitsValue_fieldBits hf, ih hfields, List.map_cons]

/-- Settles O59: the codewords' bits begin with the fields' bits, and a walk of such a string reads the fields back. -/
theorem packingRoundTrip : Obligations.PackingRoundTrip := by
  intro hp fields n h
  obtain ⟨tail, htail⟩ := prefix_bitsOfBytes_packFields hp fields n
  rw [← htail]
  exact walkFields_flatMap_append h tail

end Sys2Proof.Machine

namespace Sys2Proof.Machine

/-! ### The registers after reset (R270) -/

/-- Every register of `t`, and its sequencer, is as reset leaves it for the parameters `p`. The reset input and power-up
agree on these fields and differ only in the model's own (log 12). -/
structure RegistersReset (p : Params) (t : State) : Prop where
  params : t.params = p
  ctrl   : t.ctrl = { ieDone := false, ieFault := false, ieBuserr := false }
  status : t.status = { done := false, fault := false, buserr := false, flags := SeqFlags.none, phase := .idle }
  err    : t.err = ErrRegs.zero
  cfg    : t.cfg = { version := 0#6, eccode := 0#2, ecclen := 0#8, nblocks := 0#8, rembits := 0#3 }
  res    : t.res = ResultRegs.zero
  seq    : t.seq = (State.resetWith p).seq

theorem registersReset_applyReset (s : State) : RegistersReset s.params (applyReset s) := by constructor <;> rfl

theorem registersReset_resetWith (p : Params) : RegistersReset p (State.resetWith p) := by constructor <;> rfl

/-- The penalty registers are one register file, reset in every mask and field (R39). -/
@[simp] theorem resultRegs_zero_pen_field (m : Fin 8) (f : PenField) :
    ResultRegs.zero.pen[m].field f = .known 0#32 := by
  have hpen : ResultRegs.zero.pen[m] = Pen.zero := Vector.getElem_replicate m.isLt
  rw [hpen]
  cases f <;> rfl

namespace RegistersReset

variable {p : Params} {t : State}

theorem irq_eq_false (h : RegistersReset p t) : t.irq = false := by rw [State.irq, h.status, h.ctrl]; rfl

theorem busy_eq_false (h : RegistersReset p t) : t.busy = false := by rw [State.busy, h.seq]; rfl

theorem statusWord_eq_zero (h : RegistersReset p t) : t.statusWord = 0#32 := by
  rw [State.statusWord, h.irq_eq_false, h.busy_eq_false, h.status]
  rfl

theorem readLoc_params0 (h : RegistersReset p t) (d : Nat) : readLoc t d .params0 = params0Word p := by
  rw [readLoc, h.params]

theorem readLoc_params1 (h : RegistersReset p t) (d : Nat) : readLoc t d .params1 = params1Word p := by
  rw [readLoc, h.params]

theorem readLoc_ctrl (h : RegistersReset p t) (d : Nat) : readLoc t d .ctrl = 0#32 := by rw [readLoc, h.ctrl]; rfl

/-- ERR and ERRINFO record no fault (R245). -/
theorem readLoc_err_errinfo (h : RegistersReset p t) (d : Nat) :
    readLoc t d .err = 0#32 ∧ readLoc t d .errinfo = 0#32 := by
  simp only [readLoc, h.err]
  exact ⟨rfl, rfl⟩

/-- The configuration registers, and SIDE, which is computed from VERSION = 0 (R35). -/
theorem readLoc_config (h : RegistersReset p t) (d : Nat) :
    readLoc t d .version = 0#32 ∧ readLoc t d .eccode = 0#32 ∧ readLoc t d .ecclen = 0#32
      ∧ readLoc t d .nblocks = 0#32 ∧ readLoc t d .rembits = 0#32 ∧ readLoc t d .side = 0#32 := by
  simp only [readLoc, h.cfg]
  exact ⟨rfl, rfl, rfl, rfl, rfl, rfl⟩

/-- Every result register holds a value, so no read of one draws a free value. -/
theorem readLoc_results (h : RegistersReset p t) (d : Nat) :
    readLoc t d .ndata = 0#32 ∧ readLoc t d .ntotal = 0#32 ∧ readLoc t d .selMask = 0#32
      ∧ readLoc t d .fmtIndex = 0#32 ∧ readLoc t d .fmtBits = 0#32 := by
  simp only [readLoc, h.res]
  exact ⟨rfl, rfl, rfl, rfl, rfl⟩

theorem readLoc_pen (h : RegistersReset p t) (d : Nat) (m : Fin 8) (f : PenField) :
    readLoc t d (.pen m f) = 0#32 := by
  rw [readLoc, h.res, resultRegs_zero_pen_field]
  rfl

end RegistersReset

/-- Settles O1: the reset input answers `applyReset`, which agrees with power-up on every register, and there each
register reads its value of R270's table. -/
theorem resetRegisterValues : Obligations.ResetRegisterValues := by
  intro s
  refine ⟨applyReset s, rfl, fun t ht => ?_⟩
  have h : RegistersReset s.params t := by
    obtain rfl | rfl := ht
    · exact registersReset_applyReset s
    · exact registersReset_resetWith s.params
  refine ⟨fun d => ?reads, by rw [h.seq]; rfl, by rw [h.seq]; rfl, h.irq_eq_false⟩
  case reads =>
    obtain ⟨herr, hinfo⟩ := h.readLoc_err_errinfo d
    obtain ⟨hversion, heccode, hecclen, hnblocks, hrembits, hside⟩ := h.readLoc_config d
    obtain ⟨hndata, hntotal, hselMask, hfmtIndex, hfmtBits⟩ := h.readLoc_results d
    exact ⟨rfl, h.readLoc_params0 d, h.readLoc_params1 d, h.readLoc_ctrl d, h.statusWord_eq_zero, herr, hinfo,
      hversion, heccode, hecclen, hnblocks, hrembits, hside, hndata, hntotal, hselMask, hfmtIndex, hfmtBits,
      h.readLoc_pen d⟩

end Sys2Proof.Machine

namespace Sys2Proof.Machine

open Sys2Proof.Claims

/-! ### The decoder (R91 to R93) -/

theorem decodeWord_encode (i : Instr) : decodeWord (encode i) = .ok i := by cases i <;> rfl

/-- Only a command's own word decodes to it (R93). -/
theorem eq_encode_of_decodeWord {w : Word} {i : Instr} (h : decodeWord w = .ok i) : w = encode i := by
  unfold decodeWord at h
  split_ifs at h <;> cases h <;> assumption

theorem decodeWord_eq_ok_iff {w : Word} {i : Instr} : decodeWord w = .ok i ↔ w = encode i :=
  ⟨eq_encode_of_decodeWord, fun h => h ▸ decodeWord_encode i⟩

/-- The low bytes of a word in lane order are the word again (R68). -/
theorem wordOfBytes_encode (i : Instr) :
    wordOfBytes ((encode i).extractLsb' 0 8) ((encode i).extractLsb' 8 8) ((encode i).extractLsb' 16 8)
      ((encode i).extractLsb' 24 8) = encode i := by cases i <;> rfl

theorem decode_bytesOfWord_encode (i : Instr) (rest : List Byte) :
    decode (bytesOfWord (encode i) ++ rest) = .ok (i, rest) := by
  simp only [bytesOfWord, List.cons_append, List.nil_append, decode, wordOfBytes_encode, decodeWord_encode]

/-- Settles O10: each word is decoded by its own branch. -/
theorem commandWordsDecode : Obligations.CommandWordsDecode := ⟨rfl, rfl, rfl, rfl, rfl, rfl, rfl⟩

/-- Settles O11: the decoder and the encoder are inverse, and the bytes of an encoding make up its word. -/
theorem decodeEncodeAgree : Obligations.DecodeEncodeAgree :=
  ⟨fun _ _ => decodeWord_eq_ok_iff, decode_bytesOfWord_encode⟩

end Sys2Proof.Machine

namespace Sys2Proof.Claims

open Sys2Proof.Machine

/-! ### Frames of the sequencer compose -/

theorem Around.refl (s : State) : Around s s := by constructor <;> rfl

theorem Around.trans {s t u : State} (h : Around s t) (h' : Around t u) : Around s u where
  params := h'.params.trans h.params
  ctrl := h'.ctrl.trans h.ctrl
  cfg := h'.cfg.trans h.cfg
  buserr := h'.buserr.trans h.buserr
  abortReq := h'.abortReq.trans h.abortReq
  blk := h'.blk.trans h.blk
  gf := h'.gf.trans h.gf
  pl := h'.pl.trans h.pl
  frame := h'.frame.trans h.frame
  fmtC1 := h'.fmtC1.trans h.fmtC1
  fmtC2 := h'.fmtC2.trans h.fmtC2
  fmtTable := h'.fmtTable.trans h.fmtTable
  host := h'.host.trans h.host
  turns := h'.turns.trans h.turns
  resp := h'.resp.trans h.resp

end Sys2Proof.Claims

namespace Sys2Proof.Machine

open Sys2Proof.Claims

/-! ### What no turn of the sequencer changes (R52, R244) -/

theorem around_startStep (p : Phase) (s : State) : Around s (startStep p s) := by constructor <;> rfl

theorem around_complete (s : State) : Around s (complete s) := by constructor <;> rfl

theorem around_takeFault (c : FaultCode) (i w : Word) (s : State) : Around s (takeFault c i w s) := by
  constructor <;> rfl

theorem around_finish (w : Word) (b : Body) : Around b.state (b.finish w) := by
  cases b with
  | done s => exact around_complete s
  | raise c i s => exact around_takeFault c i w s

theorem around_pause (w : Word) (b : Body) : Around b.state (b.pause w) := by
  cases b with
  | done s => constructor <;> rfl
  | raise c i s => exact around_takeFault c i w s

theorem around_andThen {s : State} {b : Body} {f : State → Body} (hb : Around s b.state)
    (hf : ∀ u, Around u (f u).state) : Around s (b.andThen f).state := by
  cases b with
  | done u => exact hb.trans (hf u)
  | raise c i u => exact hb

theorem around_rsBody (s : State) : Around s (rsBody s).state := by
  rcases rsBody_cases s with ⟨_, _, -, hb⟩ | ⟨_, -, hb⟩ <;> rw [hb] <;> constructor <;> rfl

theorem around_placeBody (s : State) : Around s (placeBody s).state := by
  rcases placeBody_cases s with ⟨-, hb⟩ | ⟨-, _, _, -, hb⟩ | ⟨-, _, -, ⟨-, hb⟩ | ⟨-, _, -, hb⟩ | ⟨-, -, hb⟩⟩ <;>
    rw [hb] <;> constructor <;> rfl

theorem around_scoreBody (s : State) : Around s (scoreBody s).state := by
  rcases scoreBody_cases s with ⟨-, hb⟩ | ⟨-, -, hb⟩ | ⟨-, -, hb⟩ <;> rw [hb] <;> constructor <;> rfl

theorem around_finalizeBody (s : State) : Around s (finalizeBody s).state := by
  rcases finalizeBody_cases s with ⟨-, hb⟩ | ⟨-, -, hb⟩ | ⟨-, -, ⟨_, -, hb⟩ | ⟨-, hb⟩⟩ <;> rw [hb] <;>
    constructor <;> rfl

theorem around_encodeAllFrom (p : Phase) (s : State) : Around s (encodeAllFrom p s).state := by
  have hall : Around s (((rsBody s).andThen placeBody).andThen scoreBody |>.andThen finalizeBody).state :=
    around_andThen (around_andThen (around_andThen (around_rsBody s) around_placeBody) around_scoreBody)
      around_finalizeBody
  cases p with
  | idle => exact hall
  | ctrl => exact hall
  | rs => exact hall
  | place => exact around_andThen (around_andThen (around_placeBody s) around_scoreBody) around_finalizeBody
  | score => exact around_andThen (around_scoreBody s) around_finalizeBody
  | final => exact around_finalizeBody s

theorem around_encodeAllBody (s : State) : Around s (encodeAllBody s).state := by
  unfold encodeAllBody
  split
  · exact around_finalizeBody s
  · exact around_scoreBody s
  · exact around_placeBody s
  all_goals exact around_rsBody s

theorem around_stepBody (w : Word) (s : State) : Around s (stepBody w s).state := by
  unfold stepBody
  split
  · exact around_startStep .ctrl s
  · constructor <;> rfl
  · exact around_rsBody s
  · exact around_placeBody s
  · exact around_scoreBody s
  · exact around_finalizeBody s
  · exact around_encodeAllBody s
  · exact Around.refl s

theorem around_exec {i : Instr} {s t : State} (h : exec i s = .next t) : Around s t := by
  cases i <;> cases h
  · exact (around_startStep .ctrl s).trans (around_complete _)
  · constructor <;> rfl
  · exact (around_rsBody s).trans (around_finish _ _)
  · exact (around_placeBody s).trans (around_finish _ _)
  · exact (around_scoreBody s).trans (around_finish _ _)
  · exact (around_finalizeBody s).trans (around_finish _ _)
  · exact (around_encodeAllFrom _ s).trans (around_finish _ _)

theorem around_runWord {w : Word} {s t : State} (h : runWord w s = .next t) : Around s t := by
  unfold runWord at h
  split at h
  · exact around_exec h
  · cases h; exact around_takeFault _ _ _ s

/-- Everything a run turn can do (R110, R112, R116): nothing with no command in flight; otherwise the word from where its
step stands, from its next step, or its completion alone. -/
theorem runTurn_cases (s : State) :
    (s.seq.inflight = none ∧ runTurn s = .next s)
    ∨ ∃ w, s.seq.inflight = some w
      ∧ ((s.seq.ended = false ∧ runTurn s = runWord w s)
        ∨ (s.seq.ended = true ∧ ∃ p, nextOf w s = some p ∧ runTurn s = runWord w (startStep p s))
        ∨ (s.seq.ended = true ∧ nextOf w s = none ∧ runTurn s = .next (complete s))) := by
  unfold runTurn runRest
  cases hw : s.seq.inflight with
  | none => exact .inl ⟨rfl, rfl⟩
  | some w =>
    refine .inr ⟨w, rfl, ?_⟩
    cases hd : s.seq.ended with
    | false => exact .inl ⟨rfl, rfl⟩
    | true =>
      cases hn : nextOf w s with
      | some p => exact .inr (.inl ⟨rfl, p, rfl, by simp [hn]⟩)
      | none => exact .inr (.inr ⟨rfl, rfl, by simp [hn]⟩)

theorem around_runTurn {s t : State} (h : runTurn s = .next t) : Around s t := by
  rcases runTurn_cases s with ⟨-, hr⟩ | ⟨w, -, ⟨-, hr⟩ | ⟨-, p, -, hr⟩ | ⟨-, -, hr⟩⟩ <;> rw [hr] at h
  · cases h; exact Around.refl s
  · exact around_runWord h
  · exact (around_startStep p s).trans (around_runWord h)
  · cases h; exact around_complete s

theorem around_bodyTurn {s t : State} (h : bodyTurn s = .next t) : Around s t := by
  cases hw : s.seq.inflight with
  | none =>
    rw [(turns_idle hw).2.1] at h
    cases h; exact Around.refl s
  | some w =>
    have hbody := around_stepBody w s
    rcases bodyTurn_cases hw with ⟨-, -, hb⟩ | ⟨-, p, -, hb⟩ | ⟨-, u, hu, hb⟩ | ⟨-, c, i, u, hu, hb⟩ <;>
      rw [hb] at h <;> cases h
    · exact around_complete s
    · exact around_startStep p s
    · rw [hu] at hbody; exact hbody.trans (around_pause w (.done u))
    · rw [hu] at hbody; exact hbody.trans (around_takeFault c i w u)

theorem around_workTurn {s t : State} (h : workTurn s = .next t) : Around s t := by
  unfold workTurn at h
  split at h <;> cases h <;> constructor <;> rfl

theorem around_takeAbort (w : Word) (s : State) : Around s (takeAbort w s) := by
  obtain ⟨⟨cw, plane, out, hmem⟩, habort⟩ := dropStep_leaves w s
  constructor <;> simp [takeAbort, hmem, habort]

theorem around_abortTurn {s t : State} (h : abortTurn s = .next t) : Around s t := by
  cases hw : s.seq.inflight with
  | none =>
    rw [(turns_idle hw).2.2.2] at h
    cases h; exact Around.refl s
  | some w =>
    rcases abortTurn_cases hw with ⟨c, -, ha⟩ | ⟨-, -, ha⟩ | ⟨-, -, ha⟩ <;> rw [ha] at h <;> cases h
    · exact around_takeFault c w w s
    · exact around_takeAbort w s
    · exact Around.refl s

/-- Settles O9: each of the four turns is made of bodies, faults, completions and aborts, which leave these as they are. -/
theorem sequencerNeverWritesTables : Obligations.SequencerNeverWritesTables := by
  rintro s t (h | h | h | h)
  · exact around_runTurn h
  · exact around_bodyTurn h
  · exact around_workTurn h
  · exact around_abortTurn h

/-! ### The end of a command (R112, R242) -/

theorem runWord_completes {w : Word} {s t : State} (h : runWord w s = .next t) :
    t.seq.inflight = none ∧ t.seq.loops = 0 ∧ t.seq.ended = false ∧ t.status.done = true ∧ t.status.phase = .idle := by
  unfold runWord at h
  split at h
  · exact exec_completes h
  · cases h; exact ⟨rfl, rfl, rfl, rfl, rfl⟩

/-- A run turn completes the command in flight, from wherever its step stands (R283). -/
theorem runTurn_completes {s t : State} {w : Word} (hw : s.seq.inflight = some w) (h : runTurn s = .next t) :
    t.seq.inflight = none ∧ t.seq.loops = 0 ∧ t.seq.ended = false ∧ t.status.done = true ∧ t.status.phase = .idle := by
  rcases runTurn_cases s with ⟨hn, -⟩ | ⟨w, -, ⟨-, hr⟩ | ⟨-, p, -, hr⟩ | ⟨-, -, hr⟩⟩
  · rw [hw] at hn; cases hn
  · exact runWord_completes (hr ▸ h)
  · exact runWord_completes (hr ▸ h)
  · rw [hr] at h; cases h; exact ⟨rfl, rfl, rfl, rfl, rfl⟩

theorem runWord_next (w : Word) (s : State) : ∃ t, runWord w s = .next t := by
  unfold runWord
  split
  · exact exec_next _ s
  · exact ⟨_, rfl⟩

theorem runTurn_next (s : State) : ∃ t, runTurn s = .next t := by
  rcases runTurn_cases s with ⟨-, hr⟩ | ⟨w, -, ⟨-, hr⟩ | ⟨-, p, -, hr⟩ | ⟨-, -, hr⟩⟩ <;> rw [hr]
  · exact ⟨_, rfl⟩
  · exact runWord_next w s
  · exact runWord_next w _
  · exact ⟨_, rfl⟩

theorem exists_inflight_of_busy {s : State} (h : s.busy = true) : ∃ w, s.seq.inflight = some w :=
  Option.isSome_iff_exists.1 h

theorem busy_eq_false_of_inflight {s : State} (h : s.seq.inflight = none) : s.busy = false := by rw [State.busy, h]; rfl

/-- Settles O8: the run turn answers, completes the command, and leaves the rest of the schedule. -/
theorem runCompletesCommandInFlight : Obligations.RunCompletesCommandInFlight := by
  intro s ts hb
  obtain ⟨w, hw⟩ := exists_inflight_of_busy hb
  obtain ⟨t, ht⟩ := runTurn_next { s with turns := ts }
  obtain ⟨hidle, -, -, hdone, hphase⟩ := runTurn_completes (s := { s with turns := ts }) hw ht
  exact ⟨t, ht, busy_eq_false_of_inflight hidle, hdone, hphase, (around_runTurn ht).turns⟩

/-! ### A step ends a command or leaves it as it is (R112, R240) -/

/-- The command in flight is no longer in flight, DONE is set and PHASE is IDLE (R112). -/
structure EndsCommand (s t : State) : Prop where
  busy  : s.busy = true
  idle  : t.busy = false
  done  : t.status.done = true
  phase : t.status.phase = .idle

/-- No command ends, and neither DONE nor FAULT becomes 1. -/
structure KeepsCommand (s t : State) : Prop where
  busy  : s.busy = true → t.busy = true
  done  : t.status.done = true → s.status.done = true
  fault : t.status.fault = true → s.status.fault = true

theorem KeepsCommand.refl (s : State) : KeepsCommand s s := ⟨id, id, id⟩

/-- A body that succeeds leaves the word in flight, DONE, FAULT and ERR as they were. -/
theorem stepBody_inCommand {w : Word} {s t : State} (h : stepBody w s = .done t) : InCommand s t := by
  unfold stepBody at h
  split at h
  · cases h; exact ⟨rfl, rfl, rfl, rfl, rfl⟩
  · cases h; exact ⟨rfl, rfl, rfl, rfl, rfl⟩
  · exact rsBody_inCommand h
  · exact placeBody_inCommand h
  · exact scoreBody_inCommand h
  · exact finalizeBody_inCommand h
  · unfold encodeAllBody at h
    split at h
    · exact finalizeBody_inCommand h
    · exact scoreBody_inCommand h
    · exact placeBody_inCommand h
    all_goals exact rsBody_inCommand h
  · cases h

theorem bodyTurn_ends_or_keeps {s t : State} (h : bodyTurn s = .next t) : EndsCommand s t ∨ KeepsCommand s t := by
  cases hw : s.seq.inflight with
  | none =>
    rw [(turns_idle hw).2.1] at h
    cases h; exact .inr (KeepsCommand.refl s)
  | some w =>
    have hb : s.busy = true := by rw [State.busy, hw]; rfl
    rcases bodyTurn_cases hw with ⟨-, -, ht⟩ | ⟨-, p, -, ht⟩ | ⟨-, u, hu, ht⟩ | ⟨-, c, i, u, hu, ht⟩ <;>
      rw [ht] at h <;> cases h
    · exact .inl ⟨hb, rfl, rfl, rfl⟩
    · exact .inr ⟨id, id, id⟩
    · have hin := stepBody_inCommand hu
      refine .inr ⟨fun _ => ?_, fun hd => hin.done ▸ hd, fun hf => hin.fault ▸ hf⟩
      rw [State.busy, endStep_seq, hin.inflight, hw]; rfl
    · exact .inl ⟨hb, rfl, rfl, rfl⟩

theorem abortTurn_ends_or_keeps {s t : State} (h : abortTurn s = .next t) : EndsCommand s t ∨ KeepsCommand s t := by
  cases hw : s.seq.inflight with
  | none =>
    rw [(turns_idle hw).2.2.2] at h
    cases h; exact .inr (KeepsCommand.refl s)
  | some w =>
    have hb : s.busy = true := by rw [State.busy, hw]; rfl
    rcases abortTurn_cases hw with ⟨c, -, ha⟩ | ⟨-, -, ha⟩ | ⟨-, -, ha⟩ <;> rw [ha] at h <;> cases h
    · exact .inl ⟨hb, rfl, rfl, rfl⟩
    · obtain ⟨hidle, -, -, hdone, -, hphase, -⟩ := takeAbort_completes w s
      exact .inl ⟨hb, busy_eq_false_of_inflight hidle, hdone, hphase⟩
    · exact .inr (KeepsCommand.refl s)

theorem runTurn_ends_or_keeps {s t : State} (h : runTurn s = .next t) : EndsCommand s t ∨ KeepsCommand s t := by
  cases hw : s.seq.inflight with
  | none =>
    rw [(turns_idle hw).1] at h
    cases h; exact .inr (KeepsCommand.refl s)
  | some w =>
    obtain ⟨hidle, -, -, hdone, hphase⟩ := runTurn_completes hw h
    exact .inl ⟨by rw [State.busy, hw]; rfl, busy_eq_false_of_inflight hidle, hdone, hphase⟩

theorem workTurn_keeps {s t : State} (h : workTurn s = .next t) : KeepsCommand s t := by
  unfold workTurn at h
  split at h <;> cases h <;> exact ⟨id, id, id⟩

/-- A write leaves BUSY at 1, and sets neither DONE nor FAULT. -/
theorem writeLoc_keeps (v : Word) (s : State) (l : Loc) : KeepsCommand s (writeLoc v s l) := by
  cases l with
  | status =>
    rw [writeLoc, writeStatus_eq]
    exact ⟨id, fun h => by simpa using (ite_eq_iff.1 h).resolve_left (by simp) |>.2,
      fun h => by simpa using (ite_eq_iff.1 h).resolve_left (by simp) |>.2⟩
  | cmd => exact ⟨fun _ => rfl, fun h => (Bool.false_ne_true h).elim, id⟩
  | _ => exact ⟨id, id, id⟩

theorem busAccess_keeps (a : BusAccess) (s : State) : KeepsCommand s (busAccess a s) := by
  rcases busAccess_cases a s with hb | ⟨_, -, -, hb⟩ | ⟨off, v, _, -, -, hb⟩ <;> rw [hb]
  · exact ⟨id, id, id⟩
  · exact ⟨id, id, id⟩
  · obtain ⟨hbusy, hdone, hfault⟩ := writeLoc_keeps v s (locate s.params off.toNat)
    exact ⟨hbusy, hdone, hfault⟩

theorem hostTurn_keeps {k : Nat} {s t : State} (h : hostTurn k s = .next t) : KeepsCommand s t := by
  unfold hostTurn at h
  split at h <;> cases h
  · next a rest _ =>
    obtain ⟨hbusy, hdone, hfault⟩ := busAccess_keeps a { s with host := rest }
    exact ⟨hbusy, hdone, hfault⟩
  · exact KeepsCommand.refl s

/-- Every turn but the reset input ends the command in flight as R112 says, or ends none and sets neither flag. -/
theorem takeTurn_ends_or_keeps {u : Turn} {s t : State} (hu : u ≠ .reset) (h : takeTurn u s = .next t) :
    EndsCommand s t ∨ KeepsCommand s t := by
  cases u with
  | host k => exact .inr (hostTurn_keeps h)
  | run => exact runTurn_ends_or_keeps h
  | body => exact bodyTurn_ends_or_keeps h
  | work => exact .inr (workTurn_keeps h)
  | abort => exact abortTurn_ends_or_keeps h
  | reset => exact absurd rfl hu

/-- Everything a step can do about the command in flight and the flags DONE and FAULT: the reset input clears both. -/
theorem step_cases {s t : State} (h : step s = .next t) :
    (s.turns.head? = some .reset ∧ t.status.done = false ∧ t.status.fault = false)
    ∨ EndsCommand s t ∨ KeepsCommand s t := by
  unfold step stepTurn at h
  split at h
  · next u us hturns =>
    by_cases hu : u = .reset
    · subst hu
      cases h
      exact .inl ⟨by rw [hturns]; rfl, rfl, rfl⟩
    · refine .inr ?_
      rcases takeTurn_ends_or_keeps hu h with ⟨hb, hi, hd, hp⟩ | ⟨hb, hd, hf⟩
      · exact .inl ⟨hb, hi, hd, hp⟩
      · exact .inr ⟨hb, hd, hf⟩
  · split at h
    · exact .inr (runTurn_ends_or_keeps h)
    · exact .inr (.inr (hostTurn_keeps h))

/-- Settles O6: a step that sets DONE is no reset and ends a command, and a step that ends one sets it. -/
theorem doneMarksCommandEnd : Obligations.DoneMarksCommandEnd := by
  intro s t h
  rcases step_cases h with ⟨hreset, hdone, -⟩ | hend | hkeep
  · exact ⟨fun _ hd => by simp [hdone] at hd, fun _ _ hne => absurd hreset hne⟩
  · exact ⟨fun _ _ => ⟨hend.busy, hend.idle⟩, fun _ _ _ => ⟨hend.done, hend.phase⟩⟩
  · exact ⟨fun h0 h1 => by simp [hkeep.done h1] at h0, fun hb hi => by simp [hkeep.busy hb] at hi⟩

/-- Settles O7: of the things a step can do, only the end of a command lets FAULT become 1. -/
theorem faultOnlyEndsCommand : Obligations.FaultOnlyEndsCommand := by
  intro s t h h0 h1
  rcases step_cases h with ⟨-, -, hfault⟩ | hend | hkeep
  · simp [hfault] at h1
  · exact ⟨hend.busy, hend.idle, hend.done⟩
  · simp [hkeep.fault h1] at h0

end Sys2Proof.Machine

namespace Sys2Proof.Machine

open Sys2Proof.Claims

/-! ### What a step that succeeds leaves (R114, R116) -/

/-- The step of phase `p` has succeeded: PHASE is `p`, the own flag of the step is 1 and every later one 0, and an RS step
has written NTOTAL. -/
structure Succeeded (p : Phase) (s t : State) : Prop where
  inCommand : InCommand s t
  phase     : t.status.phase = p
  flags     : t.status.flags = successFlags p (startFlags p t.status.flags)
  counts    : p = .rs → t.res.ntotal.isKnown = true

theorem rsBody_succeeded {s t : State} (h : rsBody s = .done t) : Succeeded .rs s t := by
  refine ⟨rsBody_inCommand h, (bodies_succeed.1 h).1, ?_, ?_⟩ <;>
    rcases rsBody_cases s with ⟨_, _, -, hb⟩ | ⟨_, -, hb⟩ <;> rw [hb] at h <;> cases h
  · rfl
  · exact fun _ => rfl

theorem placeBody_succeeded {s t : State} (h : placeBody s = .done t) : Succeeded .place s t := by
  refine ⟨placeBody_inCommand h, (bodies_succeed.2.1 h).1, ?_, nofun⟩
  rcases placeBody_cases s with ⟨-, hb⟩ | ⟨-, _, _, -, hb⟩ | ⟨-, _, -, ⟨-, hb⟩ | ⟨-, _, -, hb⟩ | ⟨-, -, hb⟩⟩ <;>
    rw [hb] at h <;> cases h
  rfl

theorem scoreBody_succeeded {s t : State} (h : scoreBody s = .done t) : Succeeded .score s t := by
  refine ⟨scoreBody_inCommand h, (bodies_succeed.2.2.1 h).1, ?_, nofun⟩
  rcases scoreBody_cases s with ⟨-, hb⟩ | ⟨-, -, hb⟩ | ⟨-, -, hb⟩ <;> rw [hb] at h <;> cases h
  rfl

theorem finalizeBody_succeeded {s t : State} (h : finalizeBody s = .done t) : Succeeded .final s t := by
  refine ⟨finalizeBody_inCommand h, (bodies_succeed.2.2.2 h).1, ?_, nofun⟩
  rcases finalizeBody_cases s with ⟨-, hb⟩ | ⟨-, -, hb⟩ | ⟨-, -, ⟨_, -, hb⟩ | ⟨-, hb⟩⟩ <;> rw [hb] at h <;> cases h
  rfl

theorem encodeAllBody_succeeded {s t : State} (h : encodeAllBody s = .done t) :
    ∃ p, Succeeded p s t ∧ (phaseAllowed (encode .encodeAll) s.status.phase = true → s.status.phase = p) := by
  unfold encodeAllBody at h
  split at h
  · next hp => exact ⟨.final, finalizeBody_succeeded h, fun _ => hp⟩
  · next hp => exact ⟨.score, scoreBody_succeeded h, fun _ => hp⟩
  · next hp => exact ⟨.place, placeBody_succeeded h, fun _ => hp⟩
  · next hp => exact ⟨.rs, rsBody_succeeded h, fun ha => by rw [hp] at ha; cases ha⟩
  · next hp => exact ⟨.rs, rsBody_succeeded h, fun ha => by rw [hp] at ha; cases ha⟩
  · next hp => exact ⟨.rs, rsBody_succeeded h, fun _ => hp⟩

/-- A command other than ENCODE_ALL has one phase (R116). -/
theorem phaseAllowed_encode {i : Instr} {p : Phase} (hi : i ≠ .encodeAll) :
    phaseAllowed (encode i) p = true ↔ p = firstPhaseOf i := by
  cases i <;> simp_all [phaseAllowed, decodeWord_encode]

/-- A step that succeeds is one of a command, and of the phase that PHASE names where that is one of the command's. -/
theorem stepBody_succeeded {w : Word} {s t : State} (h : stepBody w s = .done t) :
    ∃ i p, decodeWord w = .ok i ∧ Succeeded p s t ∧ (phaseAllowed w s.status.phase = true → s.status.phase = p) := by
  have single {i : Instr} (hw : decodeWord w = .ok i) (hi : i ≠ .encodeAll) (hs : Succeeded (firstPhaseOf i) s t) :
      ∃ i p, decodeWord w = .ok i ∧ Succeeded p s t ∧ (phaseAllowed w s.status.phase = true → s.status.phase = p) :=
    ⟨i, _, hw, hs, (eq_encode_of_decodeWord hw ▸ phaseAllowed_encode hi).1⟩
  unfold stepBody at h
  split at h
  · next hw => cases h; exact single hw nofun ⟨⟨rfl, rfl, rfl, rfl, rfl⟩, rfl, rfl, nofun⟩
  · next hw => cases h; exact single hw nofun ⟨⟨rfl, rfl, rfl, rfl, rfl⟩, rfl, rfl, nofun⟩
  · next hw => exact single hw nofun (rsBody_succeeded h)
  · next hw => exact single hw nofun (placeBody_succeeded h)
  · next hw => exact single hw nofun (scoreBody_succeeded h)
  · next hw => exact single hw nofun (finalizeBody_succeeded h)
  · next hw =>
    obtain ⟨p, hs, hp⟩ := encodeAllBody_succeeded h
    exact ⟨_, p, hw, hs, eq_encode_of_decodeWord hw ▸ hp⟩
  · cases h

/-! ### The invariant, turn by turn -/

/-- The invariant of a state whose command in flight, PHASE, sequence flags and NTOTAL are those of a state that meets it,
and whose DONE and FAULT are no larger. -/
theorem Inv.congr {s t : State} (h : Inv s) (hg : Good t) (hin : t.seq.inflight = s.seq.inflight)
    (hl : t.seq.loops = s.seq.loops) (he : t.seq.ended = s.seq.ended) (hp : t.status.phase = s.status.phase)
    (hf : t.status.flags = s.status.flags) (hn : t.res.ntotal = s.res.ntotal) (hk : KeepsCommand s t) : Inv t :=
  { hg with
    idle_phase := by rw [hin, hp]; exact h.idle_phase
    idle_loops := by rw [hin, hl]; exact h.idle_loops
    idle_ended := by rw [hin, he]; exact h.idle_ended
    busy_phase := by rw [hin, hp]; exact h.busy_phase
    busy_clean := fun hb => by
      obtain ⟨hd, hf⟩ := h.busy_clean (hin ▸ hb)
      exact ⟨Bool.eq_false_iff.2 fun h1 => by simp [hk.done h1] at hd,
        Bool.eq_false_iff.2 fun h1 => by simp [hk.fault h1] at hf⟩
    step_flags := by rw [he, hp, hf]; exact h.step_flags
    ended_flags := by rw [he, hp, hf, hin]; exact h.ended_flags
    ended_counts := by rw [he, hp, hn]; exact h.ended_counts }

/-- The invariant of a state with a step of a command in flight that has not ended. -/
theorem Good.inv_started {s : State} {w : Word} (h : Good s) (hw : s.seq.inflight = some w)
    (he : s.seq.ended = false) (hp : phaseAllowed w s.status.phase = true)
    (hc : s.status.done = false ∧ s.status.fault = false)
    (hf : startFlags s.status.phase s.status.flags = s.status.flags) : Inv s :=
  { h with
    idle_phase := by simp [hw]
    idle_loops := by simp [hw]
    idle_ended := by simp [hw]
    busy_phase := by rw [hw]; rintro _ ⟨⟩; exact hp
    busy_clean := fun _ => hc
    step_flags := fun _ => hf
    ended_flags := by simp [he]
    ended_counts := by simp [he] }

/-- The schedule and the pending accesses are outside the invariant (log 1). -/
theorem Inv.withHost {s : State} (h : Inv s) (host : List BusAccess) (turns : List Turn) :
    Inv { s with host := host, turns := turns } :=
  h.congr (h.good.congr rfl rfl rfl rfl rfl rfl rfl) rfl rfl rfl rfl rfl rfl ⟨id, id, id⟩

theorem Good.afterRunWord {s t : State} (h : Good s) {w : Word} (ht : runWord w s = .next t) : Good t := by
  unfold runWord at ht
  split at ht
  · exact h.afterExec _ ht
  · cases ht; exact h.afterTakeFault _ _ _

theorem Good.afterRunTurn {s t : State} (h : Good s) (ht : runTurn s = .next t) : Good t := by
  rcases runTurn_cases s with ⟨-, hr⟩ | ⟨w, -, ⟨-, hr⟩ | ⟨-, p, -, hr⟩ | ⟨-, -, hr⟩⟩ <;> rw [hr] at ht
  · cases ht; exact h
  · exact h.afterRunWord ht
  · exact (h.afterStartStep p).afterRunWord ht
  · cases ht; exact h.afterComplete

theorem Inv.afterRunTurn {s t : State} (h : Inv s) (ht : runTurn s = .next t) : Inv t := by
  cases hw : s.seq.inflight with
  | none =>
    rw [(turns_idle hw).1] at ht
    cases ht; exact h
  | some w =>
    obtain ⟨hidle, hloops, hended, -, hphase⟩ := runTurn_completes hw ht
    exact (h.good.afterRunTurn ht).inv_idle hidle hloops hended hphase

/-- Only ENCODE_ALL has a next step, and it is one of its phases (R116). -/
theorem phaseAllowed_nextOf {w : Word} {s : State} {p : Phase} (h : nextOf w s = some p) : phaseAllowed w p = true := by
  unfold nextOf at h
  split at h
  · next hw =>
    rw [eq_encode_of_decodeWord hw]
    cases hs : s.status.phase <;> rw [hs] at h <;> cases h <;> rfl
  · cases h

theorem startFlags_startFlags (p : Phase) (f : SeqFlags) : startFlags p (startFlags p f) = startFlags p f := by
  cases p <;> rfl

/-- A step that has succeeded has ended in order (log 25). -/
theorem Inv.afterEndStep {s t : State} {w : Word} (h : Inv s) (hw : s.seq.inflight = some w)
    (ht : stepBody w s = .done t) : Inv (endStep t) := by
  obtain ⟨i, p, hi, ⟨hin, hphase, hflags, hcounts⟩, hp⟩ := stepBody_succeeded ht
  have hg : Good (endStep t) := by simpa [ht] using (h.good.afterStepBody w).pause w
  have hw' : (endStep t).seq.inflight = some w := hin.inflight.trans hw
  obtain ⟨hdone, hfault⟩ := h.busy_clean (by rw [hw]; rfl)
  have hallowed := h.busy_phase w hw
  exact
    { hg with
      idle_phase := by simp [hin.inflight, hw]
      idle_loops := by simp [hin.inflight, hw]
      idle_ended := by simp [hin.inflight, hw]
      busy_phase := by
        rw [hw']
        rintro _ ⟨⟩
        rw [endStep_status, hphase, ← hp hallowed]
        exact hallowed
      busy_clean := fun _ => ⟨hin.done.trans hdone, hin.fault.trans hfault⟩
      step_flags := nofun
      ended_flags := fun _ => ⟨by rw [endStep_status, hphase]; exact hflags, by rw [hw']; rintro _ ⟨⟩; exact ⟨i, hi⟩⟩
      ended_counts := fun _ hrs => hcounts (hphase.symm.trans hrs) }

theorem Inv.afterBodyTurn {s t : State} (h : Inv s) (ht : bodyTurn s = .next t) : Inv t := by
  cases hw : s.seq.inflight with
  | none =>
    rw [(turns_idle hw).2.1] at ht
    cases ht; exact h
  | some w =>
    rcases bodyTurn_cases hw with ⟨-, -, hb⟩ | ⟨-, p, hnext, hb⟩ | ⟨-, u, hu, hb⟩ | ⟨-, c, i, u, hu, hb⟩ <;>
      rw [hb] at ht <;> cases ht
    · exact h.good.afterComplete.inv_idle rfl rfl rfl rfl
    · exact (h.good.afterStartStep p).inv_started hw rfl (phaseAllowed_nextOf hnext) (h.busy_clean (by rw [hw]; rfl))
        (startFlags_startFlags p _)
    · exact h.afterEndStep hw hu
    · have hg := (h.good.afterStepBody w).pause w
      rw [hu, pause_raise] at hg
      exact hg.inv_idle rfl rfl rfl rfl

theorem Inv.afterWorkTurn {s t : State} (h : Inv s) (ht : workTurn s = .next t) : Inv t := by
  unfold workTurn at ht
  split at ht <;> cases ht
  · next hb =>
    rw [Bool.and_eq_true, Bool.not_eq_true'] at hb
    obtain ⟨hbusy, hended⟩ := hb
    obtain ⟨w, hw⟩ := exists_inflight_of_busy hbusy
    exact Good.inv_started (h.good.congr rfl rfl rfl rfl rfl rfl rfl) hw hended (h.busy_phase w hw)
      (h.busy_clean hbusy) (h.step_flags hended)
  · exact h

theorem Inv.afterAbortTurn {s t : State} (h : Inv s) (ht : abortTurn s = .next t) : Inv t := by
  cases hw : s.seq.inflight with
  | none =>
    rw [(turns_idle hw).2.2.2] at ht
    cases ht; exact h
  | some w =>
    rcases abortTurn_cases hw with ⟨c, -, ha⟩ | ⟨-, -, ha⟩ | ⟨-, -, ha⟩ <;> rw [ha] at ht <;> cases ht
    · exact (h.good.afterTakeFault c w w).inv_idle rfl rfl rfl rfl
    · obtain ⟨hidle, hloops, hended, -, -, hphase, -⟩ := takeAbort_completes w s
      exact ((h.good.afterDropStep w).afterTakeFault _ _ w).inv_idle hidle hloops hended hphase
    · exact h

/-- An accepted word is in its first phase, with the flags of that phase and later ones cleared (R111, R114). -/
theorem accept_first_step (w : Word) (f : SeqFlags) :
    phaseAllowed w (firstPhase w) = true ∧ startFlags (firstPhase w) (acceptFlags w f) = acceptFlags w f := by
  unfold phaseAllowed firstPhase acceptFlags
  cases hw : decodeWord w with
  | error r => exact ⟨rfl, rfl⟩
  | ok i => cases i <;> exact ⟨rfl, rfl⟩

/-- A write of any location but CMD leaves the command in flight as it is (R69). -/
theorem writeLoc_leaves_command {l : Loc} (hl : l ≠ .cmd) (v : Word) (s : State) :
    (writeLoc v s l).seq = { s.seq with abortReq := (writeLoc v s l).seq.abortReq }
      ∧ (writeLoc v s l).status.phase = s.status.phase ∧ (writeLoc v s l).status.flags = s.status.flags
      ∧ (writeLoc v s l).res = s.res := by
  cases l with
  | cmd => exact absurd rfl hl
  | status => rw [writeLoc, writeStatus_eq]; exact ⟨rfl, rfl, rfl, rfl⟩
  | _ => exact ⟨rfl, rfl, rfl, rfl⟩

theorem Inv.afterBusAccess {s : State} (h : Inv s) (a : BusAccess) : Inv (busAccess a s) := by
  have hg := h.good.afterBusAccess a
  have hk := busAccess_keeps a s
  rcases busAccess_cases a s with hb | ⟨_, -, -, hb⟩ | ⟨off, v, strobes, -, hw, hb⟩ <;> rw [hb] at hg hk ⊢
  · exact h.congr hg rfl rfl rfl rfl rfl rfl hk
  · exact h.congr hg rfl rfl rfl rfl rfl rfl hk
  · by_cases hl : locate s.params off.toNat = .cmd
    · rw [hl] at hg ⊢
      obtain ⟨hp, hf⟩ := accept_first_step v s.status.flags
      exact hg.inv_started rfl rfl hp ⟨rfl, (writeAllowed_cmd hw hl).2.2⟩ hf
    · obtain ⟨hseq, hphase, hflags, hres⟩ := writeLoc_leaves_command hl v s
      exact h.congr hg (by rw [respond_seq, hseq]) (by rw [respond_seq, hseq]) (by rw [respond_seq, hseq]) hphase hflags
        (by rw [respond_res, hres]) hk

theorem Inv.afterHostTurn {k : Nat} {s t : State} (h : Inv s) (ht : hostTurn k s = .next t) : Inv t := by
  unfold hostTurn at ht
  split at ht <;> cases ht
  · exact (h.withHost _ s.turns).afterBusAccess _
  · exact h

theorem Inv.afterTakeTurn {u : Turn} {s t : State} (h : Inv s) (ht : takeTurn u s = .next t) : Inv t := by
  cases u with
  | host k => exact h.afterHostTurn ht
  | run => exact h.afterRunTurn ht
  | body => exact h.afterBodyTurn ht
  | work => exact h.afterWorkTurn ht
  | abort => exact h.afterAbortTurn ht
  | reset =>
    cases ht
    exact Good.inv_idle ((good_resetWith h.params_legal).congr rfl rfl rfl rfl rfl rfl rfl) rfl rfl rfl rfl

/-- Settles O4: the default parameters are legal, and reset leaves no command in flight. -/
theorem resetMeetsInvariant : Obligations.ResetMeetsInvariant :=
  (good_resetWith (by decide)).inv_idle rfl rfl rfl rfl

/-- Settles O5: each of the six turns keeps the invariant, and the schedule is outside it. -/
theorem stepKeepsInvariant : Obligations.StepKeepsInvariant := by
  intro s t h ht
  unfold step stepTurn at ht
  split at ht
  · next u us _ => exact (h.withHost s.host us).afterTakeTurn ht
  · split at ht
    · exact h.afterRunTurn ht
    · exact h.afterHostTurn ht

end Sys2Proof.Machine

namespace Sys2Proof.Machine

open Sys2Proof.Claims

/-! ### Reset (R271) -/

/-- Settles O3: after the reset input every memory is the empty list, not cleared. -/
theorem resetForgetsMemories : Obligations.ResetForgetsMemories := by
  rintro s _ ⟨⟩ k
  exact ⟨rfl, rfl, rfl, rfl, rfl, rfl, rfl, rfl, rfl, rfl⟩

/-! ### Running the word in flight (R92, R110 to R116) -/

theorem decodeWord_error_of_ne_encode {w : Word} (h : ∀ i, w ≠ encode i) : ∃ r, decodeWord w = .error r := by
  cases hw : decodeWord w with
  | error r => exact ⟨r, rfl⟩
  | ok i => exact absurd (eq_encode_of_decodeWord hw) (h i)

/-- The acceptance of an ILLEGAL word clears no flag and is in phase CTRL (R111, R116). -/
theorem accept_illegal {w : Word} {r : Reject} (h : decodeWord w = .error r) (s : State) :
    (accept w s).status = { s.status with done := false, phase := .ctrl } := by
  rw [accept_status, acceptFlags, firstPhase, h]

/-- Settles O12: an ILLEGAL word has no command to run, so its run is the fault alone. -/
theorem illegalWordFaults : Obligations.IllegalWordFaults := by
  intro s w _ _ hw
  obtain ⟨r, hr⟩ := decodeWord_error_of_ne_encode hw
  have hrun : runTurn (accept w s) = .next (takeFault .badOpcode w w (accept w s)) := by
    simp [runTurn, runWord, hr]
  have hstatus := accept_illegal hr s
  refine ⟨_, hrun, ⟨around_takeFault .badOpcode w w _, rfl, ?status, ?err⟩, rfl, rfl⟩
  case status => rw [takeFault_status, hstatus]
  case err => rw [takeFault_err, hstatus]; rfl

/-- A run turn is `exec` of the command in flight, from the next step where its step has ended, or the completion. -/
theorem runTurn_eq_exec {s : State} {w : Word} {i : Instr} (hw : s.seq.inflight = some w) (hi : decodeWord w = .ok i) :
    runTurn s =
      if s.seq.ended = false then exec i s
      else if i = .encodeAll ∧ s.status.phase = .rs then exec .encodeAll (startStep .place s)
      else if i = .encodeAll ∧ s.status.phase = .place then exec .encodeAll (startStep .score s)
      else if i = .encodeAll ∧ s.status.phase = .score then exec .encodeAll (startStep .final s)
      else .next (complete s) := by
  have hrun (u : State) : runWord w u = exec i u := by rw [runWord, hi]
  rw [runTurn, hw]
  cases hd : s.seq.ended with
  | false => simp [hrun]
  | true =>
    by_cases hall : i = .encodeAll
    · subst hall
      cases hp : s.status.phase <;> simp [runRest, nextOf, hi, hp, nextPhase, hrun]
    · simp [runRest, nextOf, hi, hall]

/-- Settles O13: the turn is a run turn in both cases, on the state less the turn taken. -/
theorem stepRunsDecodedCommand : Obligations.StepRunsDecodedCommand := by
  intro s w i hw hi rest
  have hbusy : s.busy = true := by rw [State.busy, hw]; rfl
  constructor
  · intro hturns
    rw [step, stepTurn, hturns]
    dsimp only
    rw [if_pos hbusy, runTurn_eq_exec hw hi]
    rfl
  · intro ts hturns
    rw [step, stepTurn, hturns]
    exact runTurn_eq_exec (s := { s with turns := ts }) hw hi

theorem ofNat_encode (i : Instr) : BitVec.ofNat 32 ((encode i).toNat % 2 ^ 32) = encode i := by cases i <;> rfl

/-- An accepted word is run from its first step. -/
theorem runTurn_accept (i : Instr) (s : State) : runTurn (accept (encode i) s) = exec i (accept (encode i) s) := by
  rw [runTurn_eq_exec rfl (decodeWord_encode i)]
  rfl

/-- Settles O14: the word placed is accepted, and with any schedule the next turn is a run turn. -/
theorem fetchedWordRuns : Obligations.FetchedWordRuns := by
  intro s i
  refine ⟨?_, ?_⟩
  · rw [State.withFetchWord, ofNat_encode, ← runTurn_accept, step, fetchWord]
    cases hturns : s.turns with
    | nil =>
      simp only [accept_turns, hturns, stepTurn]
      exact if_pos rfl
    | cons u us =>
      simp only [accept_turns, hturns, stepTurn, takeTurn]
      rw [← hturns]
      rfl
  · rw [decodeTableWord, ofNat_encode, ← List.append_nil (bytesOfWord _), decode_bytesOfWord_encode]

/-- Settles O34: the body of NOP does nothing. -/
theorem nopCompletes : Obligations.NopCompletes := fun _ => rfl

/-- Settles O35: the body of CLEAR writes the flags and the result registers. -/
theorem clearCompletes : Obligations.ClearCompletes := by
  intro s
  refine ⟨_, rfl, ⟨around_exec (i := .clear) rfl, rfl, rfl, rfl⟩, rfl, rfl, rfl, rfl, rfl, rfl, rfl, fun m f => ?_⟩
  exact resultRegs_zero_pen_field m f

/-! ### The write to CMD (R111) -/

/-- Settles O15: with BUSY = 0 and FAULT = 0 the write takes effect and is the acceptance, whose flags and first phase are
read off the word. -/
theorem acceptedCommandWrite : Obligations.AcceptedCommandWrite := by
  intro s w hb hf
  have hwrite : hostWrite 0x010 w s = respond 0#32 (accept w s) :=
    busAccess_write_allowed (writeAllowed_iff.2 ⟨rfl, rfl, .inl hb, fun _ => hf⟩)
  have hillegal (h : ∀ i, w ≠ encode i) :
      (accept w s).status.flags = s.status.flags ∧ (accept w s).status.phase.code = 1#3 := by
    obtain ⟨r, hr⟩ := decodeWord_error_of_ne_encode h
    rw [accept_illegal hr]
    exact ⟨rfl, rfl⟩
  exact ⟨hwrite, rfl, rfl, rfl, rfl, rfl, rfl, rfl, rfl, rfl, rfl, hillegal, rfl, rfl, rfl, rfl, rfl, rfl, rfl, rfl, rfl,
    rfl, rfl, rfl⟩

/-- Settles O16: neither with BUSY = 1 nor with FAULT = 1 is a write to CMD among the accesses that take effect. -/
theorem refusedCommandWrite : Obligations.RefusedCommandWrite := by
  intro s w h
  refine busAccess_write_refused fun hw => ?_
  obtain ⟨-, -, hfree, hfault⟩ := writeAllowed_iff.1 hw
  rcases h with hb | hf
  · rcases hfree with hb' | ho | ho
    · simp [hb] at hb'
    · cases ho
    · cases ho
  · simp [hfault rfl] at hf

/-! ### The host's accesses (R66, R69, R71, R285, R286) -/

/-- Settles O18: on an ordered bus the access taken is the head of the list. -/
theorem hostAccessesInProgramOrder : Obligations.HostAccessesInProgramOrder := by
  intro s k a rest hord hhost
  simp [takeTurn, hostTurn, nextAccess, hord, hhost, takeAt]

/-- Settles O20: of the accesses that take effect with BUSY = 1, reads change no register, and a write is of CTRL or of
STATUS. -/
theorem busyHostChangesNoOperand : Obligations.BusyHostChangesNoOperand := by
  intro s a hb
  rcases busAccess_cases a s with ht | ⟨_, -, -, ht⟩ | ⟨off, v, _, -, hw, ht⟩ <;> dsimp only <;> rw [ht]
  · exact ⟨rfl, rfl, rfl, rfl, rfl, rfl, rfl, rfl⟩
  · exact ⟨rfl, rfl, rfl, rfl, rfl, rfl, rfl, rfl⟩
  · obtain ⟨-, -, hfree | ho | ho, -⟩ := writeAllowed_iff.1 hw
    · simp [hb] at hfree
    · rw [ho]
      exact ⟨rfl, rfl, rfl, rfl, rfl, rfl, rfl, rfl⟩
    · rw [ho, show locate s.params 0x00C = .status from rfl, writeLoc, writeStatus_eq]
      exact ⟨rfl, rfl, rfl, rfl, rfl, rfl, rfl, rfl⟩

/-- Settles O21: only a write that reaches CMD accepts a word, and no other location holds a flag. -/
theorem hostAccessKeepsSequenceFlags : Obligations.HostAccessKeepsSequenceFlags := by
  intro s a ha
  rcases busAccess_cases a s with ht | ⟨_, -, -, ht⟩ | ⟨off, v, strobes, heq, hw, ht⟩ <;> rw [ht]
  · rfl
  · rfl
  · have hl : locate s.params off.toNat ≠ .cmd := fun hl => by
      obtain ⟨rfl, -⟩ := writeAllowed_cmd hw hl
      exact ha v strobes heq
    obtain ⟨-, -, hflags, -⟩ := writeLoc_leaves_command hl v s
    exact hflags

/-- Settles O22: a read that takes effect sets the response and uses a draw, and any other is a bus error. -/
theorem readsHaveNoSideEffects : Obligations.ReadsHaveNoSideEffects := by
  intro s off t
  by_cases h : readAllowed s off = true
  · exact .inl (by simp only [t, busAccess_read_allowed h]; rfl)
  · exact .inr (busAccess_read_refused h)

/-! ### Memories (R70) -/

theorem orFree_of_read {w : Nat} {o : Option (BitVec w)} {v : BitVec w} (h : o = some v) (draw off lo : Nat) :
    orFree o draw off lo = v := by rw [h]; rfl

/-- Settles O26: a written entry draws no free value, so its read is its value. -/
theorem operandReadsGiveWrittenValues : Obligations.OperandReadsGiveWrittenValues := by
  intro s draw i x y m
  refine ⟨?_, ?_, ?_, ?_, ?_, ?_, ?_, ?module⟩
  case module =>
    intro p f hp hf
    have hplane : planeAt s draw x y = p := orFree_of_read hp ..
    have hframe : frameAt s draw x y = f := orFree_of_read hf ..
    rw [moduleAt, hplane, hframe]
  case refine_7 => exact fun c j v hv => orFree_of_read hv ..
  all_goals exact fun v hv => orFree_of_read hv ..

section
variable {w : Nat} {m : Mem w}

theorem Mem.mem_of_read {k : Nat} {v : BitVec w} (h : m.read k = some v) : (k, v) ∈ m := by
  induction m with
  | nil => cases h
  | cons c m ih =>
    obtain ⟨a, x⟩ := c
    by_cases hk : k = a
    · simp_all [Mem.read]
    · exact List.mem_cons_of_mem _ (ih (by simpa [Mem.read, hk] using h))

/-- In the canonical form an entry reads as the one value listed for it. -/
theorem Mem.mem_iff_read (hm : m.wf) {c : Nat × BitVec w} : c ∈ m ↔ m.read c.1 = some c.2 := by
  refine ⟨fun h => ?_, Mem.mem_of_read⟩
  induction m with
  | nil => cases h
  | cons d m ih =>
    obtain ⟨a, x⟩ := d
    obtain ⟨hlt, htail⟩ := List.pairwise_cons.1 hm
    rcases List.mem_cons.1 h with rfl | h
    · simp [Mem.read]
    · have hne : c.1 ≠ a := (hlt c h).ne'
      simpa [Mem.read, hne] using ih htail h

theorem Mem.nodup_of_wf (hm : m.wf) : m.Nodup := hm.imp fun h heq => absurd h (by simp [heq])

end

/-- Settles O27: canonical memories that read alike have the same elements, in one strictly rising order. -/
theorem canonicalMemoriesEqual : Obligations.CanonicalMemoriesEqual := by
  intro w a b ha hb hread
  have hperm : a.Perm b := (List.perm_ext_iff_of_nodup (Mem.nodup_of_wf ha) (Mem.nodup_of_wf hb)).2 fun c => by
    rw [Mem.mem_iff_read ha, Mem.mem_iff_read hb, hread]
  exact hperm.eq_of_pairwise (fun c d _ _ hcd hdc => absurd hcd hdc.asymm) ha hb

/-! ### STATUS and CTRL (R25, R26, R245, R250) -/

/-- Settles O28: each bit is read from its place in the concatenation. -/
theorem statusWordBits : Obligations.StatusWordBits := by
  intro s w
  have hbit (k : Nat) : w.getLsbD k = s.statusWord.getLsbD k := rfl
  simp only [State.statusWord, BitVec.getLsbD_append, BitVec.getLsbD_ofBool] at hbit
  refine ⟨?_, ?_, ?_, ?_, ?_, ?_, ?_, ?_, ?_, ?_, ?_, ?_, ?_, ?_⟩
  case refine_7 | refine_12 | refine_13 | refine_14 =>
    ext k hk
    rw [BitVec.getElem_extractLsb', hbit]
    interval_cases k <;> simp [BitVec.getLsbD_eq_getElem]
  all_goals rw [hbit]; rfl

/-- Settles O29: the write takes effect in every state, and each bit acts on its own register. -/
theorem statusWriteAcknowledges : Obligations.StatusWriteAcknowledges := by
  intro s v
  rw [hostWrite_status, writeStatus_eq]
  cases v.getLsbD 1 <;> cases v.getLsbD 2 <;> cases v.getLsbD 3 <;> simp [respond, ErrRegs.zero]

/-- Settles O30: the write takes effect in every state, and the word read is the enables over zeros. -/
theorem ctrlWrite : Obligations.CtrlWrite := by
  intro s v
  have hbit (k : Nat) : (readLoc s s.draws .ctrl).getLsbD k
      = if k = 0 then s.ctrl.ieDone else if k = 1 then s.ctrl.ieFault else k = 2 && s.ctrl.ieBuserr := by
    simp only [readLoc, BitVec.getLsbD_append, BitVec.getLsbD_ofBool]
    match k with
    | 0 | 1 | 2 => simp
    | k + 3 => simp
  refine ⟨hostWrite_ctrl s v, hbit 0, hbit 1, by rw [hbit]; rfl, ?_⟩
  ext k hk
  rw [BitVec.getElem_extractLsb', hbit, if_neg (by omega), if_neg (by omega), decide_eq_false (by omega)]
  simp

end Sys2Proof.Machine

namespace Sys2Proof.Machine

open Sys2Proof.Claims

/-! ### The abort (R118, R244) -/

theorem flagsAtStart_eq_startFlags (p : Phase) (f : SeqFlags) : flagsAtStart p f = startFlags p f := by
  cases p <;> simp [flagsAtStart, startFlags]

/-- Where the SEQUENCE check passed, no check at acceptance is left to fail (R243; log 10). -/
theorem acceptanceFault_eq_none {s : State} {w : Word} {i : Instr} (hi : decodeWord w = .ok i)
    (hp : SequencePasses i s) : acceptanceFault w s = none := by
  rcases hp with hd | ⟨hscore, hfinal⟩
  · rw [acceptanceFault, if_pos hd]
  · cases i <;> simp_all [acceptanceFault]

section
variable {s : State} {w : Word} {i : Instr} (hw : s.seq.inflight = some w) (hi : decodeWord w = .ok i)
  (hp : SequencePasses i s)
include hw hi hp

/-- Where no check at acceptance fails, an abort turn sees the request alone. -/
theorem abortTurn_eq_ite : abortTurn s = if s.seq.abortReq then .next (takeAbort w s) else .next s := by
  rw [abortTurn, hw]
  dsimp only
  rw [acceptanceFault_eq_none hi hp]

theorem abortTurn_requested (hr : s.seq.abortReq = true) : abortTurn s = .next (takeAbort w s) := by
  rw [abortTurn_eq_ite hw hi hp, if_pos hr]

end

theorem bodyKept_iff {s : State} {w : Word} {i : Instr} (hi : decodeWord w = .ok i) :
    bodyKept w s = true ↔ s.seq.ended = true ∧ i = .encodeAll := by
  simp [bodyKept, hi]

/-- Settles O31: the request ends the command by `takeAbort`, whose flags are those of the step's start, or those of the
body of ENCODE_ALL that has succeeded. -/
theorem abortEndsCommand : Obligations.AbortEndsCommand := by
  intro s w i hw hi hp
  refine ⟨fun hr => ⟨_, abortTurn_requested hw hi hp hr, around_takeAbort w s, rfl, ?status, ?err⟩, fun hr => ?none⟩
  case status => simp [takeAbort, bodyKept_iff hi, flagsAtStart_eq_startFlags]
  case err =>
    obtain ⟨-, -, -, -, -, -, -, herr⟩ := takeAbort_completes w s
    exact herr
  case none => rw [takeTurn, abortTurn_eq_ite hw hi hp, hr]; rfl

theorem takeAbort_mem (w : Word) (s : State) : (takeAbort w s).mem = (dropStep w s).mem := rfl

theorem takeAbort_res (w : Word) (s : State) : (takeAbort w s).res = (dropStep w s).res := rfl

theorem dropStep_kept {w : Word} {s : State} (h : bodyKept w s = true) : dropStep w s = s := if_pos h

theorem dropStep_dropped {w : Word} {s : State} (h : ¬bodyKept w s = true) :
    dropStep w s = advanceDraws 2 (abortEffects w (dropStepFlags s)) := if_neg h

/-! ### The abort, phase by phase (R120, R244) -/

section
variable {s : State} (w : Word)

theorem abortEffects_clear (h : s.status.phase = .ctrl) : abortEffects (encode .clear) s = abortedClear s := by
  rw [abortEffects, h]; rfl

theorem abortEffects_nop (h : s.status.phase = .ctrl) : abortEffects (encode .nop) s = s := by
  rw [abortEffects, h]; rfl

theorem abortEffects_rs (h : s.status.phase = .rs) : abortEffects w s = forgetCounts (forgetEcc s) := by
  rw [abortEffects, h]

theorem abortEffects_place (h : s.status.phase = .place) : abortEffects w s = forgetCounts (forgetPlanes s) := by
  rw [abortEffects, h]

theorem abortEffects_score (h : s.status.phase = .score) : abortEffects w s = forgetScores s := by
  rw [abortEffects, h]

theorem abortEffects_final (h : s.status.phase = .final) : abortEffects w s = forgetFormat s := by
  rw [abortEffects, h]

/-- An abort in CTRL forgets no memory entry (R120). -/
theorem abortEffects_ctrl_mem (h : s.status.phase = .ctrl) : (abortEffects w s).mem = s.mem := by
  rw [abortEffects, h]
  dsimp only
  split <;> rfl

end

theorem clearedOrKept_cases {w : Nat} (draw off : Nat) (r : RegVal w) :
    clearedOrKept draw off r = .known 0#w ∨ clearedOrKept draw off r = r := by
  unfold clearedOrKept
  split
  · exact .inl rfl
  · exact .inr rfl

/-- Settles O33: an abort in CTRL of CLEAR is `abortedClear`, which clears or keeps each register. -/
theorem abortedClearPerRegister : Obligations.AbortedClearPerRegister := by
  intro s t hw hphase hr ht
  have hi := decodeWord_encode .clear
  have hkept : ¬bodyKept (encode .clear) s = true := fun h => by simpa using (bodyKept_iff hi).1 h
  have hres : t.res = (abortedClear (dropStepFlags s)).res := by
    rw [takeTurn, abortTurn_requested hw hi (.inr ⟨nofun, nofun⟩) hr] at ht
    cases ht
    rw [takeAbort_res, dropStep_dropped hkept, abortEffects_clear (s := dropStepFlags s) hphase]
    rfl
  rw [hres]
  refine ⟨clearedOrKept_cases .., clearedOrKept_cases .., clearedOrKept_cases .., clearedOrKept_cases ..,
    clearedOrKept_cases .., fun m f => ?_⟩
  have hpen : (abortedClear (dropStepFlags s)).res.pen[m] = clearedOrKeptPen s.draws m.val s.res.pen[m] :=
    Vector.getElem_ofFn m.isLt
  rw [hpen]
  cases f <;> exact clearedOrKept_cases ..

/-! ### What an abort leaves unspecified (R244) -/

theorem forgetCounts_res_eq (s : State) :
    (forgetCounts s).res = if s.seq.loops = 0 ∧ s.seq.ended = false then s.res
      else { s.res with ndata := .unspecified, ntotal := .unspecified } := by
  unfold forgetCounts
  split <;> rfl

/-- The checks of the statements are those of the validation (R131). -/
theorem blocksValid_iff {s : State} {n : Nat} : BlocksValid s s.draws n ↔ BlocksPass s ∧ n = total s := by
  constructor
  · rintro ⟨h1, h2, h3, h4, hmin, htotal, hmax⟩
    exact ⟨⟨⟨h1, h2, h3, h4⟩, hmin, by rwa [htotal] at hmax⟩, htotal⟩
  · rintro ⟨⟨⟨h1, h2, h3, h4⟩, hmin, hmax⟩, rfl⟩
    exact ⟨h1, h2, h3, h4, hmin, rfl, hmax⟩

theorem validateBlocks_of_blocksPass {s : State} (h : BlocksPass s) : validateBlocks s s.draws = .ok (total s) :=
  validateBlocks_eq_ok.2 (blocksValid_iff.2 ⟨h, rfl⟩)

theorem validateBlocks_of_not_blocksPass {s : State} (h : ¬BlocksPass s) :
    ∃ code info, validateBlocks s s.draws = .bad code info := by
  cases hv : validateBlocks s s.draws with
  | ok n => exact absurd (blocksValid_iff.1 (validateBlocks_eq_ok.1 hv)).1 h
  | bad code info => exact ⟨code, info, rfl⟩

theorem forgetEcc_cw_of_none {s : State} (h : abortedTotal s = none) : (forgetEcc s).mem.cw = s.mem.cw := by
  rw [forgetEcc, h]

theorem forgetEcc_cw_of_some {s : State} {n : Nat} (h : abortedTotal s = some n) :
    (forgetEcc s).mem.cw = forgetEccEntries n s := by
  rw [forgetEcc, h]

/-- CW[NDATA..NTOTAL−1] is forgotten, every other entry stays. -/
theorem read_forgetEccEntries (s : State) (n k : Nat) :
    (forgetEccEntries n s).read k = if n - eccTotal s ≤ k ∧ k < n then none else s.mem.cw.read k := by
  rw [forgetEccEntries, Mem.read_forget, Nat.add_sub_cancel' (dataCount_le s n)]
  rfl

theorem abortedTotal_of_ended {s : State} {n : BitVec 16} (he : s.seq.ended = true) (hn : s.res.ntotal = .known n) :
    abortedTotal s = some n.toNat := by
  rw [abortedTotal, if_pos he, hn]

theorem abortedTotal_of_blocksPass {s : State} (he : s.seq.ended = false) (hp : BlocksPass s) :
    abortedTotal s = some (total s) := by
  rw [abortedTotal, he, validateBlocks_of_blocksPass hp]; rfl

theorem abortedTotal_of_not_blocksPass {s : State} (he : s.seq.ended = false) (hp : ¬BlocksPass s) :
    abortedTotal s = none := by
  obtain ⟨code, info, hv⟩ := validateBlocks_of_not_blocksPass hp
  rw [abortedTotal, he, hv]; rfl

/-- CW after an abort in RS, entry by entry (R244). -/
theorem read_forgetEcc_cw {s : State} {n : Nat} (h : abortedTotal s = some n) (k : Nat) :
    (forgetEcc s).mem.cw.read k = if n - eccTotal s ≤ k ∧ k < n then none else s.mem.cw.read k := by
  rw [forgetEcc_cw_of_some h]
  exact read_forgetEccEntries s n k

theorem forgetEcc_mem_eq (s : State) : (forgetEcc s).mem = { s.mem with cw := (forgetEcc s).mem.cw } := by
  obtain ⟨cw, h⟩ := forgetEcc_mem s
  rw [h]

/-- Settles O32: the memories and results of `takeAbort` are those of the step kept or dropped, and each phase forgets its
own. -/
theorem abortLeavesUnspecified : Obligations.AbortLeavesUnspecified := by
  intro s t w i hw hi hp hr ht results kept
  rw [takeTurn, abortTurn_requested hw hi hp hr] at ht
  cases ht
  rw [takeAbort_mem, takeAbort_res]
  have dropped (hk : ¬kept) : dropStep w s = advanceDraws 2 (abortEffects w (dropStepFlags s)) :=
    dropStep_dropped fun h => hk ((bodyKept_iff hi).1 h)
  refine ⟨?kept, ?rs, ?place, ?score, ?final, ?ctrl⟩
  case kept =>
    intro hk
    rw [dropStep_kept ((bodyKept_iff hi).2 hk)]
    exact ⟨rfl, rfl⟩
  case rs =>
    intro hk hphase
    rw [dropped hk, abortEffects_rs w (s := dropStepFlags s) hphase, advanceDraws_mem, advanceDraws_res,
      forgetCounts_mem, forgetCounts_res_eq, forgetEcc_res, forgetEcc_seq]
    refine ⟨rfl, forgetEcc_mem_eq _, fun he n hn => ?_, fun he hb => ?_, fun he hb => ?_⟩
    · exact read_forgetEcc_cw (s := dropStepFlags s) (abortedTotal_of_ended (s := dropStepFlags s) he hn)
    · exact read_forgetEcc_cw (s := dropStepFlags s) (abortedTotal_of_blocksPass (s := dropStepFlags s) he hb)
    · exact forgetEcc_cw_of_none (abortedTotal_of_not_blocksPass (s := dropStepFlags s) he hb)
  case place =>
    intro hk hphase
    rw [dropped hk, abortEffects_place w (s := dropStepFlags s) hphase, advanceDraws_mem, advanceDraws_res,
      forgetCounts_mem, forgetCounts_res_eq]
    exact ⟨rfl, rfl, fun k => ⟨rfl, rfl⟩⟩
  case score =>
    intro hk hphase
    rw [dropped hk, abortEffects_score w (s := dropStepFlags s) hphase]
    refine ⟨rfl, rfl, fun m f => ?_⟩
    have hpen : (forgetScores (dropStepFlags s)).res.pen[m] = Pen.unspecified := Vector.getElem_replicate m.isLt
    rw [advanceDraws_res, hpen]
    cases f <;> rfl
  case final =>
    intro hk hphase
    rw [dropped hk, abortEffects_final w (s := dropStepFlags s) hphase]
    exact ⟨rfl, rfl, fun k => rfl⟩
  case ctrl =>
    intro hphase
    by_cases hk : kept
    · rw [dropStep_kept ((bodyKept_iff hi).2 hk)]
      exact ⟨rfl, fun _ => rfl⟩
    · rw [dropped hk, advanceDraws_mem, advanceDraws_res, abortEffects_ctrl_mem w (s := dropStepFlags s) hphase]
      refine ⟨rfl, fun hnop => ?_⟩
      rw [eq_encode_of_decodeWord hi, hnop, abortEffects_nop (s := dropStepFlags s) hphase]
      rfl

end Sys2Proof.Machine

namespace Sys2Proof.Machine

open Sys2Proof.Claims

/-! ### The four faults of the block-list validation (R131) -/

section
variable {s : State}

theorem validateBlocks_badEcclen (draw : Nat) (h : eccLen s = 0 ∨ eccLen s > s.params.eccMax) :
    validateBlocks s draw = .bad .badEcclen (eccLen s) := if_pos h

theorem validateBlocks_badNblocks (draw : Nat) (h1 : 1 ≤ eccLen s) (h2 : eccLen s ≤ s.params.eccMax)
    (h : s.cfg.nblocks.toNat = 0 ∨ s.cfg.nblocks.toNat > s.params.blkDepth) :
    validateBlocks s draw = .bad .badNblocks s.cfg.nblocks.toNat := by
  unfold eccLen at h1 h2
  exact (if_neg (by omega)).trans (if_pos h)

/-- With legal lengths the validation is the search for a bad block, then the sum. -/
theorem validateBlocks_of_lengthsLegal (h : LengthsLegal s) :
    validateBlocks s s.draws =
      match firstIndex (fun k => decide (k < eccLen s)) 0 (sizes s) with
      | some b => .bad .badBlock b
      | none => if total s > s.params.cwDepth then .bad .cwOverflow (total s) else .ok (total s) := by
  obtain ⟨h1, h2, h3, h4⟩ := h
  unfold eccLen at h1 h2
  exact (if_neg (by omega)).trans (if_neg (by omega))

theorem validateBlocks_badBlock {b : Nat} (h : LengthsLegal s) (hb : b < s.cfg.nblocks.toNat)
    (hbad : (blkAt s s.draws b).toNat < eccLen s) (hfirst : ∀ b' < b, eccLen s ≤ (blkAt s s.draws b').toNat) :
    validateBlocks s s.draws = .bad .badBlock b := by
  have hfind : firstIndex (fun k => decide (k < eccLen s)) 0 (sizes s) = some (0 + b) :=
    firstIndex_map_range hb (decide_eq_true hbad) fun b' hb' => decide_eq_false (Nat.not_lt.2 (hfirst b' hb'))
  rw [validateBlocks_of_lengthsLegal h, hfind, Nat.zero_add]

theorem validateBlocks_cwOverflow (h : LengthsLegal s) (hmin : ∀ k ∈ sizes s, eccLen s ≤ k)
    (hmax : total s > s.params.cwDepth) : validateBlocks s s.draws = .bad .cwOverflow (total s) := by
  have hfind : firstIndex (fun k => decide (k < eccLen s)) 0 (sizes s) = none :=
    firstIndex_eq_none.2 fun k hk => decide_eq_false (Nat.not_lt.2 (hmin k hk))
  rw [validateBlocks_of_lengthsLegal h, hfind]
  exact if_pos hmax

end

/-! ### How RS_ENCODE ends (R130, R131) -/

theorem rsBody_of_bad {s : State} {code : FaultCode} {info : Nat} (h : validateBlocks s s.draws = .bad code info) :
    rsBody s = .raise code (BitVec.ofNat 32 info) (advanceDraws 2 (startStep .rs s)) := by
  simpa [h] using rsBody_cases s

theorem rsBody_of_blocksPass {s : State} (h : BlocksPass s) :
    rsBody s = .done (succeedStep .rs (advanceDraws (dataCount s (total s) + 3)
      (writeCounts (total s) (writeEcc (total s) (startStep .rs s))))) := by
  simpa [validateBlocks_of_blocksPass h] using rsBody_cases s

theorem exec_rsEncode_of_body {s : State} {b : Body} (h : rsBody s = b) :
    exec .rsEncode s = .next (b.finish (encode .rsEncode)) := by
  rw [exec, execRsEncode, h]

/-- A failed validation ends RS_ENCODE with memories and results as they were. -/
theorem exec_rsEncode_of_bad {s : State} {code : FaultCode} {info : Nat}
    (h : validateBlocks s s.draws = .bad code info) :
    ∃ t, exec .rsEncode s = .next t
      ∧ Faulted s t code.value 0x10#8 2#3 (BitVec.ofNat 32 info) ⟨false, false, false, false⟩
      ∧ t.mem = s.mem ∧ t.res = s.res := by
  have hexec := exec_rsEncode_of_body (rsBody_of_bad h)
  exact ⟨_, hexec, ⟨around_exec hexec, rfl, rfl, rfl⟩, rfl, rfl⟩

/-- Settles O37: each clause names the one fault of the validation whose earlier checks pass. -/
theorem rsEncodeFaultsInOrder : Obligations.RsEncodeFaultsInOrder := by
  intro s left
  refine ⟨?ecclen, ?nblocks, ?block, ?overflow⟩
  case ecclen => exact fun h => exec_rsEncode_of_bad (validateBlocks_badEcclen _ h)
  case nblocks => exact fun h1 h2 h => exec_rsEncode_of_bad (validateBlocks_badNblocks _ h1 h2 h)
  case block => exact fun h b hb hbad hfirst => exec_rsEncode_of_bad (validateBlocks_badBlock h hb hbad hfirst)
  case overflow => exact fun h hmin hmax => exec_rsEncode_of_bad (validateBlocks_cwOverflow h hmin hmax)

/-! ### How PLACE ends (R150, R151) -/

section
variable {s : State}

theorem placeBody_of_not_versionLegal (hv : ¬VersionLegal s) :
    placeBody s = .raise .badVersion (s.cfg.version.setWidth 32) (startStep .place s) := by
  rw [← versionOk_iff, Bool.not_eq_true] at hv
  simpa [hv] using placeBody_cases s

theorem placeBody_of_bad {code : FaultCode} {info : Nat} (hv : VersionLegal s)
    (h : validateBlocks s s.draws = .bad code info) :
    placeBody s = .raise code (BitVec.ofNat 32 info) (advanceDraws 8 (startStep .place s)) := by
  simpa [versionOk_iff.2 hv, h] using placeBody_cases s

theorem placeBody_of_overflow (hv : VersionLegal s) (hb : BlocksPass s) (h : bitTotal s > s.params.plDepth) :
    placeBody s = .raise .plOverflow (BitVec.ofNat 32 (bitTotal s))
      (advanceDraws 8 (writeCounts (total s) (startStep .place s))) := by
  have hcount : bitCount s (total s) = bitTotal s := rfl
  simpa [versionOk_iff.2 hv, validateBlocks_of_blocksPass hb, hcount, h, h.not_ge] using placeBody_cases s

theorem placeBody_of_badCoord {i : Nat} (hv : VersionLegal s) (hb : BlocksPass s) (hd : bitTotal s ≤ s.params.plDepth)
    (h : firstIndex (fun e => !coordOk (side s) e) 0 (plEntries s s.draws (bitTotal s)) = some i) :
    placeBody s = .raise .badCoord (BitVec.ofNat 32 i)
      (advanceDraws 8 (writeCounts (total s) (forgetPlanes (startStep .place s)))) := by
  have hcount : bitCount s (total s) = bitTotal s := rfl
  simpa [versionOk_iff.2 hv, validateBlocks_of_blocksPass hb, hcount, sideOf_eq_side hv, h, hd, hd.not_gt]
    using placeBody_cases s

theorem placeBody_of_legal (hv : VersionLegal s) (hb : BlocksPass s) (hd : bitTotal s ≤ s.params.plDepth)
    (hl : PlacementLegal s) :
    placeBody s = .done (succeedStep .place (advanceDraws 8 (writeCounts (total s)
      (writePlanes (total s) (startStep .place s))))) := by
  have hcount : bitCount s (total s) = bitTotal s := rfl
  have hnone : firstIndex (fun e => !coordOk (side s) e) 0 (plEntries s s.draws (bitTotal s)) = none := by
    rw [firstIndex_eq_none]
    intro e he
    obtain ⟨k, hk, rfl⟩ := List.mem_map.1 he
    rw [coordOk_iff_inside.2 (hl k (List.mem_range.1 hk))]
    rfl
  simpa [versionOk_iff.2 hv, validateBlocks_of_blocksPass hb, hcount, sideOf_eq_side hv, hnone, hd, hd.not_gt]
    using placeBody_cases s

/-- The search for a bad coordinate finds the lowest one (R151). -/
theorem firstIndex_plEntries {i : Nat} (hi : i < bitTotal s) (hbad : ¬Inside s (plAt s s.draws i))
    (hfirst : ∀ i' < i, Inside s (plAt s s.draws i')) :
    firstIndex (fun e => !coordOk (side s) e) 0 (plEntries s s.draws (bitTotal s)) = some i := by
  rw [plEntries, firstIndex_map_range hi, Nat.zero_add]
  · rw [coordOk_eq_false_iff.2 hbad]; rfl
  · exact fun j hj => by rw [coordOk_iff_inside.2 (hfirst j hj)]; rfl

end

/-- The two writes of R131, in whatever state of the step they are made. -/
theorem countsWritten_writeCounts {s u t : State} (hcfg : u.cfg = s.cfg) (hres : u.res = s.res)
    (ht : t.res = (writeCounts (total s) u).res) : CountsWritten s t := by
  rw [writeCounts_res, hres] at ht
  have hecc : eccCount u = eccTotal s := by rw [eccCount, hcfg]; rfl
  refine ⟨by rw [ht], fun hle => ?_, ⟨_, by rw [ht]⟩⟩
  rw [ht, ndataValue, hecc, if_pos hle, dataCount, hecc]
  rfl

theorem exec_place_of_body {s : State} {b : Body} (h : placeBody s = b) :
    exec .place s = .next (b.finish (encode .place)) := by
  rw [exec, execPlace, h]

/-- A fault of PLACE before its writes, after `n` draws, leaves memories and results as they were (R151). -/
theorem exec_place_of_raise {s : State} {code : FaultCode} {info : Word} {n : Nat}
    (h : placeBody s = .raise code info (advanceDraws n (startStep .place s))) :
    ∃ t, exec .place s = .next t
      ∧ Faulted s t code.value 0x20#8 3#3 info ⟨s.status.flags.eccValid, false, false, false⟩
      ∧ t.mem = s.mem ∧ t.res = s.res := by
  have hexec := exec_place_of_body h
  exact ⟨_, hexec, ⟨around_exec hexec, rfl, rfl, rfl⟩, rfl, rfl⟩

/-- VERSION as an info value (R241). -/
theorem setWidth_version (s : State) : s.cfg.version.setWidth 32 = BitVec.ofNat 32 s.cfg.version.toNat :=
  (BitVec.ofNat_toNat 32 _).symm

/-- Settles O41: each clause names the one case of the body whose earlier checks pass. -/
theorem placeFaultsInOrder : Obligations.PlaceFaultsInOrder := by
  intro s flags early
  refine ⟨?version, ?ecclen, ?nblocks, ?block, ?cwOverflow, ?plOverflow, ?coord⟩
  case version =>
    exact fun hv => exec_place_of_raise (n := 0) (setWidth_version s ▸ placeBody_of_not_versionLegal hv)
  case ecclen => exact fun hv h => exec_place_of_raise (placeBody_of_bad hv (validateBlocks_badEcclen _ h))
  case nblocks =>
    exact fun hv h1 h2 h => exec_place_of_raise (placeBody_of_bad hv (validateBlocks_badNblocks _ h1 h2 h))
  case block =>
    exact fun hv h b hb hbad hfirst =>
      exec_place_of_raise (placeBody_of_bad hv (validateBlocks_badBlock h hb hbad hfirst))
  case cwOverflow =>
    exact fun hv h hmin hmax => exec_place_of_raise (placeBody_of_bad hv (validateBlocks_cwOverflow h hmin hmax))
  case plOverflow =>
    intro hv hb hd
    have hexec := exec_place_of_body (placeBody_of_overflow hv hb hd)
    exact ⟨_, hexec, ⟨around_exec hexec, rfl, rfl, rfl⟩, rfl,
      countsWritten_writeCounts (u := startStep .place s) rfl rfl rfl⟩
  case coord =>
    intro hv hb hd i hi hbad hfirst
    have hexec := exec_place_of_body (placeBody_of_badCoord hv hb hd (firstIndex_plEntries hi hbad hfirst))
    exact ⟨_, hexec, ⟨around_exec hexec, rfl, rfl, rfl⟩,
      countsWritten_writeCounts (u := forgetPlanes (startStep .place s)) rfl rfl rfl, rfl, fun k => ⟨rfl, rfl⟩⟩

/-! ### SCORE (R115, R170 to R180) -/

theorem scoreBody_of_not_placed {s : State} (hp : s.status.flags.placed = false) :
    scoreBody s = .raise .sequence (encode .score) (startStep .score s) := by
  simpa [hp] using scoreBody_cases s

theorem scoreBody_of_not_versionLegal {s : State} (hp : s.status.flags.placed = true) (hv : ¬VersionLegal s) :
    scoreBody s = .raise .badVersion (s.cfg.version.setWidth 32) (startStep .score s) := by
  rw [← versionOk_iff, Bool.not_eq_true] at hv
  simpa [hp, hv] using scoreBody_cases s

theorem scoreBody_of_legal {s : State} (hp : s.status.flags.placed = true) (hv : VersionLegal s) :
    scoreBody s = .done (succeedStep .score (advanceDraws 8 (writeScores (candidateScores s) (startStep .score s)))) := by
  simpa [hp, versionOk_iff.2 hv] using scoreBody_cases s

theorem exec_score_of_body {s : State} {b : Body} (h : scoreBody s = b) :
    exec .score s = .next (b.finish (encode .score)) := by
  rw [exec, execScore, h]

/-- A fault of SCORE leaves memories and results as they were (R244). -/
theorem exec_score_of_raise {s : State} {code : FaultCode} {info : Word}
    (h : scoreBody s = .raise code info (startStep .score s)) :
    ∃ t, exec .score s = .next t
      ∧ Faulted s t code.value 0x30#8 4#3 info ⟨s.status.flags.eccValid, s.status.flags.placed, false, false⟩
      ∧ t.mem = s.mem ∧ t.res = s.res := by
  have hexec := exec_score_of_body h
  exact ⟨_, hexec, ⟨around_exec hexec, rfl, rfl, rfl⟩, rfl, rfl⟩

/-- Settles O43: the SEQUENCE check comes before the check of VERSION. -/
theorem scoreFaultsInOrder : Obligations.ScoreFaultsInOrder := by
  intro s
  refine ⟨fun hp => ?_, fun hp hv => ?_⟩
  · have h := exec_score_of_raise (scoreBody_of_not_placed hp)
    rwa [hp] at h
  · have h := exec_score_of_raise (scoreBody_of_not_versionLegal hp hv)
    rwa [hp, setWidth_version] at h

/-- The selection loop over the first `n` further candidates keeps the first index that reaches the least value. -/
theorem foldl_select_spec (f : Nat → Word) (n : Nat) :
    let best := (List.range' 1 n).foldl (fun best m => if f m < f best then m else best) 0
    best ≤ n ∧ (∀ m ≤ n, f best ≤ f m) ∧ ∀ m < best, f best < f m := by
  induction n with
  | zero => simp
  | succ n ih =>
    simp only [List.range'_1_concat, List.foldl_append, List.foldl_cons, List.foldl_nil] at ih ⊢
    generalize (List.range' 1 n).foldl (fun best m => if f m < f best then m else best) 0 = best at ih ⊢
    obtain ⟨hle, hmin, hfirst⟩ := ih
    rw [Nat.add_comm 1 n]
    by_cases h : f (n + 1) < f best
    · rw [if_pos h]
      refine ⟨Nat.le_refl _, fun m hm => ?_, fun m hm => Std.lt_of_lt_of_le h (hmin m (Nat.le_of_lt_succ hm))⟩
      rcases Nat.le_succ_iff.1 hm with hm | rfl
      · exact BitVec.le_trans (BitVec.le_of_lt h) (hmin m hm)
      · exact BitVec.le_refl _
    · rw [if_neg h]
      refine ⟨by omega, fun m hm => ?_, hfirst⟩
      rcases Nat.le_succ_iff.1 hm with hm | rfl
      · exact hmin m hm
      · exact BitVec.not_lt.1 h

/-- SEL_MASK is the first index that reaches the least total (R179). -/
theorem selectMask_spec {totals : List Word} {f : Nat → Word} (h : ∀ m < 8, totals.getD m 0#32 = f m) :
    selectMask totals < 8 ∧ (∀ m < 8, f (selectMask totals) ≤ f m)
      ∧ ∀ m < selectMask totals, f (selectMask totals) < f m := by
  obtain ⟨hle, hmin, hfirst⟩ := foldl_select_spec (fun m => totals.getD m 0#32) 7
  change selectMask totals ≤ 7 at hle
  change ∀ m ≤ 7, totals.getD (selectMask totals) 0#32 ≤ totals.getD m 0#32 at hmin
  change ∀ m < selectMask totals, totals.getD (selectMask totals) 0#32 < totals.getD m 0#32 at hfirst
  have hbest : selectMask totals < 8 := by omega
  rw [← h _ hbest]
  exact ⟨hbest, fun m hm => h m hm ▸ hmin m (by omega), fun m hm => h m (hm.trans hbest) ▸ hfirst m hm⟩

/-- The registers that SCORE writes for eight candidates (R172, R178, R179). -/
theorem scored_writeScores {p : Params} {S : Nat} {grid : Nat → Grid} {z : Vector PenScore 8} {u : State}
    (hz : ∀ m : Fin 8, z[m] = scoreGrid p S (grid m)) : Scored p S grid (writeScores z u).res := by
  have htotal (m : Nat) (hm : m < 8) : (z.toList.map PenScore.total).getD m 0#32 = totalWord p S (grid m) := by
    have := hz ⟨m, hm⟩
    simp only [Fin.getElem_fin] at this
    simp [hm, this]
    rfl
  refine ⟨fun m => ?_, selectMask _, (selectMask_spec htotal).1, rfl, (selectMask_spec htotal).2⟩
  have hpen : (writeScores z u).res.pen[m] = (scoreGrid p S (grid m)).regs := by
    rw [← hz m]
    exact Vector.getElem_map PenScore.regs m.isLt
  rw [hpen]
  exact ⟨rfl, rfl, rfl, rfl, rfl, rfl⟩

/-- The candidates that SCORE reads (R171). -/
theorem candidateScores_getElem {s : State} (hv : VersionLegal s) (m : Fin 8) :
    (candidateScores s)[m] = scoreGrid s.params (side s) (candidateAt s m) := by
  rw [← sideOf_eq_side hv, candidateAt, ← sideOf_eq_side hv]
  exact Vector.getElem_ofFn m.isLt

/-- Settles O42: the body writes the scores of the eight candidates it reads, and nothing else. -/
theorem scoreCompletes : Obligations.ScoreCompletes := by
  intro s hp hv
  have hexec := exec_score_of_body (scoreBody_of_legal hp hv)
  refine ⟨_, hexec, ⟨around_exec hexec, rfl, ?status, rfl⟩, rfl, rfl, rfl, ?scored⟩
  case status => simp [startFlags, successFlags, hp]
  case scored => exact scored_writeScores (u := startStep .score s) (candidateScores_getElem hv)

end Sys2Proof.Machine

namespace Sys2Proof.Machine

open Sys2Proof.Claims

/-! ### Run lists and the exchange of coordinates (R173, R181) -/

/-- A module put in front of a run list is a module put in front of the line. -/
theorem flatMap_replicate_consRun (c : Bool) (rs : List (Bool × Nat)) :
    (consRun c rs).flatMap (fun r => List.replicate r.2 r.1) = c :: rs.flatMap (fun r => List.replicate r.2 r.1) := by
  cases rs with
  | nil => rfl
  | cons r rs =>
    rw [consRun_cons]
    split
    · next h => simp [h, List.replicate_succ]
    · simp

theorem flatMap_replicate_runs (line : List Bool) :
    (runs line).flatMap (fun r => List.replicate r.2 r.1) = line := by
  induction line with
  | nil => rfl
  | cons c cs ih => rw [runs, flatMap_replicate_consRun, ih]

/-- Settles O44: a module put in front of a decomposed line leaves it decomposed. -/
theorem runListDecomposesLine : Obligations.RunListDecomposesLine :=
  fun line => ⟨flatMap_replicate_runs line, pos_of_mem_runs line, isChain_runs line⟩

/-- Exchanging the coordinates exchanges the rows and the columns, so a sum over the lines is the same. -/
theorem sum_gridLines_flipped (f : List Bool → Nat) (S : Nat) (c : Nat → Nat → Bool) :
    ((gridLines S (gridOf S (flipped c))).map f).sum = ((gridLines S (gridOf S c)).map f).sum := by
  rw [sum_gridLines, sum_gridLines, Nat.add_comm]
  rfl

/-- Exchanging the coordinates exchanges the sides of every window. -/
theorem n2Score_flipped (S : Nat) (c : Nat → Nat → Bool) :
    n2Score (gridOf S (flipped c)) = n2Score (gridOf S c) := by
  rw [n2CountsWindows, n2CountsWindows]
  congr 1
  refine Finset.card_equiv (Equiv.prodComm Nat Nat) fun p => ?_
  rw [Finset.mem_filter, Finset.mem_filter, Finset.mem_product, Finset.mem_product]
  simp only [flipped, Equiv.prodComm_apply, Prod.fst_swap, Prod.snd_swap]
  tauto

theorem count_true_map_range (f : Nat → Bool) (n : Nat) :
    ((List.range n).map f).count true = ∑ x ∈ Finset.range n, (f x).toNat := by
  induction n with
  | zero => rfl
  | succ n ih => cases h : f n <;> simp [List.range_succ, Finset.sum_range_succ, ih, h]

theorem darkCount_gridOf (S : Nat) (c : Nat → Nat → Bool) :
    darkCount (gridOf S c) = ∑ y ∈ Finset.range S, ∑ x ∈ Finset.range S, (c x y).toNat := by
  rw [darkCount, gridOf, List.map_map]
  exact congrArg List.sum (List.map_congr_left fun y _ => count_true_map_range _ S)

theorem darkCount_flipped (S : Nat) (c : Nat → Nat → Bool) :
    darkCount (gridOf S (flipped c)) = darkCount (gridOf S c) := by
  rw [darkCount_gridOf, darkCount_gridOf, Finset.sum_comm]
  rfl

/-- Settles O49: N1 and N3 are sums over the lines, N2 counts windows, and N4 depends on the dark count. -/
theorem scoresTransposeInvariant : Obligations.ScoresTransposeInvariant := by
  intro p S c
  have h1 : n1Score S (gridOf S (flipped c)) = n1Score S (gridOf S c) := sum_gridLines_flipped n1Line S c
  have h3 : n3Score p.n3Rule S (gridOf S (flipped c)) = n3Score p.n3Rule S (gridOf S c) :=
    congrArg (40 * ·) (sum_gridLines_flipped (n3Line p.n3Rule) S c)
  rw [scoreGrid, scoreGrid, h1, n2Score_flipped, h3, darkCount_flipped]

/-! ### Version selection (R222, R231) -/

theorem versionFits_iff {tp : TableProvider} {hp : HostParams} {code : BitVec 2} {len v : Nat} :
    versionFits tp hp code len v = true ↔ 12 + 8 * len + hp.countExt v ≤ tp.capacity v code := by
  rw [versionFits, decide_eq_true_iff, requiredBits]

theorem versionFits_eq_false_iff {tp : TableProvider} {hp : HostParams} {code : BitVec 2} {len v : Nat} :
    versionFits tp hp code len v = false ↔ tp.capacity v code < 12 + 8 * len + hp.countExt v := by
  rw [← Bool.not_eq_true, versionFits_iff, Nat.not_le]

/-- A search over the versions is a search over their numbers less 1. -/
theorem selectVersion_eq_map (tp : TableProvider) (hp : HostParams) (code : BitVec 2) (len : Nat) :
    selectVersion tp hp code len
      = ((List.range 40).find? fun i => versionFits tp hp code len (i + 1)).map (· + 1) :=
  List.find?_map ..

/-- Settles O58: the search finds the first version that fits, and none only where none does. -/
theorem selectedVersionIsMinimal : Obligations.SelectedVersionIsMinimal := by
  intro tp hp code len
  refine ⟨fun v => ?_, ?_⟩
  · rw [selectVersion_eq_map, Option.map_eq_some_iff]
    constructor
    · rintro ⟨i, hi, rfl⟩
      obtain ⟨hfit, hmem, hlow⟩ := List.find?_range_eq_some.1 hi
      refine ⟨by omega, by simpa using hmem, versionFits_iff.1 hfit, fun u hu huv => ?_⟩
      obtain ⟨j, rfl⟩ := Nat.exists_eq_add_of_le' hu
      exact versionFits_eq_false_iff.1 (by simpa using hlow j (by omega))
    · rintro ⟨h1, h40, hfit, hlow⟩
      obtain ⟨i, rfl⟩ := Nat.exists_eq_add_of_le' h1
      refine ⟨i, List.find?_range_eq_some.2 ⟨versionFits_iff.2 hfit, by simpa using h40, fun j hj => ?_⟩, rfl⟩
      rw [versionFits_eq_false_iff.2 (hlow (j + 1) (by omega) (by omega))]
      rfl
  · rw [selectVersion_eq_map, Option.map_eq_none_iff, List.find?_range_eq_none]
    constructor
    · intro h u hu hmax
      obtain ⟨j, rfl⟩ := Nat.exists_eq_add_of_le' hu
      exact versionFits_eq_false_iff.1 (by simpa using h j (by omega))
    · intro h j hj
      rw [versionFits_eq_false_iff.2 (h (j + 1) (by omega) (by omega))]
      rfl

/-! ### The length of the packed stream (R223 to R225) -/

/-- A bit string takes as many bytes as its length in eighths, rounded up. -/
theorem length_bytesOfBits_le (bits : List Bool) : 8 * (bytesOfBits bits).length ≤ bits.length + 7 := by
  fun_induction bytesOfBits bits with
  | case1 b7 b6 b5 b4 b3 b2 b1 b0 rest ih => simp only [List.length_cons]; omega
  | case2 => simp
  | case3 bits hlong hnil =>
    have : 1 ≤ bits.length := List.length_pos_iff.2 hnil
    simp only [List.length_singleton]; omega

theorem length_flatMap_fieldBits (fields : List (Nat × Nat)) :
    (fields.flatMap fieldBits).length = (fields.map (·.2)).sum := by
  simp [List.length_flatMap]

theorem sum_widths_terminator (rem : Nat) : ((terminator rem).map (·.2)).sum = min rem 4 := by
  unfold terminator
  split_ifs <;> simp <;> omega

/-- The fields of a stream that fits are at most as wide as the capacity (R218, R223). -/
theorem sum_widths_bitFields_le {tp : TableProvider} {hp : HostParams} {code : BitVec 2} {v : Nat} {bytes : List Byte}
    (h : versionFits tp hp code bytes.length v = true) :
    ((bitFields tp hp code v bytes).map (·.2)).sum ≤ tp.capacity v code := by
  have hfit := versionFits_iff.1 h
  have hbytes : (bytes.map ((·.2) ∘ fun b => (b.toNat, 8))).sum = 8 * bytes.length := by
    simp [Function.comp_def, Nat.mul_comm]
  simp only [bitFields, List.map_append, List.sum_append, List.map_map, hbytes, sum_widths_terminator, requiredBits,
    List.map_cons, List.map_nil, List.sum_cons, List.sum_nil]
  omega

theorem length_packFields {hp : HostParams} {fields : List (Nat × Nat)} {n : Nat}
    (h : (fields.map (·.2)).sum ≤ 8 * n) : (packFields hp fields n).length = n := by
  have hle := length_bytesOfBits_le (fields.flatMap fieldBits)
  rw [length_flatMap_fieldBits] at hle
  simp only [packFields, padBytes, List.length_append, List.length_map, List.length_range]
  omega

/-- Consistent tables hold the capacity of every version and code (R225). -/
theorem capacity_le_of_tablesConsistent {tp : TableProvider} (h : tablesConsistent tp = true) {v : Nat} (h1 : 1 ≤ v)
    (h40 : v ≤ 40) (code : BitVec 2) : (tp.capacity v code : Int) ≤ 8 * dataCodewords tp v code := by
  obtain ⟨i, rfl⟩ := Nat.exists_eq_add_of_le' h1
  simp only [tablesConsistent, forTables, List.all_eq_true, decide_eq_true_eq] at h
  have hv : i + 1 ∈ versions := List.mem_map.2 ⟨i, by simpa using h40, rfl⟩
  have hc : code ∈ [0#2, 1#2, 2#2, 3#2] := by revert code; decide
  exact h _ hv _ hc

/-- NDATA of a block structure is the sum of the sizes less the ECC codewords (R225). -/
theorem dataCodewords_eq (tp : TableProvider) (v : Nat) (code : BitVec 2) :
    dataCodewords tp v code = (tp.blocks v code).sum - (tp.blocks v code).length * tp.eccLength v code := by
  have hcast : (do let b ← tp.blocks v code; pure (b : Int)) = (tp.blocks v code).map Nat.cast :=
    List.map_eq_flatMap.symm
  rw [dataCodewords, hcast]
  induction tp.blocks v code with
  | nil => simp
  | cons b bs ih => simp only [List.map_cons, List.sum_cons, ih, List.length_cons]; push_cast; ring

/-- Settles O60: the fields fit the capacity and so the data codewords, and the pads fill up the rest. -/
theorem packedStreamFillsData : Obligations.PackedStreamFillsData := by
  intro tp hp code bytes v hcons hsel
  obtain ⟨h1, h40, hfit, -⟩ := (selectedVersionIsMinimal tp hp code bytes.length).1 v |>.1 hsel
  have hcap := capacity_le_of_tablesConsistent hcons h1 h40 code
  have hwidths := sum_widths_bitFields_le (versionFits_iff.2 hfit)
  rw [length_packFields (by omega), ← dataCodewords_eq]
  omega

/-! ### The division is linear (R139) -/

/-- The sum of two words of codewords, entry by entry. -/
abbrev wordAdd (a b : List Byte) : List Byte := List.zipWith (· ^^^ ·) a b

theorem wordAdd_wordAdd_comm (a b c d : List Byte) :
    wordAdd (wordAdd a b) (wordAdd c d) = wordAdd (wordAdd a c) (wordAdd b d) := by
  induction a generalizing b c d with
  | nil => simp
  | cons x a ih =>
    cases b with
    | nil => simp
    | cons y b =>
      cases c with
      | nil => simp
      | cons z c =>
        cases d with
        | nil => simp
        | cons u d =>
          have hhead : (x ^^^ y) ^^^ (z ^^^ u) = (x ^^^ z) ^^^ (y ^^^ u) := by ac_rfl
          simp [ih b c d, hhead]

section
variable {gf : Byte → List Byte} {n : Nat} (hgf : ∀ f, (gf f).length = n)
  (hlin : ∀ a b, gf (a ^^^ b) = wordAdd (gf a) (gf b))

include hgf hlin in
/-- The row of 0 of a linear table is 0, so a step that is skipped may as well add it. -/
theorem gf_zero_of_linear : gf 0#8 = List.replicate n 0#8 := by
  have hself (a : List Byte) : wordAdd a a = List.replicate a.length 0#8 := by
    induction a with
    | nil => rfl
    | cons x a ih => simp [List.replicate_succ]
  have h := hlin 0#8 0#8
  rwa [BitVec.xor_self, hself, hgf] at h

include hgf hlin in
theorem divideStep_of_linear {e d : Byte} {es : List Byte} (hes : es.length + 1 = n) :
    divideStep gf (e :: es) d = wordAdd (es ++ [0#8]) (gf (d ^^^ e)) := by
  unfold divideStep
  by_cases hf : d ^^^ e = 0#8
  · have hzero (a : List Byte) : wordAdd a (List.replicate a.length 0#8) = a := by
      induction a with
      | nil => rfl
      | cons x a ih => simp [ih, List.replicate_succ]
    simpa [hf, gf_zero_of_linear hgf hlin, ← hes] using (hzero (es ++ [0#8])).symm
  · simp [hf]

include hgf hlin in
theorem divideStep_wordAdd {a b : List Byte} (hpos : 1 ≤ n) (ha : a.length = n) (hb : b.length = n) (d d' : Byte) :
    divideStep gf (wordAdd a b) (d ^^^ d') = wordAdd (divideStep gf a d) (divideStep gf b d') := by
  obtain ⟨x, as, rfl⟩ : ∃ x as, a = x :: as := List.exists_cons_of_length_pos (by omega)
  obtain ⟨y, bs, rfl⟩ : ∃ y bs, b = y :: bs := List.exists_cons_of_length_pos (by omega)
  have hlen : as.length = bs.length := Nat.succ_injective (ha.trans hb.symm)
  have hlead : (d ^^^ d') ^^^ (x ^^^ y) = (d ^^^ x) ^^^ (d' ^^^ y) := by ac_rfl
  have hshift : wordAdd as bs ++ [0#8] = wordAdd (as ++ [0#8]) (bs ++ [0#8]) := by
    simp [List.zipWith_append, hlen]
  have hsum : (wordAdd as bs).length + 1 = n := by simp_all
  rw [show wordAdd (x :: as) (y :: bs) = (x ^^^ y) :: wordAdd as bs from rfl, divideStep_of_linear hgf hlin hsum,
    divideStep_of_linear hgf hlin ha, divideStep_of_linear hgf hlin hb, hlead, hlin, hshift, wordAdd_wordAdd_comm]

include hgf hlin in
theorem divideBlock_wordAdd {ds es a b : List Byte} (hpos : 1 ≤ n) (ha : a.length = n) (hb : b.length = n) (t : Nat)
    (hds : ds.length = es.length) :
    divideBlock (fun _ => gf) t (wordAdd a b) (wordAdd ds es)
      = wordAdd (divideBlock (fun _ => gf) t a ds) (divideBlock (fun _ => gf) t b es) := by
  induction ds generalizing es a b t with
  | nil =>
    obtain rfl := List.length_eq_zero_iff.1 hds.symm
    rfl
  | cons d ds ih =>
    obtain ⟨d', es, rfl⟩ : ∃ d' es', es = d' :: es' := List.exists_cons_of_length_pos (by simp [← hds])
    have hstep (u : List Byte) (hu : u.length = n) (d : Byte) : (divideStep gf u d).length = n :=
      (divideStep_length (by omega) fun f => (hgf f).trans hu.symm).trans hu
    rw [show wordAdd (d :: ds) (d' :: es) = (d ^^^ d') :: wordAdd ds es from rfl, divideBlock, divideBlock, divideBlock,
      divideStep_wordAdd hgf hlin hpos ha hb,
      ih (hstep a ha d) (hstep b hb d') (t + 1) (Nat.succ_injective (by simpa using hds))]

end

/-- Settles O39: the two registers start at 0, whose sum is 0, and every step of the division is linear. -/
theorem divisionIsLinear : Obligations.DivisionIsLinear := by
  intro gf n ds es hpos hgf hlin hlen
  have hzero : List.replicate n 0#8 = wordAdd (List.replicate n 0#8) (List.replicate n 0#8) := by simp
  conv_lhs => rw [hzero]
  exact divideBlock_wordAdd hgf hlin hpos List.length_replicate List.length_replicate 0 hlen

end Sys2Proof.Machine

namespace Sys2Proof.Machine

open Sys2Proof.Claims

/-! ### Reading a location by its offset (R22, R60, R61) -/

/-- A host's read of an offset answers the word of the location it names. -/
theorem readsAs_of_locate {s : State} {o : Nat} {l : Loc} {w : Word} (hl : locate s.params o = l)
    (h : readLoc s s.draws l = w) (ho : o < 2 ^ 20) (h4 : o % 4 = 0) (hb : s.busy = false) : ReadsAs s o w := by
  subst hl h
  exact readsAs_readLoc ho h4 (.inl hb)

theorem cellIndex_mod_div (k : Nat) : cellIndex (k % 256) (k / 256) = k := by
  unfold cellIndex
  omega

theorem locate_fmtC1 {p : Params} {k : Nat} (hk : k < 15) : locate p (fmtC1Offset k) = .fmtC1 k := by
  have hn : (fmtC1Offset k - 0x200) / 4 = k := by unfold fmtC1Offset; omega
  rw [locate_formatWindow, locateFormat, if_pos, hn, if_pos hk] <;> unfold fmtC1Offset <;> omega

theorem locate_fmtC2 {p : Params} {k : Nat} (hk : k < 15) : locate p (fmtC2Offset k) = .fmtC2 k := by
  have hn : (fmtC2Offset k - 0x240) / 4 = k := by unfold fmtC2Offset; omega
  rw [locate_formatWindow, locateFormat, if_neg, if_pos, hn, if_pos hk] <;> unfold fmtC2Offset <;> omega

theorem locate_fmtTable {p : Params} {i : Nat} (hi : i < 32) : locate p (fmtTableOffset i) = .fmtTable i := by
  have hn : (fmtTableOffset i - 0x280) / 4 = i := by unfold fmtTableOffset; omega
  rw [locate_formatWindow, locateFormat, if_neg, if_neg, if_pos, hn] <;> unfold fmtTableOffset <;> omega

theorem locate_pen {p : Params} (m : Fin 8) (f : PenField) :
    locate p (penOffset m + 4 * f.index) = .pen m f := by
  have hf : f.index < 6 := by cases f <;> decide
  have hm := m.isLt
  have hmask : (penOffset m + 4 * f.index - 0x100) / 0x20 = m := by unfold penOffset; omega
  have hfield : (penOffset m + 4 * f.index - 0x100) % 0x20 / 4 = f.index := by unfold penOffset; omega
  rw [locate_penWindow (by unfold penOffset; omega) (by unfold penOffset; omega), locatePen, hmask, hfield]
  have hofNat : Fin.ofNat 8 m.val = m := Fin.ext (Nat.mod_eq_of_lt hm)
  rw [hofNat]
  cases f <;> rfl

/-- Legal parameters keep every window inside the block (R6, R60). -/
theorem Params.legal_bounds {p : Params} (h : p.legal = true) :
    p.eccMax ≤ 128 ∧ p.blkDepth ≤ 255 ∧ p.cwDepth ≤ 16384 ∧ p.plDepth ≤ 65536 := by
  simp only [Params.legal, Bool.and_eq_true, decide_eq_true_eq] at h
  omega

/-! ### Writing a location and reading it back (R61, R70) -/

theorem readLoc_respond (d : Word) (s : State) (draw : Nat) (l : Loc) :
    readLoc (respond d s) draw l = readLoc s draw l := by
  cases l <;> rfl

theorem writeLoc_draws (v : Word) (s : State) (l : Loc) : (writeLoc v s l).draws = s.draws := by
  cases l with
  | status => exact writeStatus_draws v s
  | _ => rfl

theorem writeLoc_busy {l : Loc} (hl : l ≠ .cmd) (v : Word) (s : State) : (writeLoc v s l).busy = s.busy := by
  rw [State.busy, (writeLoc_leaves_command hl v s).1]
  rfl

/-- With BUSY = 0 a write of any aligned location but CMD takes effect. -/
theorem busAccess_writeWord_idle {s : State} {off : Offset} (v : Word) (hb : s.busy = false) (h4 : off.toNat % 4 = 0)
    (hcmd : locate s.params off.toNat ≠ .cmd) :
    busAccess (.writeWord off v) s = respond 0#32 (writeLoc v s (locate s.params off.toNat)) :=
  busAccess_write_allowed (writeAllowed_iff.2 ⟨h4, rfl, .inl hb, fun ho => absurd (by rw [ho]; rfl) hcmd⟩)

/-- With BUSY = 0 the read after such a write answers from the written state, at the same draw. -/
theorem resp_read_writeWord {s : State} {off off' : Offset} (v : Word) (hb : s.busy = false)
    (h4 : off.toNat % 4 = 0) (h4' : off'.toNat % 4 = 0) (hcmd : locate s.params off.toNat ≠ .cmd) :
    (busAccess (.read off') (busAccess (.writeWord off v) s)).resp
      = some { data := readLoc (writeLoc v s (locate s.params off.toNat)) s.draws (locate s.params off'.toNat)
               err := false } := by
  have hb' : (respond 0#32 (writeLoc v s (locate s.params off.toNat))).busy = false :=
    (writeLoc_busy hcmd v s).trans hb
  rw [busAccess_writeWord_idle v hb h4 hcmd, busAccess_read_allowed (readAllowed_iff.2 ⟨h4', .inl hb'⟩), respond_resp,
    readLoc_respond, respond_params, writeLoc_params, respond_draws, writeLoc_draws]

/-- A location that reads as the low `w` bits of the word written reads back at its offset. -/
theorem readsBack_of_locate {s : State} {o w : Nat} {l : Loc} (hl : locate s.params o = l)
    (h : ∀ v, readLoc (writeLoc v s l) s.draws l = (v.extractLsb' 0 w).setWidth 32) (hcmd : l ≠ .cmd)
    (ho : o < 2 ^ 20) (h4 : o % 4 = 0) (hb : s.busy = false) : ReadsBack s o w := by
  intro v
  have hn : (BitVec.ofNat 20 o).toNat = o := by rw [BitVec.toNat_ofNat, Nat.mod_eq_of_lt ho]
  have hcmd' : locate s.params (BitVec.ofNat 20 o).toNat ≠ .cmd := by rwa [hn, hl]
  rw [hostRead, hostWrite, resp_read_writeWord v hb (by rwa [hn]) (by rwa [hn]) hcmd', hn, hl, h]

section
variable {s : State}

/-- Every table entry and configuration register reads back with the bits of its width. -/
theorem readsBack_locations (hb : s.busy = false) (hp : s.params.legal = true) :
    (∀ b < s.params.blkDepth, ReadsBack s (0x00400 + 4 * b) 8)
      ∧ (∀ i < s.params.cwDepth, ReadsBack s (0x10000 + 4 * i) 8)
      ∧ (∀ c < 256, ∀ j < s.params.eccMax, ReadsBack s (0x20000 + 4 * (c * s.params.eccMax + j)) 8)
      ∧ (∀ i < s.params.plDepth, ReadsBack s (0x40000 + 4 * i) 24)
      ∧ (∀ x < 177, ∀ y < 177, ReadsBack s (0x80000 + 4 * (256 * y + x)) 1)
      ∧ (∀ k < 15, ReadsBack s (0x200 + 4 * k) 16 ∧ ReadsBack s (0x240 + 4 * k) 16)
      ∧ (∀ i < 32, ReadsBack s (0x280 + 4 * i) 15)
      ∧ ReadsBack s 0x020 6 ∧ ReadsBack s 0x024 2 ∧ ReadsBack s 0x028 8 ∧ ReadsBack s 0x02C 8
      ∧ ReadsBack s 0x030 3 := by
  obtain ⟨hecc, hblk, hcw, hpl⟩ := Params.legal_bounds hp
  have entry {w : Nat} (m : Mem w) (k : Nat) (v : BitVec w) (draw off : Nat) :
      (orFree ((m.write k v).read k) draw off 0).setWidth 32 = v.setWidth 32 :=
    congrArg _ (orFree_of_read (Mem.read_write_same m k v) ..)
  refine ⟨fun b h => ?blk, fun i h => ?cw, fun c hc j hj => ?gf, fun i h => ?pl, fun x hx y hy => ?frame,
    fun k h => ⟨?fmtC1, ?fmtC2⟩, fun i h => ?fmtTable, ?version, ?eccode, ?ecclen, ?nblocks, ?rembits⟩
  case blk =>
    exact readsBack_of_locate (locate_blk h hblk) (fun _ => entry ..) nofun (by omega) (by omega) hb
  case cw =>
    exact readsBack_of_locate (locate_cw h hcw) (fun _ => entry ..) nofun (by omega) (by omega) hb
  case gf =>
    have he : c * s.params.eccMax + j < 256 * s.params.eccMax := by
      have := Nat.mul_le_mul_right s.params.eccMax (Nat.succ_le_of_lt hc)
      rw [Nat.succ_mul] at this
      omega
    exact readsBack_of_locate (locate_gf he hecc) (fun _ => entry ..) nofun (by omega) (by omega) hb
  case pl =>
    exact readsBack_of_locate (locate_pl h hpl) (fun _ => entry ..) nofun (by omega) (by omega) hb
  case frame =>
    exact readsBack_of_locate (locate_frame hx hy) (fun _ => entry ..) nofun (by omega) (by omega) hb
  case fmtC1 =>
    exact readsBack_of_locate (locate_fmtC1 h) (fun _ => entry ..) nofun (by omega) (by omega) hb
  case fmtC2 =>
    exact readsBack_of_locate (locate_fmtC2 h) (fun _ => entry ..) nofun (by omega) (by omega) hb
  case fmtTable =>
    exact readsBack_of_locate (locate_fmtTable h) (fun _ => entry ..) nofun (by omega) (by omega) hb
  case version => exact readsBack_of_locate (l := .version) rfl (fun _ => rfl) nofun (by decide) (by decide) hb
  case eccode => exact readsBack_of_locate (l := .eccode) rfl (fun _ => rfl) nofun (by decide) (by decide) hb
  case ecclen => exact readsBack_of_locate (l := .ecclen) rfl (fun _ => rfl) nofun (by decide) (by decide) hb
  case nblocks => exact readsBack_of_locate (l := .nblocks) rfl (fun _ => rfl) nofun (by decide) (by decide) hb
  case rembits => exact readsBack_of_locate (l := .rembits) rfl (fun _ => rfl) nofun (by decide) (by decide) hb

/-- Every table entry reads at its offset as the entry that the commands use. -/
theorem entriesRead (hb : s.busy = false) (hp : s.params.legal = true) : EntriesRead s := by
  obtain ⟨hecc, hblk, hcw, hpl⟩ := Params.legal_bounds hp
  have entry {w : Nat} {o : Option (BitVec w)} {v : BitVec w} (h : o = some v) (draw off : Nat) :
      (orFree o draw off 0).setWidth 32 = v.setWidth 32 := congrArg _ (orFree_of_read h ..)
  refine ⟨fun k v hk h => ?blk, fun k v hk h => ?cw, fun k v hk h => ?gf, fun k v hk h => ?pl, fun k v hk h => ?frame,
    fun k v hk h => ?fmtC1, fun k v hk h => ?fmtC2, fun k v hk h => ?fmtTable⟩
  case blk => exact readsAs_of_locate (o := 0x00400 + 4 * k) (locate_blk hk hblk) (entry h ..) (by omega) (by omega) hb
  case cw => exact readsAs_of_locate (o := 0x10000 + 4 * k) (locate_cw hk hcw) (entry h ..) (by omega) (by omega) hb
  case gf => exact readsAs_of_locate (o := 0x20000 + 4 * k) (locate_gf hk hecc) (entry h ..) (by omega) (by omega) hb
  case pl => exact readsAs_of_locate (o := 0x40000 + 4 * k) (locate_pl hk hpl) (entry h ..) (by omega) (by omega) hb
  case frame =>
    have hl : locate s.params (0x80000 + 4 * k) = .frame (k % 256) (k / 256) := by
      have h := locate_frame (p := s.params) hk.1 hk.2
      rwa [cellIndex_mod_div] at h
    rw [← cellIndex_mod_div k] at h
    exact readsAs_of_locate (o := 0x80000 + 4 * k) hl (entry h ..) (by omega) (by omega) hb
  case fmtC1 => exact readsAs_of_locate (o := 0x200 + 4 * k) (locate_fmtC1 hk) (entry h ..) (by omega) (by omega) hb
  case fmtC2 => exact readsAs_of_locate (o := 0x240 + 4 * k) (locate_fmtC2 hk) (entry h ..) (by omega) (by omega) hb
  case fmtTable => exact readsAs_of_locate (o := 0x280 + 4 * k) (locate_fmtTable hk) (entry h ..) (by omega) (by omega) hb

/-- A penalty register reads at its offset as its value (R39). -/
theorem readsAs_pen (hb : s.busy = false) {m : Fin 8} (f : PenField) {v : Word} {o : Nat}
    (h : s.res.pen[m].field f = .known v) (ho : o = penOffset m + 4 * f.index) : ReadsAs s o v := by
  have hf : f.index < 6 := by cases f <;> decide
  have hm := m.isLt
  refine readsAs_of_locate (ho ▸ locate_pen m f) ?_ (by unfold penOffset at ho; omega)
    (by unfold penOffset at ho; omega) hb
  rw [readLoc, h]
  rfl

/-- A MAT word holds PLANE in its low byte and OUT above it (R61). -/
theorem readLoc_mat {x y : Nat} {p : BitVec 8} {o : BitVec 1} (hp : s.mem.plane.read (cellIndex x y) = some p)
    (ho : s.mem.out.read (cellIndex x y) = some o) (draw : Nat) :
    readLoc s draw (.mat x y) = BitVec.ofNat 32 (p.toNat + o.toNat * 2 ^ 8) := by
  have hplane : planeAt s draw x y = p := orFree_of_read hp ..
  have hout : outAt s draw x y = o := orFree_of_read ho ..
  refine eq_ofNat_of_toNat ?_
  rw [readLoc, hplane, hout, toNat_append_eq_add, toNat_append_eq_add, BitVec.toNat_ofNat]
  omega

end

/-- Settles O24: each offset names its location, whose word is read off what it holds. -/
theorem offsetsReadTheirContent : Obligations.OffsetsReadTheirContent := by
  intro s hb hp
  have known {w o : Nat} {l : Loc} {r : RegVal w} {free : BitVec w} (hl : locate s.params o = l)
      (hr : readLoc s s.draws l = (r.get free).setWidth 32) (ho : o < 2 ^ 20 := by decide)
      (h4 : o % 4 = 0 := by decide) (v : BitVec w) (h : r = .known v) : ReadsAs s o (v.setWidth 32) :=
    readsAs_of_locate hl (by rw [hr, h]; rfl) ho h4 hb
  refine ⟨readsBack_locations hb hp, entriesRead hb hp, lowRegistersRead s,
    readsAs_of_locate (l := .version) rfl rfl (by decide) (by decide) hb,
    readsAs_of_locate (l := .eccode) rfl rfl (by decide) (by decide) hb,
    readsAs_of_locate (l := .ecclen) rfl rfl (by decide) (by decide) hb,
    readsAs_of_locate (l := .nblocks) rfl rfl (by decide) (by decide) hb,
    readsAs_of_locate (l := .rembits) rfl rfl (by decide) (by decide) hb,
    readsAs_of_locate (l := .side) rfl ?side (by decide) (by decide) hb,
    known (l := .ndata) rfl rfl, known (l := .ntotal) rfl rfl, known (l := .selMask) rfl rfl,
    known (l := .fmtIndex) rfl rfl, known (l := .fmtBits) rfl rfl, fun m v => ?pen, fun x hx y hy p o hplane hout => ?mat⟩
  case side =>
    rw [readLoc, sideOf]
    split <;> rfl
  case pen =>
    exact ⟨fun h => readsAs_pen hb .n1 h rfl, fun h => readsAs_pen hb .n2 h (by simp only [penOffset, PenField.index]; omega),
      fun h => readsAs_pen hb .n3 h (by simp only [penOffset, PenField.index]; omega),
      fun h => readsAs_pen hb .n4 h (by simp only [penOffset, PenField.index]; omega),
      fun h => readsAs_pen hb .total h (by simp only [penOffset, PenField.index]; omega),
      fun h => readsAs_pen hb .dark h (by simp only [penOffset, PenField.index]; omega)⟩
  case mat => exact readsAs_of_locate (locate_mat hx hy) (readLoc_mat hplane hout _) (by omega) (by omega) hb

/-! ### A write changes no other location (R69, R70) -/

/-- The offset of a location that is not reserved (R22, R39, R60). -/
def Loc.offset : Loc → Nat
  | .id => 0x000
  | .params0 => 0x004
  | .ctrl => 0x008
  | .status => 0x00C
  | .cmd => 0x010
  | .err => 0x014
  | .errinfo => 0x018
  | .params1 => 0x01C
  | .version => 0x020
  | .eccode => 0x024
  | .ecclen => 0x028
  | .nblocks => 0x02C
  | .rembits => 0x030
  | .side => 0x034
  | .ndata => 0x038
  | .ntotal => 0x03C
  | .selMask => 0x040
  | .fmtIndex => 0x044
  | .fmtBits => 0x048
  | .pen m f => penOffset m + 4 * f.index
  | .fmtC1 k => fmtC1Offset k
  | .fmtC2 k => fmtC2Offset k
  | .fmtTable i => fmtTableOffset i
  | .blk b => blkOffset b
  | .cw i => cwOffset i
  | .gf e => gfOffset e
  | .pl i => plOffset i
  | .frame x y => frameOffset (cellIndex x y)
  | .mat x y => matOffset (cellIndex x y)
  | .reserved => 0

/-- A location is reserved or has the offset `o`. -/
def Loc.AtOffset (o : Nat) (l : Loc) : Prop := l = .reserved ∨ l.offset = o

theorem locateRegister_atOffset {o : Nat} (h4 : o % 4 = 0) : (locateRegister o).AtOffset o := by
  unfold locateRegister
  split
  case h_20 => exact .inl rfl
  all_goals exact .inr (by simp only [Loc.offset]; omega)

theorem locatePen_atOffset {o : Nat} (h4 : o % 4 = 0) (hlo : 0x100 ≤ o) (hhi : o < 0x200) :
    (locatePen o).AtOffset o := by
  have hm : (Fin.ofNat 8 ((o - 0x100) / 0x20)).val = (o - 0x100) / 0x20 := Nat.mod_eq_of_lt (by omega)
  unfold locatePen
  dsimp only
  split
  case h_7 => exact .inl rfl
  all_goals exact .inr (by simp only [Loc.offset, PenField.index, hm, penOffset]; omega)

theorem locateFormat_atOffset {o : Nat} (h4 : o % 4 = 0) (hlo : 0x200 ≤ o) : (locateFormat o).AtOffset o := by
  unfold locateFormat
  split_ifs
  · exact .inr (by simp only [Loc.offset, fmtC1Offset]; omega)
  · exact .inl rfl
  · exact .inr (by simp only [Loc.offset, fmtC2Offset]; omega)
  · exact .inl rfl
  · exact .inr (by simp only [Loc.offset, fmtTableOffset]; omega)
  · exact .inl rfl

/-- A location that is reserved past the end of its window has the offset of its entry. -/
theorem Loc.atOffset_entry {o base n : Nat} {mk : Nat → Loc} (h4 : o % 4 = 0) (hb : base ≤ o) (hb4 : base % 4 = 0)
    (hmk : ∀ k, (mk k).offset = base + 4 * k) :
    (if (o - base) / 4 < n then mk ((o - base) / 4) else .reserved).AtOffset o := by
  split
  · exact .inr (by rw [hmk]; omega)
  · exact .inl rfl

theorem locateCell_atOffset {o base : Nat} {mk : Nat → Nat → Loc} (h4 : o % 4 = 0) (hb : base ≤ o)
    (hb4 : base % 4 = 0) (hmk : ∀ x y, (mk x y).offset = base + 4 * cellIndex x y) :
    (locateCell mk ((o - base) / 4)).AtOffset o := by
  unfold locateCell
  split
  · exact .inr (by rw [hmk, cellIndex_mod_div]; omega)
  · exact .inl rfl

/-- The location that an aligned offset names has that offset, so no location has two (R22, R60). -/
theorem locate_atOffset (p : Params) {o : Nat} (h4 : o % 4 = 0) : (locate p o).AtOffset o :=
  iteInduction (fun _ => locateRegister_atOffset h4) fun _ =>
  iteInduction (fun _ => locatePen_atOffset h4 (by omega) (by omega)) fun _ =>
  iteInduction (fun _ => locateFormat_atOffset h4 (by omega)) fun _ =>
  iteInduction (fun _ => Loc.atOffset_entry h4 (by omega) (by decide) fun _ => rfl) fun _ =>
  iteInduction (fun _ => Loc.atOffset_entry h4 (by omega) (by decide) fun _ => rfl) fun _ =>
  iteInduction (fun _ => Loc.atOffset_entry h4 (by omega) (by decide) fun _ => rfl) fun _ =>
  iteInduction (fun _ => Loc.atOffset_entry h4 (by omega) (by decide) fun _ => rfl) fun _ =>
  iteInduction (fun _ => locateCell_atOffset h4 (by omega) (by decide) fun _ _ => rfl) fun _ =>
  locateCell_atOffset h4 (by omega) (by decide) fun _ _ => rfl

theorem offset_of_locate {p : Params} {o : Nat} {l : Loc} (h4 : o % 4 = 0) (h : locate p o = l) (hl : l ≠ .reserved) :
    o = l.offset :=
  ((h ▸ locate_atOffset p h4).resolve_left hl).symm

/-- A write of a location changes the word of no other one, but for SIDE, which is a function of VERSION (R35), and but
for the side effects of CTRL, STATUS and CMD (R69). -/
theorem readLoc_writeLoc_other {s : State} {l l' : Loc} (v : Word) (draw : Nat) (hctrl : l ≠ .ctrl)
    (hstatus : l ≠ .status) (hcmd : l ≠ .cmd) (hne : l ≠ l') (hside : l = .version → l' ≠ .side)
    (hl : l.Mapped s.params) (hl' : l'.Mapped s.params) :
    readLoc (writeLoc v s l) draw l' = readLoc s draw l' := by
  have entry {w : Nat} (m : Mem w) {k j : Nat} (x : BitVec w) (mk : Nat → Loc) (h : mk k ≠ mk j) (off : Nat) :
      (orFree ((m.write k x).read j) draw off 0).setWidth 32 = (orFree (m.read j) draw off 0).setWidth 32 := by
    rw [Mem.read_write_other m x fun hj => h (by rw [hj])]
  by_cases hi : l.ignoresWrites = true
  · rw [writeLoc_of_ignoresWrites hi]
  cases l with
  | ctrl => exact absurd rfl hctrl
  | status => exact absurd rfl hstatus
  | cmd => exact absurd rfl hcmd
  | version =>
    cases l' with
    | version => exact absurd rfl hne
    | side => exact absurd rfl (hside rfl)
    | _ => rfl
  | eccode => cases l' with
    | eccode => exact absurd rfl hne
    | _ => rfl
  | ecclen => cases l' with
    | ecclen => exact absurd rfl hne
    | _ => rfl
  | nblocks => cases l' with
    | nblocks => exact absurd rfl hne
    | _ => rfl
  | rembits => cases l' with
    | rembits => exact absurd rfl hne
    | _ => rfl
  | fmtC1 k => cases l' with
    | fmtC1 j => exact entry _ _ .fmtC1 hne _
    | _ => rfl
  | fmtC2 k => cases l' with
    | fmtC2 j => exact entry _ _ .fmtC2 hne _
    | _ => rfl
  | fmtTable k => cases l' with
    | fmtTable j => exact entry _ _ .fmtTable hne _
    | _ => rfl
  | blk k => cases l' with
    | blk j => exact entry _ _ .blk hne _
    | _ => rfl
  | cw k => cases l' with
    | cw j => exact entry _ _ .cw hne _
    | _ => rfl
  | gf k => cases l' with
    | gf j => exact entry _ _ .gf hne _
    | _ => rfl
  | pl k => cases l' with
    | pl j => exact entry _ _ .pl hne _
    | _ => rfl
  | frame x y => cases l' with
    | frame x' y' =>
      have hx : x < 177 ∧ y < 177 := hl
      have hx' : x' < 177 ∧ y' < 177 := hl'
      refine entry _ _ (fun k => .blk k) (fun h => hne ?_) _
      obtain ⟨rfl, rfl⟩ := (cellIndex_inj (by omega) (by omega)).1 (Loc.blk.inj h)
      rfl
    | _ => rfl
  | _ => exact absurd rfl hi

/-- Settles O25: two offsets of one location are equal, and a write of one location changes the word of no other. -/
theorem writeLeavesOtherLocations : Obligations.WriteLeavesOtherLocations := by
  intro s off off' v hb h4 h4' hne hnot hside
  have hoff {l : Loc} (h : locate s.params off.toNat = l) (hl : l ≠ .reserved) : off.toNat = l.offset :=
    offset_of_locate h4 h hl
  simp only [List.mem_cons, List.not_mem_nil, or_false, not_or] at hnot
  obtain ⟨h8, hC, h10⟩ := hnot
  have hctrl : locate s.params off.toNat ≠ .ctrl := fun h => h8 (hoff h nofun)
  have hstatus : locate s.params off.toNat ≠ .status := fun h => hC (hoff h nofun)
  have hcmd : locate s.params off.toNat ≠ .cmd := fun h => h10 (hoff h nofun)
  rw [resp_read_writeWord v hb h4 h4' hcmd, busAccess_read_allowed (readAllowed_iff.2 ⟨h4', .inl hb⟩), respond_resp]
  by_cases hres : locate s.params off.toNat = .reserved
  · rw [hres]; rfl
  · have hother : locate s.params off.toNat ≠ locate s.params off'.toNat := fun heq =>
      hne (BitVec.eq_of_toNat_eq ((hoff heq (heq ▸ hres)).trans (offset_of_locate h4' rfl (heq ▸ hres)).symm))
    have hsides : locate s.params off.toNat = .version → locate s.params off'.toNat ≠ .side := fun hv hs =>
      hside (hoff hv nofun) (offset_of_locate h4' hs nofun)
    rw [readLoc_writeLoc_other v s.draws hctrl hstatus hcmd hother hsides (locate_mapped _ _) (locate_mapped _ _)]

end Sys2Proof.Machine

namespace Sys2Proof.Machine

open Sys2Proof.Claims

/-! ### The rows that a division reads (R134, R136, R281) -/

/-- A step reads the row of its leading term alone, and none where that is 0 (R134, R139 item 4). -/
theorem divideStep_congr {row row' : Byte → List Byte} {d : Byte} {esr : List Byte}
    (h : d ^^^ esr.headD 0#8 ≠ 0#8 → row (d ^^^ esr.headD 0#8) = row' (d ^^^ esr.headD 0#8)) :
    divideStep row esr d = divideStep row' esr d := by
  unfold divideStep
  by_cases hf : d ^^^ esr.headD 0#8 = 0#8
  · simp only [gfAdd, hf, if_true]
  · simp only [gfAdd, h hf]

section
variable {gf : Byte → List Byte} {n : Nat} (hgf : ∀ f, (gf f).length = n)
include hgf

/-- A round of the long division on the padded sum of register and data is a step of the register form. -/
theorem longRound_xorPadded_eq_divideStep {e d : Byte} {es : List Byte} (hes : es.length + 1 = n) (ds : List Byte) :
    longRound gf n (e ^^^ d) (xorPadded es ds) = xorPadded (divideStep gf (e :: es) d) ds := by
  rw [longRound_eq_xorPadded, divideStep_cons_eq_xorPadded hgf hes, xorPadded_right_comm, BitVec.xor_comm]

/-- A division whose rows are `gf`'s for every leading term of the long division is the division by `gf`. -/
theorem divideBlock_of_leads {row : Nat → Byte → List Byte} {esr ds : List Byte} (hpos : 1 ≤ n)
    (hesr : esr.length = n) (t t' : Nat)
    (h : ∀ c ∈ longLeads gf n ds.length (xorPadded esr ds), ∀ i, row i c = gf c) :
    divideBlock row t esr ds = divideBlock (fun _ => gf) t' esr ds := by
  induction ds generalizing esr t t' with
  | nil => rfl
  | cons d ds ih =>
    obtain ⟨e, es, rfl⟩ : ∃ e es, esr = e :: es := List.exists_cons_of_length_pos (by omega)
    rw [List.length_cons, xorPadded_cons_cons, longLeads, longRound_xorPadded_eq_divideStep hgf hesr] at h
    have hstep : divideStep (row t) (e :: es) d = divideStep gf (e :: es) d := by
      refine divideStep_congr fun hf => h _ (List.mem_append_left _ ?_) t
      rw [List.headD_cons] at hf ⊢
      rw [BitVec.xor_comm e d, if_pos hf]
      exact List.mem_singleton_self _
    have hlen : (divideStep gf (e :: es) d).length = n :=
      (divideStep_length (by simp) fun f => (hgf f).trans hesr.symm).trans hesr
    rw [divideBlock, divideBlock, hstep, ih hlen (t + 1) (t' + 1) fun c hc => h c (List.mem_append_right _ hc)]

/-- The division of a block from the register at 0 meets the leading terms of the long division of its data. -/
theorem longLeads_xorPadded_zeros (hpos : 1 ≤ n) (ds : List Byte) :
    longLeads gf n ds.length (xorPadded (List.replicate n 0#8) ds) = longLeads gf n ds.length ds := by
  cases ds with
  | nil => rfl
  | cons d ds =>
    obtain ⟨m, rfl⟩ : ∃ m, n = m + 1 := ⟨n - 1, by omega⟩
    have hrow : xorPadded (addedRow gf (m + 1) d) (List.replicate m 0#8) = addedRow gf (m + 1) d := by
      simp [xorPadded_replicate_zero, addedRow_length hgf]
    have hround : longRound gf (m + 1) d (xorPadded (List.replicate m 0#8) ds) = longRound gf (m + 1) d ds := by
      rw [longRound_eq_xorPadded, longRound_eq_xorPadded, xorPadded_comm _ ds, xorPadded_right_comm, xorPadded_assoc,
        hrow]
    rw [List.replicate_succ, xorPadded_cons_cons, BitVec.zero_xor, List.length_cons, longLeads, longLeads, hround]

/-- Rows that are `gf`'s wherever the long division reads one give its ECC codewords (R136, R281). -/
theorem divideBlock_eq_longDivision {row : Nat → Byte → List Byte} {ds : List Byte} (hpos : 1 ≤ n) (t : Nat)
    (h : ∀ c ∈ longLeads gf n ds.length ds, ∀ i, row i c = gf c) :
    divideBlock row t (List.replicate n 0#8) ds = longDivision gf n ds := by
  rw [divideBlock_of_leads hgf hpos List.length_replicate t 0 (by rwa [longLeads_xorPadded_zeros hgf hpos]),
    registerDivisionIsLongDivision gf n ds hpos hgf]

end

/-! ### The ECC codewords of a block list (R130, R132, R135) -/

/-- Codeword `j` of block `b`, whose data codewords come after those of the blocks before it. -/
theorem eccCodewords_getElem? (s : State) (draw : Nat) {n b j : Nat} (off : Nat) {sizes : List Nat} (hn : 0 < n)
    (hb : b < sizes.length) (hj : j < n) :
    (eccCodewords s draw n off sizes)[b * n + j]?
      = (divideBlock (fun t => gfRow s (draw + 1 + t) n) (off + ((sizes.take b).map (fun k => k - n)).sum)
          (List.replicate n 0#8)
          (blockData s draw (off + ((sizes.take b).map (fun k => k - n)).sum) (sizes.getD b 0 - n)))[j]? := by
  induction sizes generalizing off b with
  | nil => exact absurd hb (Nat.not_lt_zero b)
  | cons k ks ih =>
    have hlen (t : Nat) (ds : List Byte) :
        (divideBlock (fun i => gfRow s (draw + 1 + i) n) t (List.replicate n 0#8) ds).length = n :=
      (divideBlock_length (by simpa) (by simp)).trans List.length_replicate
    rw [eccCodewords]
    cases b with
    | zero =>
      rw [Nat.zero_mul, Nat.zero_add, List.getElem?_append_left (by rwa [hlen])]
      rfl
    | succ b =>
      have hindex : (b + 1) * n + j - n = b * n + j := by rw [Nat.succ_mul]; omega
      rw [List.getElem?_append_right (by rw [hlen, Nat.succ_mul]; omega), hlen, hindex,
        ih (off + (k - n)) (Nat.lt_of_succ_lt_succ hb), List.take_succ_cons, List.map_cons, List.sum_cons, Nat.add_assoc]
      rfl

theorem sum_take_add_getD_le (l : List Nat) (b : Nat) : (l.take b).sum + l.getD b 0 ≤ l.sum := by
  induction l generalizing b with
  | nil => simp
  | cons x l ih =>
    cases b with
    | zero => simp
    | succ b =>
      have := ih b
      simp only [List.take_succ_cons, List.sum_cons, List.getD_cons_succ]
      omega

theorem orFree_eq_getD {w : Nat} {o : Option (BitVec w)} (h : o.isSome) (draw off lo : Nat) :
    orFree o draw off lo = o.getD 0#w := by
  obtain ⟨x, rfl⟩ := Option.isSome_iff_exists.1 h
  rfl

section
variable {s : State}

/-- Every read of a written block list gives the sizes of the checks. -/
theorem blockSizes_of_blkWritten (h : BlkWritten s) (draw : Nat) : blockSizes s draw = sizes s :=
  blockSizes_written h draw s.draws

/-- The data codewords of the blocks are CW[0..NDATA−1] (R36, R132). -/
theorem sum_dataSizes_eq_data (hp : BlocksPass s) (hb : BlkWritten s) :
    ((sizes s).map (fun k => k - eccLen s)).sum = data s :=
  ((blocksValid_iff.2 ⟨hp, rfl⟩).split hb s.draws).2.1

/-- On a written block list the sum holds the ECC codewords (R36). -/
theorem eccTotal_le_total (hp : BlocksPass s) (hb : BlkWritten s) : eccTotal s ≤ total s :=
  ((blocksValid_iff.2 ⟨hp, rfl⟩).split hb s.draws).1

/-- On the load of R281 the data codewords read are those of the block. -/
theorem blockData_eq_blockBytes (hp : BlocksPass s) (hw : RsTablesWritten s) (draw b : Nat) :
    blockData s draw (blockOffset s b) ((sizes s).getD b 0 - eccLen s) = blockBytes s b := by
  obtain ⟨hblk, hcw, -⟩ := hw
  refine List.map_congr_left fun t ht => orFree_eq_getD (hcw _ ?_) ..
  have hle := sum_take_add_getD_le ((sizes s).map (fun k => k - eccLen s)) b
  have hget : ((sizes s).map (fun k => k - eccLen s)).getD b 0 = (sizes s).getD b 0 - eccLen s := by
    have := List.getD_map (sizes s) (d := 0) (fun k => k - eccLen s) (n := b)
    rwa [Nat.zero_sub] at this
  rw [hget, sum_dataSizes_eq_data hp hblk, ← List.map_take] at hle
  have ht := List.mem_range.1 ht
  unfold blockOffset
  omega

/-- A row whose entries below ECCLEN are written reads as its content. -/
theorem gfRow_eq_gfBytes {c : Byte} (h : ∀ j < eccLen s, (s.mem.gf.read (c.toNat * s.params.eccMax + j)).isSome)
    (draw : Nat) : gfRow s draw (eccLen s) c = gfBytes s c :=
  List.map_congr_left fun j hj => orFree_eq_getD (h j (List.mem_range.1 hj)) ..

/-- On the load of R281 the codewords written are those of the long division (R130, R136). -/
theorem eccWritten_getElem? (hp : BlocksPass s) (hw : RsTablesWritten s) {b j : Nat} (hb : b < s.cfg.nblocks.toNat)
    (hj : j < eccLen s) :
    (eccWritten (total s) s)[b * eccLen s + j]? = (longDivision (gfBytes s) (eccLen s) (blockBytes s b))[j]? := by
  have hpos : 0 < eccLen s := hp.1.1
  have hlen : b < (sizes s).length := by rwa [sizes, blockSizes_length]
  rw [(blocksValid_iff.2 ⟨hp, rfl⟩).eccWritten_eq hw.1, blockSizes_of_blkWritten hw.1]
  refine (eccCodewords_getElem? s (s.draws + 2) 0 hpos hlen hj).trans ?_
  rw [Nat.zero_add]
  have hdata := blockData_eq_blockBytes hp hw (s.draws + 2) b
  unfold blockOffset at hdata
  rw [hdata, divideBlock_eq_longDivision (gf := gfBytes s) (by simp [gfBytes]) hpos]
  exact fun c hc i => gfRow_eq_gfBytes (hw.2.2 b hb c hc) _

/-- CW after the writes of RS_ENCODE, entry by entry (R135, R139 item 8). -/
theorem read_encodedCw (hp : BlocksPass s) (k : Nat) :
    (encodedCw (total s) s).read k
      = if data s ≤ k ∧ k < total s then (eccWritten (total s) s)[k - data s]? else s.mem.cw.read k := by
  have hlen : (eccWritten (total s) s).length = total s - data s := eccWritten_length hp.1.1
  have hle : data s ≤ total s := dataCount_le s (total s)
  rw [encodedCw, Mem.read_writeList, hlen]
  exact if_congr (by rw [show dataCount s (total s) = data s from rfl]; omega) rfl rfl

theorem cwEncoded_encodedCw {t : State} (hp : BlocksPass s) (ht : t.mem.cw = encodedCw (total s) s) :
    CwEncoded s t := by
  have hread (k : Nat) := ht ▸ read_encodedCw hp k
  refine ⟨fun k hk => ?outside, fun k h1 h2 => ?written, fun hw b hb j hj => ?content⟩
  case outside => rw [hread, if_neg (by omega)]
  case written =>
    have hlen : (eccWritten (total s) s).length = total s - data s := eccWritten_length hp.1.1
    rw [hread, if_pos ⟨h1, h2⟩, List.getElem?_eq_getElem (by omega)]
    rfl
  case content =>
    have hecc := eccTotal_le_total hp hw.1
    have hblock : (b + 1) * eccLen s ≤ eccTotal s := Nat.mul_le_mul_right _ hb
    rw [Nat.succ_mul] at hblock
    have hdata : data s = total s - eccTotal s := rfl
    rw [hread, if_pos ⟨by omega, by omega⟩, Nat.add_assoc, Nat.add_sub_cancel_left, eccWritten_getElem? hp hw hb hj]

end

/-- Settles O36: with every check passed the body succeeds, and CW is what its one stretch of writes leaves. -/
theorem rsEncodeCompletes : Obligations.RsEncodeCompletes := by
  intro s hp
  have hexec := exec_rsEncode_of_body (rsBody_of_blocksPass hp)
  exact ⟨_, hexec, ⟨around_exec hexec, rfl, rfl, rfl⟩,
    countsWritten_writeCounts (u := writeEcc (total s) (startStep .rs s)) rfl rfl rfl, rfl,
    cwEncoded_encodedCw (s := startStep .rs s) hp rfl⟩

end Sys2Proof.Machine

namespace Sys2Proof.Machine

open Sys2Proof.Claims

/-! ### The placed bits (R153, R157) -/

section
variable {bit : Nat → Bool} {m : Matrix 8} {i j : Nat} {es : List (Option Nat × Byte)}

/-- A cell that no entry names keeps its value. -/
theorem read_placeBits_of_notMem (h : ∀ t, (some j, t) ∉ es) : (placeBits bit m i es).read j = m.read j := by
  induction es generalizing m i with
  | nil => rfl
  | cons e es ih =>
    have he : e.1 ≠ some j := fun he => h e.2 (List.mem_cons.2 (.inl (he ▸ rfl)))
    rw [placeBits, ih fun t ht => h t (List.mem_cons_of_mem _ ht), Matrix.read_writeAt, if_neg he]

/-- The last entry that names a cell gives its byte. -/
theorem read_placeBits_of_last {k : Nat} {t : Byte} (hk : es[k]? = some (some j, t))
    (hlast : ∀ k', k < k' → ∀ t', es[k']? ≠ some (some j, t')) :
    (placeBits bit m i es).read j = some (planeByte (bit (i + k)) t) := by
  induction es generalizing m i k with
  | nil => cases hk
  | cons e es ih =>
    cases k with
    | zero =>
      obtain rfl : e = (some j, t) := by simpa using hk
      have hes : ∀ t', (some j, t') ∉ es := fun t' hmem => by
        obtain ⟨k', hk'⟩ := List.mem_iff_getElem?.1 hmem
        exact hlast (k' + 1) (Nat.succ_pos k') t' hk'
      rw [placeBits, read_placeBits_of_notMem hes, Matrix.read_writeAt, if_pos rfl, Nat.add_zero]
    | succ k =>
      rw [placeBits, ih hk fun k' hk' => hlast (k' + 1) (Nat.succ_lt_succ hk'), Nat.add_assoc, Nat.add_comm 1]

end

section
variable {s : State} {x y i : Nat}

/-- On a written, legal placement table the writes find the entries' cells and toggles. -/
theorem plTargets_getElem? (hv : VersionLegal s) (hl : PlacementLegal s) (hw : PlWritten s) (draw : Nat)
    (hi : i < bitTotal s) :
    (plTargets s draw (bitTotal s))[i]?
      = some (some (cellIndex (coordX (plAt s s.draws i)) (coordY (plAt s s.draws i))),
          toggleOf (plAt s s.draws i)) := by
  have hagain : plAt s draw i = plAt s s.draws i := orFree_of_isSome (hw i hi) ..
  rw [plTargets, List.getElem?_map, List.getElem?_range hi, Option.map_some, hagain, landing_of_inside hv (hl i hi)]

theorem plTargets_getElem?_eq_some_iff (hv : VersionLegal s) (hl : PlacementLegal s) (hw : PlWritten s) (draw : Nat)
    (hx : x < 256) {t : Byte} :
    (plTargets s draw (bitTotal s))[i]? = some (some (cellIndex x y), t)
      ↔ i < bitTotal s ∧ Names s i x y ∧ toggleOf (plAt s s.draws i) = t := by
  by_cases hi : i < bitTotal s
  · simp [plTargets_getElem? hv hl hw draw hi, hi, cellIndex_inj (coordX_lt _) hx, Names]
  · have hnone : (plTargets s draw (bitTotal s))[i]? = none := by
      rw [List.getElem?_eq_none_iff]
      simpa [plTargets] using hi
    simp [hnone, hi]

/-- PLANE after the writes of PLACE, each cell read from the last write that names it. -/
theorem planePlaced_writePlanes {t : State} (hv : VersionLegal s) (hl : PlacementLegal s) (hw : PlWritten s)
    (ht : t.mem.plane = (writePlanes (total s) s).mem.plane) : PlanePlaced (bitAt s) s t := by
  intro x hx y _
  have hget := fun (k : Nat) (t : Byte) =>
    plTargets_getElem?_eq_some_iff (i := k) (y := y) (t := t) hv hl hw (s.draws + 1) hx
  rw [ht]
  refine ⟨fun i hi hnames hlast => ?_, fun hnone => ?_⟩
  · refine (read_placeBits_of_last ((hget i _).2 ⟨hi, hnames, rfl⟩) fun k' hk' t' hk => ?_).trans ?_
    · obtain ⟨hlt, hnames', -⟩ := (hget k' t').1 hk
      exact hlast k' hlt hk' hnames'
    · rw [Nat.zero_add]
      rfl
  · refine (read_placeBits_of_notMem fun t hmem => ?_).trans rfl
    obtain ⟨k, hk⟩ := List.mem_iff_getElem?.1 hmem
    obtain ⟨hlt, hnames, -⟩ := (hget k t).1 hk
    exact hnone k hlt hnames

end

theorem isSome_read_writePlanes_plane (n : Nat) (s : State) (k : Nat) :
    ((writePlanes n s).mem.plane.read k).isSome :=
  Matrix.isSome_read_of_cleared (by simp [Matrix.zero]) k

/-- Settles O40: with every check passed the body writes the planes, and each cell keeps the last write that names it. -/
theorem placeCompletes : Obligations.PlaceCompletes := by
  intro s hv hb hd hl
  have hexec := exec_place_of_body (placeBody_of_legal hv hb hd hl)
  exact ⟨_, hexec, ⟨around_exec hexec, rfl, rfl, rfl⟩, rfl,
    countsWritten_writeCounts (u := writePlanes (total s) (startStep .place s)) rfl rfl rfl, rfl,
    fun k => ⟨rfl, isSome_read_writePlanes_plane (total s) (startStep .place s) k⟩,
    fun hw => planePlaced_writePlanes (s := startStep .place s) hv hl hw rfl⟩

end Sys2Proof.Machine

namespace Sys2Proof.Machine

open Sys2Proof.Claims

/-! ### The faults of the bodies of ENCODE_ALL (R121, R242) -/

/-- A body that raises a fault other than SEQUENCE leaves PHASE at its step `p`, and the flags as the start of the step
set them. -/
structure RaisedIn (p : Phase) (c : FaultCode) (s u : State) : Prop where
  phase : u.status.phase = p
  flags : u.status.flags = startFlags p s.status.flags
  code  : c ≠ .sequence

theorem rsBody_raised {c : FaultCode} {i : Word} {s u : State} (h : rsBody s = .raise c i u) : RaisedIn .rs c s u := by
  rcases rsBody_cases s with ⟨_, _, hv, hb⟩ | ⟨_, -, hb⟩ <;> rw [hb] at h <;> cases h
  exact ⟨rfl, rfl, by rcases validateBlocks_eq_bad hv with rfl | rfl | rfl | rfl <;> decide⟩

theorem placeBody_raised {c : FaultCode} {i : Word} {s u : State} (h : placeBody s = .raise c i u) :
    RaisedIn .place c s u := by
  rcases placeBody_cases s with ⟨-, hb⟩ | ⟨-, _, _, hv, hb⟩ | ⟨-, _, -, ⟨-, hb⟩ | ⟨-, _, -, hb⟩ | ⟨-, -, hb⟩⟩ <;>
    rw [hb] at h <;> cases h
  · exact ⟨rfl, rfl, by decide⟩
  · exact ⟨rfl, rfl, by rcases validateBlocks_eq_bad hv with rfl | rfl | rfl | rfl <;> decide⟩
  · exact ⟨rfl, rfl, by decide⟩
  · exact ⟨rfl, rfl, by decide⟩

theorem versionLegal_of_placeBody {s t : State} (h : placeBody s = .done t) : VersionLegal s := by
  by_contra hv
  rw [placeBody_of_not_versionLegal hv] at h
  cases h

/-- After PLACE has succeeded SCORE raises no fault (R115, R121). -/
theorem scoreBody_after_placeBody {s t : State} (h : placeBody s = .done t) :
    ∃ u, scoreBody t = .done u ∧ VersionLegal u := by
  have hcfg : (placeBody s).state.cfg = s.cfg := (around_placeBody s).cfg
  rw [h] at hcfg
  have hv : VersionLegal t := by
    rw [VersionLegal, show t.cfg = s.cfg from hcfg]
    exact versionLegal_of_placeBody h
  exact ⟨_, scoreBody_of_legal (bodies_succeed.2.1 h).2 hv, hv⟩

theorem finalizeBody_raised {c : FaultCode} {i : Word} {s u : State} (hs : s.status.flags.scored = true)
    (hv : VersionLegal s) (h : finalizeBody s = .raise c i u) : RaisedIn .final c s u := by
  rcases finalizeBody_cases s with ⟨hs', -⟩ | ⟨-, hv', -⟩ | ⟨-, -, ⟨_, -, hb⟩ | ⟨-, hb⟩⟩
  · simp [hs] at hs'
  · simp [versionOk_iff.2 hv] at hv'
  all_goals rw [hb] at h; cases h
  exact ⟨rfl, rfl, by decide⟩

/-- What the bodies of RS_ENCODE, PLACE and SCORE leave of the flags where they succeed one after another (R114). -/
theorem flags_of_rsBody {s t : State} (h : rsBody s = .done t) : t.status.flags = ⟨true, false, false, false⟩ :=
  (rsBody_succeeded h).flags

theorem flags_of_placeBody {s t : State} (h : placeBody s = .done t) :
    t.status.flags = ⟨s.status.flags.eccValid, true, false, false⟩ := by
  rcases placeBody_cases s with ⟨-, hb⟩ | ⟨-, _, _, -, hb⟩ | ⟨-, _, -, ⟨-, hb⟩ | ⟨-, _, -, hb⟩ | ⟨-, -, hb⟩⟩ <;>
    rw [hb] at h <;> cases h
  rfl

theorem flags_of_scoreBody {s t : State} (h : scoreBody s = .done t) :
    t.status.flags = ⟨s.status.flags.eccValid, true, true, false⟩ := by
  rcases scoreBody_cases s with ⟨-, hb⟩ | ⟨-, -, hb⟩ | ⟨hp, -, hb⟩ <;> rw [hb] at h <;> cases h
  simp [startFlags, successFlags, hp]

/-- A fault of the four bodies in turn is one of RS, PLACE or FINAL, and leaves the flags of the bodies before it. -/
theorem encodeAllFrom_rs_raised {c : FaultCode} {i : Word} {s u : State} (h : encodeAllFrom .rs s = .raise c i u) :
    c ≠ .sequence ∧ (u.status.phase, u.status.flags) ∈ [(Phase.rs, (⟨false, false, false, false⟩ : SeqFlags)),
      (.place, ⟨true, false, false, false⟩), (.final, ⟨true, true, true, false⟩)] := by
  rcases andThen_eq_raise h with h | ⟨s3, h3, h⟩
  · rcases andThen_eq_raise h with h | ⟨s2, h2, h⟩
    · rcases andThen_eq_raise h with h | ⟨s1, h1, h⟩
      · obtain ⟨hphase, hflags, hcode⟩ := rsBody_raised h
        simp [hphase, hflags, hcode, startFlags]
      · obtain ⟨hphase, hflags, hcode⟩ := placeBody_raised h
        simp [hphase, hflags, hcode, startFlags, flags_of_rsBody h1]
    · obtain ⟨s1, -, h2⟩ := andThen_eq_done h2
      obtain ⟨_, h3, -⟩ := scoreBody_after_placeBody h2
      rw [h3] at h
      cases h
  · obtain ⟨s2, h2, h3⟩ := andThen_eq_done h3
    obtain ⟨s1, h1, h2⟩ := andThen_eq_done h2
    obtain ⟨_, h3', hv⟩ := scoreBody_after_placeBody h2
    obtain rfl := Body.done.inj (h3.symm.trans h3')
    obtain ⟨hphase, hflags, hcode⟩ := finalizeBody_raised (bodies_succeed.2.2.1 h3).2 hv h
    simp [hphase, hflags, hcode, startFlags, flags_of_scoreBody h3, flags_of_placeBody h2, flags_of_rsBody h1]

theorem InCommand.trans {s t u : State} (h : InCommand s t) (h' : InCommand t u) : InCommand s u :=
  ⟨h'.inflight.trans h.inflight, h'.abortReq.trans h.abortReq, h'.done.trans h.done, h'.fault.trans h.fault,
    h'.err.trans h.err⟩

theorem encodeAllFrom_rs_inCommand {s t : State} (h : encodeAllFrom .rs s = .done t) : InCommand s t := by
  obtain ⟨s3, h3, h4⟩ := andThen_eq_done h
  obtain ⟨s2, h2, h3⟩ := andThen_eq_done h3
  obtain ⟨s1, h1, h2⟩ := andThen_eq_done h2
  exact (((rsBody_inCommand h1).trans (placeBody_inCommand h2)).trans (scoreBody_inCommand h3)).trans
    (finalizeBody_inCommand h4)

theorem FaultCode.value_ne_sequence {c : FaultCode} (h : c ≠ .sequence) : c.value ≠ 10#4 := by
  cases c with
  | sequence => exact absurd rfl h
  | _ => decide

/-- Settles O56: the four bodies run in turn, and the one that fails gives the record. -/
theorem encodeAllFaultRecord : Obligations.EncodeAllFaultRecord := by
  intro s t hp hclean hexec ht
  rw [exec, execEncodeAll, hp] at hexec
  cases hexec
  cases h : encodeAllFrom .rs s with
  | done u =>
    rw [h] at ht
    have hfault : u.status.fault = true := ht
    simp [(encodeAllFrom_rs_inCommand h).fault, hclean] at hfault
  | raise c i u =>
    obtain ⟨hcode, hmem⟩ := encodeAllFrom_rs_raised h
    rw [finish_raise, takeFault_err, takeFault_status]
    dsimp only
    simp only [List.mem_cons, List.not_mem_nil, or_false, Prod.mk.injEq] at hmem
    rcases hmem with ⟨hphase, hflags⟩ | ⟨hphase, hflags⟩ | ⟨hphase, hflags⟩ <;> rw [hphase, hflags] <;>
      exact ⟨rfl, by decide, FaultCode.value_ne_sequence hcode, by decide⟩

end Sys2Proof.Machine

namespace Sys2Proof.Machine

open Sys2Proof.Claims

/-! ### Body turns, one after another (R110, R116; log 25) -/

/-- The state after a body turn. -/
def nextBody (s : State) : State :=
  match s.seq.inflight with
  | some w => if s.seq.ended then afterBody w s else (stepBody w s).pause w
  | none => s

theorem bodyTurn_eq_nextBody (s : State) : bodyTurn s = .next (nextBody s) := by
  unfold bodyTurn nextBody
  cases s.seq.inflight <;> rfl

theorem bodyAgain_next (s : State) : bodyAgain (.next s) = .next (nextBody s) := bodyTurn_eq_nextBody s

theorem nextBody_of_idle {s : State} (h : s.seq.inflight = none) : nextBody s = s := by rw [nextBody, h]

theorem nextBody_of_started {s : State} {w : Word} (hw : s.seq.inflight = some w) (he : s.seq.ended = false) :
    nextBody s = (stepBody w s).pause w := by
  rw [nextBody, hw]
  simp [he]

theorem nextBody_of_ended {s : State} {w : Word} (hw : s.seq.inflight = some w) (he : s.seq.ended = true) :
    nextBody s = afterBody w s := by
  rw [nextBody, hw]
  simp [he]

theorem iterate_nextBody_of_idle {s : State} (h : s.seq.inflight = none) (n : Nat) : nextBody^[n] s = s :=
  Function.iterate_fixed (nextBody_of_idle h) n

/-- A command that has ended within `n` body turns has ended so within any more. -/
theorem iterate_nextBody_of_le {s : State} {w : Word} {b : Body} {n m : Nat} (h : nextBody^[n] s = b.finish w)
    (hnm : n ≤ m) : nextBody^[m] s = b.finish w := by
  obtain ⟨k, rfl⟩ := Nat.exists_eq_add_of_le' hnm
  rw [Function.iterate_add_apply, h, iterate_nextBody_of_idle (finish_completes w b).1]

section
variable {s : State} {w : Word} (hw : s.seq.inflight = some w) (he : s.seq.ended = false)
include hw he

/-- Two body turns run the last step of a command: its body, then the completion. -/
theorem iterate_nextBody_of_last (hlast : ∀ u, stepBody w s = .done u → nextOf w u = none) :
    nextBody^[2] s = (stepBody w s).finish w := by
  rw [Function.iterate_succ_apply, Function.iterate_one, nextBody_of_started hw he]
  cases hb : stepBody w s with
  | raise c i u => exact nextBody_of_idle rfl
  | done u =>
    have hu : (endStep u).seq.inflight = some w := (stepBody_inCommand hb).inflight.trans hw
    have hnext : nextOf w (endStep u) = none := hlast u hb
    rw [pause_done, nextBody_of_ended hu rfl, afterBody, hnext]
    rfl

/-- Two body turns run a step that another follows, and bring that one to its start. -/
theorem iterate_nextBody_of_next {p : Phase} {n : Nat} {f : State → Body}
    (hnext : ∀ u, stepBody w s = .done u → nextOf w u = some p)
    (hrest : ∀ u, u.seq.inflight = some w → nextBody^[n] (startStep p u) = (f u).finish w) :
    nextBody^[n + 2] s = ((stepBody w s).andThen f).finish w := by
  rw [Function.iterate_succ_apply, Function.iterate_succ_apply, nextBody_of_started hw he]
  cases hb : stepBody w s with
  | raise c i u =>
    rw [pause_raise, nextBody_of_idle rfl, iterate_nextBody_of_idle rfl]
    rfl
  | done u =>
    have hin := (stepBody_inCommand hb).inflight.trans hw
    have hstart : afterBody w (endStep u) = startStep p u := by
      rw [afterBody, show nextOf w (endStep u) = some p from hnext u hb]
      rfl
    rw [pause_done, nextBody_of_ended (s := endStep u) hin rfl, hstart, hrest u hin, andThen_done]

end

/-! ### The steps of ENCODE_ALL (R116, R121) -/

/-- Each step of ENCODE_ALL is a body and the steps after it. -/
theorem encodeAllFrom_rs (s : State) : encodeAllFrom .rs s = (rsBody s).andThen (encodeAllFrom .place) := by
  unfold encodeAllFrom
  cases rsBody s <;> rfl

theorem encodeAllFrom_place (s : State) : encodeAllFrom .place s = (placeBody s).andThen (encodeAllFrom .score) := by
  unfold encodeAllFrom
  cases placeBody s <;> rfl

theorem encodeAllFrom_score (s : State) : encodeAllFrom .score s = (scoreBody s).andThen (encodeAllFrom .final) := rfl

theorem encodeAllFrom_final (s : State) : encodeAllFrom .final s = finalizeBody s := rfl

/-- The start of a step is part of the step (R114). -/
@[simp] theorem encodeAllFrom_startStep (s : State) :
    encodeAllFrom .place (startStep .place s) = encodeAllFrom .place s
      ∧ encodeAllFrom .score (startStep .score s) = encodeAllFrom .score s
      ∧ encodeAllFrom .final (startStep .final s) = encodeAllFrom .final s := by
  simp [encodeAllFrom]

theorem nextOf_encodeAll (s : State) : nextOf (encode .encodeAll) s = nextPhase s.status.phase := rfl

section
variable {s : State} (hw : s.seq.inflight = some (encode .encodeAll)) (he : s.seq.ended = false)
include hw he

theorem iterate_nextBody_final (hp : s.status.phase = .final) :
    nextBody^[2] s = (encodeAllFrom .final s).finish (encode .encodeAll) := by
  have hbody : stepBody (encode .encodeAll) s = finalizeBody s := by
    rw [stepBody, decodeWord_encode]; simp only [encodeAllBody, hp]
  have hlast (u : State) (hu : finalizeBody s = .done u) : nextOf (encode .encodeAll) u = none := by
    rw [nextOf_encodeAll, (bodies_succeed.2.2.2 hu).1]; rfl
  rw [iterate_nextBody_of_last hw he (hbody ▸ hlast), hbody]
  rfl

theorem iterate_nextBody_score (hp : s.status.phase = .score) :
    nextBody^[4] s = (encodeAllFrom .score s).finish (encode .encodeAll) := by
  have hbody : stepBody (encode .encodeAll) s = scoreBody s := by
    rw [stepBody, decodeWord_encode]; simp only [encodeAllBody, hp]
  have hnext (u : State) (hu : scoreBody s = .done u) : nextOf (encode .encodeAll) u = some .final := by
    rw [nextOf_encodeAll, (bodies_succeed.2.2.1 hu).1]; rfl
  rw [encodeAllFrom_score, ← hbody]
  refine iterate_nextBody_of_next hw he (hbody ▸ hnext) fun u hu => ?_
  rw [iterate_nextBody_final (s := startStep .final u) hu rfl rfl, (encodeAllFrom_startStep u).2.2]

theorem iterate_nextBody_place (hp : s.status.phase = .place) :
    nextBody^[6] s = (encodeAllFrom .place s).finish (encode .encodeAll) := by
  have hbody : stepBody (encode .encodeAll) s = placeBody s := by
    rw [stepBody, decodeWord_encode]; simp only [encodeAllBody, hp]
  have hnext (u : State) (hu : placeBody s = .done u) : nextOf (encode .encodeAll) u = some .score := by
    rw [nextOf_encodeAll, (bodies_succeed.2.1 hu).1]; rfl
  rw [encodeAllFrom_place, ← hbody]
  refine iterate_nextBody_of_next hw he (hbody ▸ hnext) fun u hu => ?_
  rw [iterate_nextBody_score (s := startStep .score u) hu rfl rfl, (encodeAllFrom_startStep u).2.1]

theorem iterate_nextBody_rs (hbody : encodeAllBody s = rsBody s) :
    nextBody^[8] s = (encodeAllFrom .rs s).finish (encode .encodeAll) := by
  have hbody : stepBody (encode .encodeAll) s = rsBody s := by rw [stepBody, decodeWord_encode]; exact hbody
  have hnext (u : State) (hu : rsBody s = .done u) : nextOf (encode .encodeAll) u = some .place := by
    rw [nextOf_encodeAll, (bodies_succeed.1 hu).1]; rfl
  rw [encodeAllFrom_rs, ← hbody]
  refine iterate_nextBody_of_next hw he (hbody ▸ hnext) fun u hu => ?_
  rw [iterate_nextBody_place (s := startStep .place u) hu rfl rfl, (encodeAllFrom_startStep u).1]

end

/-! ### Any word in flight -/

/-- A single command is its body and its completion. -/
theorem exec_eq_finish_stepBody {i : Instr} (hi : i ≠ .encodeAll) (s : State) :
    exec i s = .next ((stepBody (encode i) s).finish (encode i)) := by
  cases i with
  | encodeAll => exact absurd rfl hi
  | _ => rfl

theorem execEncodeAll_eq (s : State) :
    exec .encodeAll s = .next ((encodeAllFrom s.status.phase s).finish (encode .encodeAll)) := rfl

/-- Eight body turns run any word from the start of a step. -/
theorem runWord_eq_iterate {s : State} {w : Word} (hw : s.seq.inflight = some w) (he : s.seq.ended = false) :
    runWord w s = .next (nextBody^[8] s) := by
  unfold runWord
  split
  · next i hi =>
    obtain rfl := eq_encode_of_decodeWord hi
    by_cases hall : i = .encodeAll
    · subst hall
      rw [execEncodeAll_eq]
      cases hp : s.status.phase with
      | final => rw [iterate_nextBody_of_le (iterate_nextBody_final hw he hp) (by decide)]
      | score => rw [iterate_nextBody_of_le (iterate_nextBody_score hw he hp) (by decide)]
      | place => rw [iterate_nextBody_of_le (iterate_nextBody_place hw he hp) (by decide)]
      | _ => exact congrArg Host.Outcome.next (iterate_nextBody_rs hw he (by simp only [encodeAllBody, hp])).symm
    · have hlast (u : State) (_ : stepBody (encode i) s = .done u) : nextOf (encode i) u = none := by
        rw [nextOf, hi, if_neg (by simpa using hall)]
      rw [exec_eq_finish_stepBody hall, iterate_nextBody_of_le (iterate_nextBody_of_last hw he hlast) (by decide)]
  · next r hr =>
    have hbody : stepBody w s = .raise .badOpcode w s := by rw [stepBody, hr]
    rw [iterate_nextBody_of_le (iterate_nextBody_of_last hw he (by simp [hbody])) (by decide), hbody]
    rfl

/-- Six body turns are enough from the start of a step that follows another. -/
theorem iterate_nextBody_of_nextOf {s : State} {w : Word} {p : Phase} (hw : s.seq.inflight = some w)
    (hp : nextOf w s = some p) : ∃ b : Body, nextBody^[6] (startStep p s) = b.finish w := by
  unfold nextOf at hp
  split at hp
  · next hi =>
    obtain rfl := eq_encode_of_decodeWord hi
    have hstart : (startStep p s).seq.inflight = some (encode .encodeAll) := hw
    cases hs : s.status.phase <;> rw [hs] at hp <;> cases hp
    · exact ⟨_, iterate_nextBody_place hstart rfl rfl⟩
    · exact ⟨_, iterate_nextBody_of_le (iterate_nextBody_score hstart rfl rfl) (by decide)⟩
    · exact ⟨_, iterate_nextBody_of_le (iterate_nextBody_final hstart rfl rfl) (by decide)⟩
  · cases hp

/-- A run turn is eight body turns. -/
theorem runTurn_eq_iterate {s : State} {w : Word} (hw : s.seq.inflight = some w) :
    runTurn s = .next (nextBody^[8] s) := by
  rcases runTurn_cases s with ⟨hn, -⟩ | ⟨w', hw', ⟨he, hr⟩ | ⟨he, p, hp, hr⟩ | ⟨he, hp, hr⟩⟩
  · simp [hw] at hn
  · rw [hr, runWord_eq_iterate hw' he]
  · obtain ⟨b, hb⟩ := iterate_nextBody_of_nextOf hw' hp
    rw [hr, runWord_eq_iterate (s := startStep p s) hw' rfl, iterate_nextBody_of_le hb (by decide),
      Function.iterate_succ_apply, nextBody_of_ended hw' he, afterBody, hp, iterate_nextBody_of_le hb (by decide)]
  · rw [hr, Function.iterate_succ_apply, nextBody_of_ended hw' he, afterBody, hp, iterate_nextBody_of_idle rfl]

/-- Settles O55: a run turn is eight body turns, and a body turn that leaves the command in flight is a success. -/
theorem commandsBodyByBody : Obligations.CommandsBodyByBody := by
  intro s w hw
  refine ⟨?_, fun t he ht hbusy => ?_⟩
  · rw [runTurn_eq_iterate hw, bodyTurn_eq_nextBody]
    simp only [bodyAgain_next]
    rfl
  · rcases bodyTurn_cases hw with ⟨he', -⟩ | ⟨he', -⟩ | ⟨-, u, hu, hb⟩ | ⟨-, c, i, u, -, hb⟩
    · simp [he] at he'
    · simp [he] at he'
    · obtain rfl : endStep u = t := Host.Outcome.next.inj (hb.symm.trans ht)
      obtain ⟨i, p, -, hs, hphase⟩ := stepBody_succeeded hu
      obtain ⟨hin, hp, hflags, -⟩ := hs
      refine ⟨hin.done, fun ha => hp.trans (hphase ha).symm, fun h => ?_, fun h => ?_, fun h => ?_, fun h => ?_⟩ <;>
      · obtain rfl := hp.symm.trans h
        rw [endStep_status, hflags]
        rfl
    · obtain rfl : takeFault c i w u = t := Host.Outcome.next.inj (hb.symm.trans ht)
      cases hbusy

end Sys2Proof.Machine

namespace Sys2Proof.Machine

open Sys2Proof.Claims

/-! ### The checks of each command, in their order (R131, R151, R172, R201) -/

theorem rs_cases (s : State) : (∃ code info, validateBlocks s s.draws = .bad code info) ∨ BlocksPass s := by
  by_cases hb : BlocksPass s
  · exact .inr hb
  · exact .inl (validateBlocks_of_not_blocksPass hb)

theorem placementLegal_of_firstIndex {s : State}
    (h : firstIndex (fun e => !coordOk (side s) e) 0 (plEntries s s.draws (bitTotal s)) = none) : PlacementLegal s := by
  intro i hi
  by_contra hbad
  have hok := firstIndex_eq_none.1 h _ (List.mem_map.2 ⟨i, List.mem_range.2 hi, rfl⟩)
  simp [coordOk_eq_false_iff.2 hbad] at hok

theorem place_cases (s : State) :
    ¬VersionLegal s ∨ VersionLegal s ∧ ((∃ code info, validateBlocks s s.draws = .bad code info)
      ∨ BlocksPass s ∧ (bitTotal s > s.params.plDepth
        ∨ bitTotal s ≤ s.params.plDepth
          ∧ ((∃ i, firstIndex (fun e => !coordOk (side s) e) 0 (plEntries s s.draws (bitTotal s)) = some i)
            ∨ PlacementLegal s))) := by
  by_cases hv : VersionLegal s
  · refine .inr ⟨hv, (rs_cases s).imp_right fun hb => ⟨hb, ?_⟩⟩
    refine (Nat.lt_or_ge s.params.plDepth (bitTotal s)).imp_right fun hd => ⟨hd, ?_⟩
    cases hi : firstIndex (fun e => !coordOk (side s) e) 0 (plEntries s s.draws (bitTotal s)) with
    | some i => exact .inl ⟨i, rfl⟩
    | none => exact .inr (placementLegal_of_firstIndex hi)
  · exact .inl hv

theorem score_cases (s : State) :
    s.status.flags.placed = false ∨ s.status.flags.placed = true ∧ (¬VersionLegal s ∨ VersionLegal s) := by
  cases hp : s.status.flags.placed with
  | false => exact .inl rfl
  | true => exact .inr ⟨rfl, (Classical.em _).symm⟩

theorem formatLegal_of_badFormatCoord {s : State}
    (h : badFormatCoord (side s) (formatCoords1 s s.draws) (formatCoords2 s s.draws) = none) : FormatLegal s := by
  obtain ⟨h1, h2⟩ := badFormatCoord_eq_none.1 h
  exact fun k hk => ⟨coordOk_iff_inside.1 (h1 _ (List.mem_map.2 ⟨k, List.mem_range.2 hk, rfl⟩)),
    coordOk_iff_inside.1 (h2 _ (List.mem_map.2 ⟨k, List.mem_range.2 hk, rfl⟩))⟩

theorem finalize_cases (s : State) :
    s.status.flags.scored = false ∨ s.status.flags.scored = true ∧ (¬VersionLegal s ∨ VersionLegal s
      ∧ ((∃ k, badFormatCoord (side s) (formatCoords1 s s.draws) (formatCoords2 s s.draws) = some k)
        ∨ FormatLegal s)) := by
  cases hs : s.status.flags.scored with
  | false => exact .inl rfl
  | true =>
    refine .inr ⟨rfl, (Classical.em _).symm.imp_right fun hv => ⟨hv, ?_⟩⟩
    cases hk : badFormatCoord (side s) (formatCoords1 s s.draws) (formatCoords2 s s.draws) with
    | some k => exact .inl ⟨k, rfl⟩
    | none => exact .inr (formatLegal_of_badFormatCoord hk)

/-! ### No body reads the word in flight (R94, R122) -/

/-- The state with word `w` in flight. -/
def withWord (w : Word) (s : State) : State := { s with seq := { s.seq with inflight := some w } }

/-- A body's end, its state mapped. -/
def Body.map (f : State → State) : Body → Body
  | .done s => .done (f s)
  | .raise c i s => .raise c i (f s)

theorem eccCodewords_withWord (w : Word) (s : State) (draw n off : Nat) (sizes : List Nat) :
    eccCodewords (withWord w s) draw n off sizes = eccCodewords s draw n off sizes := by
  induction sizes generalizing off with
  | nil => rfl
  | cons k ks ih =>
    rw [eccCodewords, eccCodewords, ih]
    rfl

theorem writeEcc_withWord (w : Word) (s : State) (total : Nat) :
    writeEcc total (withWord w s) = withWord w (writeEcc total s) := by
  have hwritten : eccWritten total (withWord w s) = eccWritten total s := by
    unfold eccWritten
    dsimp only
    rw [eccCodewords_withWord]
    rfl
  have hcw : encodedCw total (withWord w s) = encodedCw total s := by
    unfold encodedCw
    rw [hwritten]
    rfl
  unfold writeEcc
  rw [hcw]
  rfl

theorem rsBody_withWord (w : Word) (s : State) : rsBody (withWord w s) = (rsBody s).map (withWord w) := by
  rcases rs_cases s with ⟨_, _, hx⟩ | hb
  · rw [rsBody_of_bad hx, rsBody_of_bad (s := withWord w s) hx]
    rfl
  · rw [rsBody_of_blocksPass hb, rsBody_of_blocksPass (s := withWord w s) hb,
      show startStep .rs (withWord w s) = withWord w (startStep .rs s) from rfl, writeEcc_withWord]
    rfl

theorem placeBody_withWord (w : Word) (s : State) : placeBody (withWord w s) = (placeBody s).map (withWord w) := by
  rcases place_cases s with hv | ⟨hv, ⟨_, _, hx⟩ | ⟨hb, hd | ⟨hd, ⟨_, hi⟩ | hl⟩⟩⟩
  · rw [placeBody_of_not_versionLegal hv, placeBody_of_not_versionLegal (s := withWord w s) hv]
    rfl
  · rw [placeBody_of_bad hv hx, placeBody_of_bad (s := withWord w s) hv hx]
    rfl
  · rw [placeBody_of_overflow hv hb hd, placeBody_of_overflow (s := withWord w s) hv hb hd]
    rfl
  · rw [placeBody_of_badCoord hv hb hd hi, placeBody_of_badCoord (s := withWord w s) hv hb hd hi]
    rfl
  · rw [placeBody_of_legal hv hb hd hl, placeBody_of_legal (s := withWord w s) hv hb hd hl]
    rfl

theorem scoreBody_withWord (w : Word) (s : State) : scoreBody (withWord w s) = (scoreBody s).map (withWord w) := by
  rcases score_cases s with hp | ⟨hp, hv | hv⟩
  · rw [scoreBody_of_not_placed hp, scoreBody_of_not_placed (s := withWord w s) hp]
    rfl
  · rw [scoreBody_of_not_versionLegal hp hv, scoreBody_of_not_versionLegal (s := withWord w s) hp hv]
    rfl
  · rw [scoreBody_of_legal hp hv, scoreBody_of_legal (s := withWord w s) hp hv]
    rfl

theorem finalizeBody_withWord (w : Word) (s : State) :
    finalizeBody (withWord w s) = (finalizeBody s).map (withWord w) := by
  rcases finalize_cases s with hs | ⟨hs, hv | ⟨hv, ⟨_, hk⟩ | hl⟩⟩
  · rw [finalizeBody_of_not_scored hs, finalizeBody_of_not_scored (s := withWord w s) hs]
    rfl
  · rw [finalizeBody_of_not_versionLegal hs hv, finalizeBody_of_not_versionLegal (s := withWord w s) hs hv]
    rfl
  · rw [finalizeBody_of_badFormatCoord hs hv hk, finalizeBody_of_badFormatCoord (s := withWord w s) hs hv hk]
    rfl
  · rw [finalizeBody_of_formatLegal hs hv hl, finalizeBody_of_formatLegal (s := withWord w s) hs hv hl]
    rfl

theorem finish_map_withWord (w w' : Word) (b : Body) : (b.map (withWord w)).finish w' = b.finish w' := by
  cases b <;> rfl

/-! ### One command after another (R111, R122) -/

theorem acceptFlags_encode {i : Instr} (hi : i ≠ .clear) (f : SeqFlags) :
    acceptFlags (encode i) f = startFlags (firstPhaseOf i) f := by
  cases i with
  | clear => exact absurd rfl hi
  | _ => rfl

theorem firstPhase_encode (i : Instr) : firstPhase (encode i) = firstPhaseOf i := by rw [firstPhase, decodeWord_encode]

/-- The acceptance of a command after one that has succeeded is the start of its step, with its word in flight. -/
theorem accept_complete {i : Instr} {u : State} (hi : i ≠ .clear) (habort : u.seq.abortReq = false)
    (hdone : u.status.done = false) :
    accept (encode i) (complete u) = withWord (encode i) (startStep (firstPhaseOf i) u) := by
  have hflags : acceptFlags (encode i) (complete u).status.flags = startFlags (firstPhaseOf i) u.status.flags :=
    acceptFlags_encode hi _
  rw [accept, hflags, firstPhase_encode]
  simp [withWord, startStep, complete, habort, hdone]

section
variable {u : State} (habort : u.seq.abortReq = false) (hdone : u.status.done = false)
include habort hdone

theorem issue_place_complete : issue .place (complete u) = (placeBody u).finish (encode .place) := by
  have hissue : issue .place (complete u)
      = (placeBody (accept (encode .place) (complete u))).finish (encode .place) := rfl
  rw [hissue, accept_complete (i := .place) nofun habort hdone, placeBody_withWord, finish_map_withWord]
  exact congrArg (Body.finish _) (placeBody_startStep u)

theorem issue_score_complete : issue .score (complete u) = (scoreBody u).finish (encode .score) := by
  have hissue : issue .score (complete u)
      = (scoreBody (accept (encode .score) (complete u))).finish (encode .score) := rfl
  rw [hissue, accept_complete (i := .score) nofun habort hdone, scoreBody_withWord, finish_map_withWord]
  exact congrArg (Body.finish _) (scoreBody_startStep u)

theorem issue_finalize_complete : issue .finalize (complete u) = (finalizeBody u).finish (encode .finalize) := by
  have hissue : issue .finalize (complete u)
      = (finalizeBody (accept (encode .finalize) (complete u))).finish (encode .finalize) := rfl
  rw [hissue, accept_complete (i := .finalize) nofun habort hdone, finalizeBody_withWord, finish_map_withWord]
  exact congrArg (Body.finish _) (finalizeBody_startStep u)

end

/-- RS_ENCODE in the state that accepts ENCODE_ALL. -/
theorem issue_rsEncode (s : State) :
    issue .rsEncode s = (rsBody (accept (encode .encodeAll) s)).finish (encode .rsEncode) := by
  have hissue : issue .rsEncode s
      = (rsBody (withWord (encode .rsEncode) (accept (encode .encodeAll) s))).finish (encode .rsEncode) := rfl
  rw [hissue, rsBody_withWord, finish_map_withWord]

theorem InCommand.refl (s : State) : InCommand s s := ⟨rfl, rfl, rfl, rfl, rfl⟩

/-- Settles O54: stage by stage the body of ENCODE_ALL is that of the command issued, in the state that the commands before
it have left, and it is the same stage that fails. -/
theorem encodeAllIsTheFourCommands : Obligations.EncodeAllIsTheFourCommands := by
  intro s t hclean hexec s1 s2 s3 s4
  have hin0 := InCommand.refl (accept (encode .encodeAll) s)
  have hs1 : s1 = (rsBody (accept (encode .encodeAll) s)).finish (encode .rsEncode) := issue_rsEncode s
  have ht : t = (encodeAllFrom .rs (accept (encode .encodeAll) s)).finish (encode .encodeAll) :=
    (Host.Outcome.next.inj hexec).symm
  rw [encodeAllFrom_rs] at ht
  cases h1 : rsBody (accept (encode .encodeAll) s) with
  | raise c i u => simp [hs1, ht, h1]
  | done u1 =>
    rw [h1, andThen_done, encodeAllFrom_place] at ht
    rw [h1, finish_done] at hs1
    have hin1 := hin0.trans (rsBody_inCommand h1)
    have hs2 : s2 = (placeBody u1).finish (encode .place) := by
      rw [← issue_place_complete hin1.abortReq hin1.done, ← hs1]
    cases h2 : placeBody u1 with
    | raise c i u => simp [hs2, ht, h2]
    | done u2 =>
      rw [h2, andThen_done, encodeAllFrom_score] at ht
      rw [h2, finish_done] at hs2
      have hin2 := hin1.trans (placeBody_inCommand h2)
      have hs3 : s3 = (scoreBody u2).finish (encode .score) := by
        rw [← issue_score_complete hin2.abortReq hin2.done, ← hs2]
      cases h3 : scoreBody u2 with
      | raise c i u => simp [hs3, ht, h3]
      | done u3 =>
        rw [h3, andThen_done, encodeAllFrom_final] at ht
        rw [h3, finish_done] at hs3
        have hin3 := hin2.trans (scoreBody_inCommand h3)
        have hs4 : s4 = (finalizeBody u3).finish (encode .finalize) := by
          rw [← issue_finalize_complete hin3.abortReq hin3.done, ← hs3]
        cases h4 : finalizeBody u3 with
        | raise c i u => simp [hs4, ht, h4]
        | done u4 =>
          have hin4 := hin3.trans (finalizeBody_inCommand h4)
          simp [hs1, hs2, hs3, hs4, ht, h4, hin1.fault, hin2.fault, hin3.fault, hin4.fault, hclean]

end Sys2Proof.Machine

namespace Sys2Proof.Claims

open Sys2Proof.Machine

/-! ### The operands of a later command, where the sequencer alone has run (R52, R70) -/

namespace Around

variable {s u : State} (h : Around s u)
include h

theorem versionLegal (hv : VersionLegal s) : VersionLegal u := by rwa [VersionLegal, h.cfg]

theorem side_eq : side u = side s := by rw [side, side, h.cfg]

theorem blkWritten (hb : BlkWritten s) : BlkWritten u := by rwa [BlkWritten, h.cfg, h.blk]

theorem blockSizes_eq (hb : BlkWritten s) (draw draw' : Nat) : blockSizes u draw = blockSizes s draw' := by
  have hread : blockSizes u draw = blockSizes s draw := by simp [blockSizes, blkAt, h.cfg, h.blk]
  exact hread.trans (blockSizes_written hb draw draw')

theorem total_eq (hb : BlkWritten s) : total u = total s := congrArg List.sum (h.blockSizes_eq hb _ _)

theorem eccTotal_eq : eccTotal u = eccTotal s := by rw [eccTotal, eccTotal, eccLen, eccLen, h.cfg]

theorem data_eq (hb : BlkWritten s) : data u = data s := by rw [data, data, h.total_eq hb, h.eccTotal_eq]

theorem bitTotal_eq (hb : BlkWritten s) : bitTotal u = bitTotal s := by
  rw [bitTotal, bitTotal, h.total_eq hb, h.cfg]

theorem blocksPass (hb : BlkWritten s) (hp : BlocksPass s) : BlocksPass u := by
  rwa [BlocksPass, LengthsLegal, sizes, h.blockSizes_eq hb _ s.draws, h.total_eq hb, eccLen, h.cfg, h.params]

theorem plWritten (hb : BlkWritten s) (hw : PlWritten s) : PlWritten u := by
  rwa [PlWritten, h.bitTotal_eq hb, h.pl]

theorem plAt_eq (hw : PlWritten s) {i : Nat} (hi : i < bitTotal s) : plAt u u.draws i = plAt s s.draws i := by
  rw [plAt, h.pl]
  exact orFree_of_isSome (hw i hi) ..

theorem placementLegal (hb : BlkWritten s) (hw : PlWritten s) (hl : PlacementLegal s) : PlacementLegal u := by
  intro i hi
  rw [h.bitTotal_eq hb] at hi
  rw [h.plAt_eq hw hi, Inside, h.side_eq]
  exact hl i hi

theorem fmtWritten (hw : FmtWritten s) : FmtWritten u := by rwa [FmtWritten, h.fmtC1, h.fmtC2]

theorem fmtC1At_eq (hw : FmtWritten s) {k : Nat} (hk : k < 15) : fmtC1At u u.draws k = fmtC1At s s.draws k := by
  rw [fmtC1At, h.fmtC1]
  exact orFree_of_isSome (hw k hk).1 ..

theorem fmtC2At_eq (hw : FmtWritten s) {k : Nat} (hk : k < 15) : fmtC2At u u.draws k = fmtC2At s s.draws k := by
  rw [fmtC2At, h.fmtC2]
  exact orFree_of_isSome (hw k hk).2 ..

theorem formatLegal (hw : FmtWritten s) (hl : FormatLegal s) : FormatLegal u := by
  intro k hk
  rw [h.fmtC1At_eq hw hk, h.fmtC2At_eq hw hk, Inside, Inside, h.side_eq]
  exact hl k hk

theorem formatIdx_eq (mask : BitVec 3) : formatIdx u mask = formatIdx s mask := by rw [formatIdx, formatIdx, h.cfg]

theorem formatBits_eq {mask : BitVec 3} (hw : (s.mem.fmtTable.read (formatIdx s mask)).isSome) :
    formatBits u mask = formatBits s mask := by
  rw [formatBits, fmtTableAt, h.formatIdx_eq, h.fmtTable]
  exact orFree_of_isSome hw ..

theorem frameWritten (hw : FrameWritten s) : FrameWritten u := by rwa [FrameWritten, h.side_eq, h.frame]

/-- The effect of PLACE on PLANE in terms of the operands before. -/
theorem planePlaced {bit bit' : Nat → Bool} {t t' : State} (hb : BlkWritten s) (hw : PlWritten s)
    (hbit : ∀ i < bitTotal s, bit i = bit' i) (ht : t'.mem.plane = t.mem.plane) (hp : PlanePlaced bit u t) :
    PlanePlaced bit' s t' := by
  have hnames {i x y : Nat} (hi : i < bitTotal s) : Names u i x y ↔ Names s i x y := by
    rw [Names, Names, h.plAt_eq hw hi]
  intro x hx y hy
  obtain ⟨hlast, hnone⟩ := hp x hx y hy
  rw [h.bitTotal_eq hb] at hlast hnone
  rw [ht]
  refine ⟨fun i hi hn hl => ?_, fun hn => hnone fun i hi => (hnames hi).not.2 (hn i hi)⟩
  rw [← hbit i hi, ← h.plAt_eq hw hi]
  exact hlast i hi ((hnames hi).2 hn) fun i' hi' hlt => (hnames hi').not.2 (hl i' hi' hlt)

/-- The effect of FINALIZE on OUT in terms of the operands before. -/
theorem outFinal {module module' : Nat → Nat → Bool} {bits : BitVec 15} {t t' : State} (hw : FmtWritten s)
    (hmod : ∀ x < side s, ∀ y < side s, module x y = module' x y) (ht : t'.mem.out = t.mem.out)
    (ho : OutFinal module bits u t) : OutFinal module' bits s t' := by
  have hnames1 {k x y : Nat} (hk : k < 15) : Names1 u k x y ↔ Names1 s k x y := by
    rw [Names1, Names1, h.fmtC1At_eq hw hk]
  have hnames2 {k x y : Nat} (hk : k < 15) : Names2 u k x y ↔ Names2 s k x y := by
    rw [Names2, Names2, h.fmtC2At_eq hw hk]
  intro x hx y hy
  obtain ⟨hsecondary, hprimary, hinside, houtside⟩ := ho x hx y hy
  rw [h.side_eq] at hinside houtside
  rw [ht]
  have hnone1 (hn : ∀ k < 15, ¬Names1 s k x y) : ∀ k < 15, ¬Names1 u k x y := fun k hk => (hnames1 hk).not.2 (hn k hk)
  have hnone2 (hn : ∀ k < 15, ¬Names2 s k x y) : ∀ k < 15, ¬Names2 u k x y := fun k hk => (hnames2 hk).not.2 (hn k hk)
  refine ⟨fun k hk hn hl => ?_, fun hn2 k hk hn hl => ?_, fun hn2 hn1 hxs hys => ?_, fun hn2 hn1 => ?_⟩
  · exact hsecondary k hk ((hnames2 hk).2 hn) fun k' hk' hlt => (hnames2 hk').not.2 (hl k' hk' hlt)
  · exact hprimary (hnone2 hn2) k hk ((hnames1 hk).2 hn) fun k' hk' hlt => (hnames1 hk').not.2 (hl k' hk' hlt)
  · rw [← hmod x hxs y hys]
    exact hinside (hnone2 hn2) (hnone1 hn1) hxs hys
  · exact houtside (hnone2 hn2) (hnone1 hn1)

end Around

end Sys2Proof.Claims

namespace Sys2Proof.Machine

open Sys2Proof.Claims

/-! ### What each body leaves where it succeeds: that of its command (R112) -/

theorem rsBody_completes {s : State} (hb : BlocksPass s) :
    ∃ u, rsBody s = .done u ∧ u.mem = { s.mem with cw := u.mem.cw } ∧ CwEncoded s u := by
  obtain ⟨t, hexec, -, -, hmem, hcw⟩ := rsEncodeCompletes s hb
  rw [exec_rsEncode_of_body (rsBody_of_blocksPass hb)] at hexec
  cases hexec
  exact ⟨_, rsBody_of_blocksPass hb, hmem, hcw⟩

theorem placeBody_completes {s : State} (hv : VersionLegal s) (hb : BlocksPass s) (hd : bitTotal s ≤ s.params.plDepth)
    (hl : PlacementLegal s) :
    ∃ u, placeBody s = .done u ∧ CountsWritten s u
      ∧ u.mem = { s.mem with plane := u.mem.plane, out := u.mem.out } ∧ (∀ k, (u.mem.plane.read k).isSome)
      ∧ (PlWritten s → PlanePlaced (bitAt s) s u) := by
  obtain ⟨t, hexec, -, -, hcounts, hmem, hcells, hplane⟩ := placeCompletes s hv hb hd hl
  rw [exec_place_of_body (placeBody_of_legal hv hb hd hl)] at hexec
  cases hexec
  exact ⟨_, placeBody_of_legal hv hb hd hl, hcounts, hmem, fun k => (hcells k).2, hplane⟩

theorem scoreBody_completes {s : State} (hp : s.status.flags.placed = true) (hv : VersionLegal s) :
    ∃ u, scoreBody s = .done u ∧ u.mem = s.mem ∧ u.res = { s.res with pen := u.res.pen, selMask := u.res.selMask }
      ∧ Scored s.params (side s) (candidateAt s) u.res := by
  obtain ⟨t, hexec, -, hmem, -, hres, hscored⟩ := scoreCompletes s hp hv
  rw [exec_score_of_body (scoreBody_of_legal hp hv)] at hexec
  cases hexec
  exact ⟨_, scoreBody_of_legal hp hv, hmem, hres, hscored⟩

theorem finalizeBody_completes {s : State} {mask : BitVec 3} (hs : s.status.flags.scored = true) (hv : VersionLegal s)
    (hmask : s.res.selMask = .known mask) (hl : FormatLegal s) :
    ∃ u, finalizeBody s = .done u
      ∧ u.res = { s.res with
          fmtIndex := .known (BitVec.ofNat 5 (formatIdx s mask)), fmtBits := .known (formatBits s mask) }
      ∧ u.mem = { s.mem with out := u.mem.out } ∧ (∀ k, (u.mem.out.read k).isSome)
      ∧ (FmtWritten s → OutFinal (moduleAt s s.draws mask.toNat) (formatBits s mask) s u) := by
  obtain ⟨t, hexec, -, -, hres, hmem, hcells, hout⟩ := finalizeCompletes s mask hs hv hmask hl
  rw [exec, execFinalize, finalizeBody_of_formatLegal hs hv hl] at hexec
  cases hexec
  exact ⟨_, finalizeBody_of_formatLegal hs hv hl, hres, hmem, hcells, hout⟩

theorem flags_of_finalizeBody {s t : State} (h : finalizeBody s = .done t) :
    t.status.flags = { s.status.flags with final := true } := by
  rcases finalizeBody_cases s with ⟨-, hb⟩ | ⟨-, -, hb⟩ | ⟨-, -, ⟨_, -, hb⟩ | ⟨-, hb⟩⟩ <;> rw [hb] at h <;> cases h
  rfl

/-! ### What a command reads of the results before it (R121) -/

/-- After RS_ENCODE on the load of R281 CW[0..NTOTAL−1] is written. -/
theorem isSome_read_cw {s u : State} (hcw : CwEncoded s u) (hw : RsTablesWritten s) {i : Nat} (hi : i < total s) :
    (u.mem.cw.read i).isSome := by
  obtain ⟨houtside, hwritten, -⟩ := hcw
  obtain ⟨-, hdata, -⟩ := hw
  by_cases h : i < data s
  · rw [houtside i (.inl h)]
    exact hdata i h
  · exact hwritten i (Nat.le_of_not_lt h) hi

theorem bitAt_eq_bitOfCw {s u t : State} (htotal : total u = total s) (ht : t.mem.cw = u.mem.cw)
    (hw : ∀ i < total s, (u.mem.cw.read i).isSome) (i : Nat) : bitAt u i = bitOfCw s t i := by
  unfold bitAt bitOfCw
  rw [htotal, cwByte, ht]
  split
  · next hi => rw [cwAt, orFree_eq_getD (hw _ (by omega))]
  · rfl

theorem moduleAt_eq_moduleOf {u t : State} {m x y draw : Nat} (hplane : t.mem.plane = u.mem.plane)
    (hframe : t.mem.frame = u.mem.frame) (hp : (u.mem.plane.read (256 * y + x)).isSome)
    (hf : (u.mem.frame.read (256 * y + x)).isSome) : moduleAt u draw m x y = moduleOf t m x y := by
  rw [moduleAt, moduleOf, hplane, hframe]
  congr 2
  · exact orFree_eq_getD hp ..
  · exact orFree_eq_getD hf ..

theorem gridOf_congr {S : Nat} {c c' : Nat → Nat → Bool} (h : ∀ x < S, ∀ y < S, c x y = c' x y) :
    gridOf S c = gridOf S c' :=
  List.map_congr_left fun y hy => List.map_congr_left fun x hx =>
    h x (List.mem_range.1 hx) y (List.mem_range.1 hy)

theorem cwEncoded_congr {s t t' : State} (hcw : t'.mem.cw = t.mem.cw) (h : CwEncoded s t) : CwEncoded s t' := by
  rwa [CwEncoded, hcw]

theorem scored_congr {p : Params} {S : Nat} {grid : Nat → Grid} {r r' : ResultRegs} (hpen : r'.pen = r.pen)
    (hmask : r'.selMask = r.selMask) (h : Scored p S grid r) : Scored p S grid r' := by
  rwa [Scored, hpen, hmask]

/-- Settles O53: the four bodies succeed one after another, each on the operands of the state before them all and on the
results of the bodies before it. -/
theorem encodeAllCompletes : Obligations.EncodeAllCompletes := by
  intro s hp hv hb hd hl hfl hblk hpl hfmt
  obtain ⟨s1, h1, hmem1, hcw1⟩ := rsBody_completes hb
  have a1 : Around s s1 := by simpa [h1] using around_rsBody s
  obtain ⟨s2, h2, ⟨hres2, hndata, -⟩, hmem2, hplane, hplaced⟩ := placeBody_completes (a1.versionLegal hv)
    (a1.blocksPass hblk hb) (by rwa [a1.bitTotal_eq hblk, a1.params]) (a1.placementLegal hblk hpl hl)
  have a2 : Around s s2 := a1.trans (by simpa [h2] using around_placeBody s1)
  obtain ⟨s3, h3, hmem3, hres3, hscored⟩ := scoreBody_completes (bodies_succeed.2.1 h2).2 (a2.versionLegal hv)
  have a3 : Around s s3 := a2.trans (by simpa [h3] using around_scoreBody s2)
  obtain ⟨best, -, hmask, -⟩ := hscored.2
  obtain ⟨s4, h4, hres4, hmem4, hout, hfinal⟩ := finalizeBody_completes (bodies_succeed.2.2.1 h3).2 (a3.versionLegal hv)
    hmask (a3.formatLegal hfmt hfl)
  have a4 : Around s s4 := a3.trans (by simpa [h4] using around_finalizeBody s3)
  have hin := (((rsBody_inCommand h1).trans (placeBody_inCommand h2)).trans (scoreBody_inCommand h3)).trans
    (finalizeBody_inCommand h4)
  have hflags : s4.status.flags = ⟨true, true, true, true⟩ := by
    rw [flags_of_finalizeBody h4, flags_of_scoreBody h3, flags_of_placeBody h2, flags_of_rsBody h1]
  have hcw4 : s4.mem.cw = s1.mem.cw := by rw [hmem4, hmem3, hmem2]
  have hplane4 : s4.mem.plane = s2.mem.plane := by rw [hmem4, hmem3]
  have hframe4 : s4.mem.frame = s2.mem.frame := by rw [hmem4, hmem3]
  refine ⟨complete s4, BitVec.ofNat 3 best, ?exec, ⟨a4.trans (around_complete s4), rfl, ?status, hin.err⟩, ?ntotal,
    ?ndata, ?mem, ?cw, fun k => ⟨?plane, hout k⟩, ?mask, ?index, fun hrs hframe htable => ⟨?placed, ?scored, ?bits, ?out⟩⟩
  case exec =>
    rw [execEncodeAll_eq, hp, encodeAllFrom_rs, h1, andThen_done, encodeAllFrom_place, h2, andThen_done,
      encodeAllFrom_score, h3, andThen_done, encodeAllFrom_final, h4, finish_done]
  case status => rw [complete_status]; simp [hin.fault, a4.buserr, hflags]
  case ntotal => rw [complete_res, hres4, hres3, hres2, a1.total_eq hblk]
  case ndata =>
    have hle : eccTotal s1 ≤ total s1 := eccTotal_le_total (a1.blocksPass hblk hb) (a1.blkWritten hblk)
    rw [complete_res, hres4, hres3, hndata hle, a1.data_eq hblk]
  case mem => rw [complete_mem, hmem4, hmem3, hmem2, hmem1]
  case cw => exact cwEncoded_congr hcw4 hcw1
  case plane => rw [complete_mem, hplane4]; exact hplane k
  case mask => rw [complete_res, hres4, hmask]
  case index => rw [complete_res, hres4, a3.formatIdx_eq]
  case placed =>
    have hbit := bitAt_eq_bitOfCw (t := complete s4) (a1.total_eq hblk) hcw4 fun i hi => isSome_read_cw hcw1 hrs hi
    exact a1.planePlaced hblk hpl (fun i _ => hbit i) hplane4 (hplaced (a1.plWritten hblk hpl))
  case scored =>
    have hgrid (m : Nat) : candidateAt s2 m = gridOf (side s) (moduleOf (complete s4) m) := by
      rw [candidateAt, a2.side_eq]
      exact gridOf_congr fun x hx y hy =>
        moduleAt_eq_moduleOf hplane4 hframe4 (hplane _) (a2.frameWritten hframe x (a2.side_eq ▸ hx) y (a2.side_eq ▸ hy))
    rw [a2.params, a2.side_eq, funext hgrid] at hscored
    exact scored_congr (by rw [complete_res, hres4]) (by rw [complete_res, hres4]) hscored
  case bits => rw [complete_res, hres4, a3.formatBits_eq htable]
  case out =>
    rw [a3.formatBits_eq htable] at hfinal
    refine a3.outFinal hfmt (fun x hx y hy => ?_) rfl (hfinal (a3.fmtWritten hfmt))
    exact moduleAt_eq_moduleOf (by rw [complete_mem, hmem4]) (by rw [complete_mem, hmem4]) (hmem3 ▸ hplane _)
      (a3.frameWritten hframe x (a3.side_eq ▸ hx) y (a3.side_eq ▸ hy))

end Sys2Proof.Machine

namespace Sys2Proof.Claims

open Sys2Proof.Machine

/-! ### Two states that agree on the block list (R45, R131) -/

namespace BlocksAgree

variable {s s' : State} (h : BlocksAgree s s') (hp : s.params = s'.params) (hd : s.draws = s'.draws)
include h

/-- The start of a step changes no operand. -/
theorem startStep (p : Phase) : BlocksAgree (Machine.startStep p s) (Machine.startStep p s') :=
  ⟨h.ecclen, h.nblocks, h.blk⟩

theorem eccLen_eq : eccLen s = eccLen s' := congrArg BitVec.toNat h.ecclen

theorem eccTotal_eq : eccTotal s = eccTotal s' := by rw [eccTotal, eccTotal, h.eccLen_eq, h.nblocks]

theorem blockSizes_eq (draw : Nat) : blockSizes s draw = blockSizes s' draw := by
  rw [blockSizes, blockSizes, ← h.nblocks]
  exact List.map_congr_left fun b hb => by rw [blkAt, blkAt, h.blk b (List.mem_range.1 hb)]

include hd

theorem total_eq : total s = total s' := by rw [total, total, hd, h.blockSizes_eq]

theorem data_eq : data s = data s' := by rw [data, data, h.total_eq hd, h.eccTotal_eq]

include hp

theorem validateBlocks_eq : validateBlocks s s.draws = validateBlocks s' s'.draws := by
  simp only [validateBlocks, h.ecclen, h.nblocks, hp, hd, h.blockSizes_eq]

theorem blocksPass (hb : BlocksPass s) : BlocksPass s' := by
  rwa [BlocksPass, LengthsLegal, sizes, ← hd, ← h.blockSizes_eq, ← h.total_eq hd, ← h.eccLen_eq, ← h.nblocks, ← hp]

end BlocksAgree

end Sys2Proof.Claims

namespace Sys2Proof.Machine

open Sys2Proof.Claims

/-- The counts depend on the sum, on NBLOCKS·ECCLEN and on the draws alone (R131). -/
theorem countsAgree_writeCounts {n n' : Nat} {u u' t t' : State} (hn : n = n') (hecc : eccCount u = eccCount u')
    (hdraws : u.draws = u'.draws) (ht : t.res = (writeCounts n u).res) (ht' : t'.res = (writeCounts n' u').res) :
    CountsAgree t t' := by
  subst hn
  rw [CountsAgree, ht, ht', writeCounts_res, writeCounts_res, ndataValue, ndataValue, dataCount, dataCount, hecc, hdraws]
  exact ⟨rfl, rfl⟩

/-! ### RS_ENCODE reads its operand row alone (R94, R139) -/

/-- A division never reads row 0 (R139 item 4). -/
theorem divideBlock_congr {row row' : Nat → Byte → List Byte} (h : ∀ t f, f ≠ 0#8 → row t f = row' t f) (t : Nat)
    (esr ds : List Byte) : divideBlock row t esr ds = divideBlock row' t esr ds := by
  induction ds generalizing t esr with
  | nil => rfl
  | cons d ds ih => rw [divideBlock, divideBlock, divideStep_congr (h t _), ih]

section
variable {s s' : State} (h : RsOperandsAgree s s') (hp : s.params = s'.params) (hd : s.draws = s'.draws)
  (hb : BlocksPass s)
include h hp hb

theorem gfRow_eq_of_agree (draw : Nat) {f : Byte} (hf : f ≠ 0#8) :
    gfRow s draw (eccLen s) f = gfRow s' draw (eccLen s) f := by
  have hpos : 1 ≤ f.toNat := by
    have : f.toNat ≠ 0 := fun h0 => hf (BitVec.eq_of_toNat_eq h0)
    omega
  refine List.map_congr_left fun j hj => ?_
  have hread := h.gf hb f.toNat hpos f.isLt j (List.mem_range.1 hj)
  rw [gfAt, gfAt, ← hp]
  exact congrArg (fun o => orFree o draw _ 0) hread

theorem eccCodewords_eq_of_agree (draw off : Nat) (ks : List Nat)
    (hoff : off + (ks.map (fun k => k - eccLen s)).sum ≤ data s) :
    eccCodewords s draw (eccLen s) off ks = eccCodewords s' draw (eccLen s) off ks := by
  induction ks generalizing off with
  | nil => rfl
  | cons k ks ih =>
    rw [List.map_cons, List.sum_cons] at hoff
    have hdata : blockData s draw off (k - eccLen s) = blockData s' draw off (k - eccLen s) :=
      List.map_congr_left fun t ht => by
        rw [cwAt, cwAt, h.cw hb _ (by have := List.mem_range.1 ht; omega)]
    rw [eccCodewords, eccCodewords, hdata, ih _ (by omega),
      divideBlock_congr fun t f hf => gfRow_eq_of_agree h hp hb (draw + 1 + t) hf]

include hd

/-- Two states that agree on RS_ENCODE's operands write the same ECC codewords. -/
theorem eccWritten_eq_of_agree : eccWritten (total s) s = eccWritten (total s) s' := by
  have hsizes := h.blocks.blockSizes_eq (s.draws + 2)
  have hcount : dataCount s (total s) = dataCount s' (total s) :=
    congrArg (total s - ·) h.blocks.eccTotal_eq
  have hecc : eccCount s = eccCount s' := h.blocks.eccTotal_eq
  have hsplit (ks : List Nat) : splitFits s (total s) ks = splitFits s' (total s) ks := by
    rw [splitFits, splitFits, hecc, hcount, h.blocks.ecclen]
  unfold eccWritten
  dsimp only
  rw [← hd, ← hsizes, ← hsplit, ← h.blocks.ecclen]
  split
  · next hfits =>
    refine eccCodewords_eq_of_agree h hp hb _ 0 _ ?_
    simp only [splitFits, Bool.and_eq_true, decide_eq_true_eq] at hfits
    rw [Nat.zero_add]
    exact hfits.2
  · rw [freeEcc, freeEcc, hcount]

end

theorem rsEncode_reads_operands {s s' t t' : State} (hp : s.params = s'.params) (hd : s.draws = s'.draws)
    (h : RsOperandsAgree s s') (ht : exec .rsEncode s = .next t) (ht' : exec .rsEncode s' = .next t') :
    t.status.flags.eccValid = t'.status.flags.eccValid
      ∧ (t.status.flags.eccValid = true → CountsAgree t t'
          ∧ ∀ k, data s ≤ k → k < total s → t.mem.cw.read k = t'.mem.cw.read k)
      ∧ (t.status.flags.eccValid = false → t.err = t'.err) := by
  rcases rs_cases s with ⟨code, info, hx⟩ | hb
  · have hx' := h.blocks.validateBlocks_eq hp hd ▸ hx
    rw [exec_rsEncode_of_body (rsBody_of_bad hx)] at ht
    rw [exec_rsEncode_of_body (rsBody_of_bad hx')] at ht'
    cases ht
    cases ht'
    exact ⟨rfl, nofun, fun _ => rfl⟩
  · have hb' := h.blocks.blocksPass hp hd hb
    have htotal := h.blocks.total_eq hd
    rw [exec_rsEncode_of_body (rsBody_of_blocksPass hb)] at ht
    rw [exec_rsEncode_of_body (rsBody_of_blocksPass hb')] at ht'
    cases ht
    cases ht'
    have hagree : RsOperandsAgree (startStep .rs s) (startStep .rs s') := ⟨h.blocks.startStep .rs, h.cw, h.gf⟩
    refine ⟨rfl, fun _ => ⟨?counts, fun k h1 h2 => ?cw⟩, nofun⟩
    case counts =>
      exact countsAgree_writeCounts (u := writeEcc (total s) (startStep .rs s))
        (u' := writeEcc (total s') (startStep .rs s')) htotal h.blocks.eccTotal_eq hd rfl rfl
    case cw =>
      have hwritten : eccWritten (total s) (startStep .rs s) = eccWritten (total s) (startStep .rs s') :=
        eccWritten_eq_of_agree hagree hp hd hb
      have hdata := h.blocks.data_eq hd
      have hin : data s ≤ k ∧ k < total s := ⟨h1, h2⟩
      have hread := (read_encodedCw (s := startStep .rs s) hb k).trans (if_pos hin)
      have hread' := (read_encodedCw (s := startStep .rs s') hb' k).trans (if_pos (hdata ▸ htotal ▸ hin))
      refine hread.trans (Eq.trans ?_ hread'.symm)
      change (eccWritten (total s) (startStep .rs s))[k - data s]?
        = (eccWritten (total s') (startStep .rs s'))[k - data s']?
      rw [hwritten, htotal, hdata]

end Sys2Proof.Machine

namespace Sys2Proof.Machine

open Sys2Proof.Claims

/-! ### PLACE reads its operand row alone (R94) -/

section
variable {s s' : State} (h : PlaceOperandsAgree s s') (hb : BlocksPass s) (hdepth : bitTotal s ≤ s.params.plDepth)
  (hd : s.draws = s'.draws)
include h

section
include hd

theorem bitTotal_eq_of_agree : bitTotal s = bitTotal s' := by
  rw [bitTotal, bitTotal, h.blocks.total_eq hd, h.rembits]

end

include hb

theorem dataBit_eq_of_agree (draw : Nat) : dataBit s draw (total s) = dataBit s' draw (total s) := by
  funext i
  unfold dataBit
  split
  · next hi => rw [cwAt, cwAt, h.cw hb _ (by omega)]
  · rfl

include hdepth

theorem plAt_eq_of_agree (draw : Nat) {i : Nat} (hi : i < bitTotal s) : plAt s draw i = plAt s' draw i := by
  rw [plAt, plAt, h.pl hb hdepth i hi]

include hd

theorem placementLegal_of_agree (hl : PlacementLegal s) : PlacementLegal s' := by
  intro i hi
  rw [← bitTotal_eq_of_agree h hd] at hi
  rw [← hd, ← plAt_eq_of_agree h hb hdepth _ hi, Inside, side, ← h.version]
  exact hl i hi

theorem plEntries_eq_of_agree : plEntries s s.draws (bitTotal s) = plEntries s' s'.draws (bitTotal s') := by
  rw [← bitTotal_eq_of_agree h hd, ← hd]
  exact List.map_congr_left fun i hi => plAt_eq_of_agree h hb hdepth _ (List.mem_range.1 hi)

/-- Two states that agree on PLACE's operands write the same PLANE. -/
theorem writePlanes_plane_eq_of_agree :
    (writePlanes (total s) s).mem.plane = (writePlanes (total s') s').mem.plane := by
  have htargets : plTargets s (s.draws + 1) (bitTotal s) = plTargets s' (s.draws + 1) (bitTotal s) :=
    List.map_congr_left fun i hi => by rw [plAt_eq_of_agree h hb hdepth _ (List.mem_range.1 hi)]
  change placeBits (dataBit s s.draws (total s)) _ 0 (plTargets s (s.draws + 1) (bitTotal s))
    = placeBits (dataBit s' s'.draws (total s')) _ 0 (plTargets s' (s'.draws + 1) (bitTotal s'))
  rw [← hd, ← bitTotal_eq_of_agree h hd, ← h.blocks.total_eq hd, htargets, dataBit_eq_of_agree h hb]

end

/-- A fault of the block list is neither PL_OVERFLOW nor BAD_COORD (R131). -/
theorem value_notMem_of_validateBlocks {s : State} {draw : Nat} {code : FaultCode} {info : Nat}
    (h : validateBlocks s draw = .bad code info) : code.value ∉ [7#4, 8#4] := by
  rcases validateBlocks_eq_bad h with rfl | rfl | rfl | rfl <;> decide

theorem place_reads_operands {s s' t t' : State} (hp : s.params = s'.params) (hd : s.draws = s'.draws)
    (h : PlaceOperandsAgree s s') (ht : exec .place s = .next t) (ht' : exec .place s' = .next t') :
    t.status.flags.placed = t'.status.flags.placed
      ∧ (t.status.flags.placed = true → CountsAgree t t' ∧ t.mem.plane = t'.mem.plane ∧ t.mem.out = t'.mem.out)
      ∧ (t.status.flags.placed = false → t.err = t'.err ∧ (t.err.code ∈ [7#4, 8#4] → CountsAgree t t')) := by
  have hversion : VersionLegal s ↔ VersionLegal s' := by rw [VersionLegal, VersionLegal, h.version]
  have hside : side s = side s' := by rw [side, side, h.version]
  have hbits := bitTotal_eq_of_agree h hd
  have htotal := h.blocks.total_eq hd
  rcases place_cases s with hv | ⟨hv, ⟨code, info, hx⟩ | ⟨hb, hdepth | ⟨hdepth, ⟨i, hi⟩ | hl⟩⟩⟩
  · rw [exec_place_of_body (placeBody_of_not_versionLegal hv)] at ht
    rw [exec_place_of_body (placeBody_of_not_versionLegal (hversion.not.1 hv)), ← h.version] at ht'
    cases ht
    cases ht'
    exact ⟨rfl, nofun, fun _ => ⟨rfl, fun hc => absurd hc (by decide : FaultCode.badVersion.value ∉ [7#4, 8#4])⟩⟩
  · have hx' := h.blocks.validateBlocks_eq hp hd ▸ hx
    rw [exec_place_of_body (placeBody_of_bad hv hx)] at ht
    rw [exec_place_of_body (placeBody_of_bad (hversion.1 hv) hx')] at ht'
    cases ht
    cases ht'
    exact ⟨rfl, nofun, fun _ => ⟨rfl, fun hc => absurd hc (value_notMem_of_validateBlocks hx)⟩⟩
  · rw [exec_place_of_body (placeBody_of_overflow hv hb hdepth)] at ht
    rw [exec_place_of_body (placeBody_of_overflow (hversion.1 hv) (h.blocks.blocksPass hp hd hb) (by rwa [← hbits, ← hp])),
      ← hbits] at ht'
    cases ht
    cases ht'
    exact ⟨rfl, nofun, fun _ => ⟨rfl, fun _ => countsAgree_writeCounts (u := startStep .place s) (u' := startStep .place s')
      htotal h.blocks.eccTotal_eq hd rfl rfl⟩⟩
  · have hi' := hi
    rw [plEntries_eq_of_agree h hb hdepth hd, hside] at hi'
    rw [exec_place_of_body (placeBody_of_badCoord hv hb hdepth hi)] at ht
    rw [exec_place_of_body (placeBody_of_badCoord (hversion.1 hv) (h.blocks.blocksPass hp hd hb) (by rwa [← hbits, ← hp])
      hi')] at ht'
    cases ht
    cases ht'
    exact ⟨rfl, nofun, fun _ => ⟨rfl, fun _ => countsAgree_writeCounts (u := forgetPlanes (startStep .place s))
      (u' := forgetPlanes (startStep .place s')) htotal h.blocks.eccTotal_eq hd rfl rfl⟩⟩
  · rw [exec_place_of_body (placeBody_of_legal hv hb hdepth hl)] at ht
    rw [exec_place_of_body (placeBody_of_legal (hversion.1 hv) (h.blocks.blocksPass hp hd hb) (by rwa [← hbits, ← hp])
      (placementLegal_of_agree h hb hdepth hd hl))] at ht'
    cases ht
    cases ht'
    have hagree : PlaceOperandsAgree (startStep .place s) (startStep .place s') :=
      ⟨h.version, h.rembits, h.blocks.startStep .place, h.cw, h.pl⟩
    exact ⟨rfl, fun _ => ⟨countsAgree_writeCounts (u := writePlanes (total s) (startStep .place s))
      (u' := writePlanes (total s') (startStep .place s')) htotal h.blocks.eccTotal_eq hd rfl rfl,
      writePlanes_plane_eq_of_agree hagree hb hdepth hd, rfl⟩, nofun⟩

/-! ### SCORE and FINALIZE read the modules (R94, R156, R171, R202) -/

section
variable {s s' : State} (h : ModulesAgree s s')
include h

theorem versionLegal_iff_of_agree : VersionLegal s ↔ VersionLegal s' := by rw [VersionLegal, VersionLegal, h.version]

theorem side_eq_of_agree : side s = side s' := by rw [side, side, h.version]

theorem moduleAt_eq_of_agree (hv : VersionLegal s) (draw m : Nat) {x y : Nat} (hx : x < side s) (hy : y < side s) :
    moduleAt s draw m x y = moduleAt s' draw m x y := by
  have hplane : s.mem.plane.read (cellIndex x y) = s'.mem.plane.read (cellIndex x y) := h.plane hv x hx y hy
  have hframe : s.mem.frame.read (cellIndex x y) = s'.mem.frame.read (cellIndex x y) := h.frame hv x hx y hy
  rw [moduleAt, moduleAt, planeAt, planeAt, frameAt, frameAt, hplane, hframe]

theorem candidateScores_eq_of_agree (hv : VersionLegal s) (hp : s.params = s'.params) (hd : s.draws = s'.draws) :
    candidateScores s = candidateScores s' := by
  have hcandidate (m : Nat) : candidate s (s.draws + m) m = candidate s' (s.draws + m) m := by
    rw [candidate, candidate, sideOf_eq_side hv, ← h.version, sideOf_eq_side hv]
    exact gridOf_congr fun x hx y hy => moduleAt_eq_of_agree h hv _ m hx hy
  rw [candidateScores, candidateScores, ← hp, ← hd, ← h.version]
  exact congrArg _ (funext fun m => congrArg _ (hcandidate m))

theorem mergedOut_eq_of_agree (hv : VersionLegal s) (draw m : Nat) :
    mergedOut (moduleAt s draw m) (side s) = mergedOut (moduleAt s' draw m) (side s) := by
  unfold mergedOut
  congr 1
  refine List.foldr_ext _ _ _ fun c hc b => ?_
  obtain ⟨hx, hy⟩ := mem_sideCells.1 hc
  rw [moduleAt_eq_of_agree h hv draw m hx hy]

end

theorem score_reads_operands {s s' t t' : State} (hp : s.params = s'.params) (hd : s.draws = s'.draws)
    (h : ScoreOperandsAgree s s') (ht : exec .score s = .next t) (ht' : exec .score s' = .next t') :
    t.status.flags.scored = t'.status.flags.scored
      ∧ (t.status.flags.scored = true → t.res.pen = t'.res.pen ∧ t.res.selMask = t'.res.selMask)
      ∧ (t.status.flags.scored = false → t.err = t'.err) := by
  have hversion := versionLegal_iff_of_agree h.modules
  rcases score_cases s with hpl | ⟨hpl, hv | hv⟩
  · rw [exec_score_of_body (scoreBody_of_not_placed hpl)] at ht
    rw [exec_score_of_body (scoreBody_of_not_placed (h.placed ▸ hpl))] at ht'
    cases ht
    cases ht'
    exact ⟨rfl, nofun, fun _ => rfl⟩
  · rw [exec_score_of_body (scoreBody_of_not_versionLegal hpl hv)] at ht
    rw [exec_score_of_body (scoreBody_of_not_versionLegal (h.placed ▸ hpl) (hversion.not.1 hv)), ← h.modules.version] at ht'
    cases ht
    cases ht'
    exact ⟨rfl, nofun, fun _ => rfl⟩
  · rw [exec_score_of_body (scoreBody_of_legal hpl hv)] at ht
    rw [exec_score_of_body (scoreBody_of_legal (h.placed ▸ hpl) (hversion.1 hv)),
      ← candidateScores_eq_of_agree h.modules hv hp hd] at ht'
    cases ht
    cases ht'
    exact ⟨rfl, fun _ => ⟨rfl, rfl⟩, nofun⟩

section
variable {s s' : State} (h : FinalizeOperandsAgree s s') (hd : s.draws = s'.draws)
include h

theorem fmtCAt_eq_of_agree (draw : Nat) {k : Nat} (hk : k < 15) :
    fmtC1At s draw k = fmtC1At s' draw k ∧ fmtC2At s draw k = fmtC2At s' draw k := by
  obtain ⟨h1, h2⟩ := h.coords k hk
  rw [fmtC1At, fmtC1At, fmtC2At, fmtC2At, h1, h2]
  exact ⟨rfl, rfl⟩

theorem formatCoords_eq_of_agree (draw : Nat) :
    formatCoords1 s draw = formatCoords1 s' draw ∧ formatCoords2 s draw = formatCoords2 s' draw :=
  ⟨List.map_congr_left fun _ hk => (fmtCAt_eq_of_agree h draw (List.mem_range.1 hk)).1,
    List.map_congr_left fun _ hk => (fmtCAt_eq_of_agree h draw (List.mem_range.1 hk)).2⟩

theorem formatTargets_eq_of_agree (draw : Nat) :
    formatTargets1 s draw = formatTargets1 s' draw ∧ formatTargets2 s draw = formatTargets2 s' draw :=
  ⟨List.map_congr_left fun _ hk => by rw [(fmtCAt_eq_of_agree h draw (List.mem_range.1 hk)).1],
    List.map_congr_left fun _ hk => by rw [(fmtCAt_eq_of_agree h draw (List.mem_range.1 hk)).2]⟩

include hd

theorem formatLegal_of_agree (hl : FormatLegal s) : FormatLegal s' := by
  intro k hk
  obtain ⟨h1, h2⟩ := fmtCAt_eq_of_agree h s.draws hk
  rw [← hd, ← h1, ← h2, Inside, Inside, ← side_eq_of_agree h.modules]
  exact hl k hk

theorem selMaskAt_eq_of_agree : selMaskAt s s.draws = selMaskAt s' s'.draws := by
  rw [selMaskAt, selMaskAt, h.selMask, hd]

theorem fmtTableAt_eq_of_agree :
    fmtTableAt s s.draws (formatIndex s.cfg.eccode (selMaskAt s s.draws)).toNat
      = fmtTableAt s' s'.draws (formatIndex s'.cfg.eccode (selMaskAt s' s'.draws)).toNat := by
  rw [← selMaskAt_eq_of_agree h hd, ← h.eccode, ← hd, formatIndex_toNat, fmtTableAt, fmtTableAt, h.fmtTable]

/-- Two states that agree on FINALIZE's operands write the same index, string and OUT. -/
theorem writeFormat_eq_of_agree (hv : VersionLegal s) :
    (writeFormat s).res.fmtIndex = (writeFormat s').res.fmtIndex
      ∧ (writeFormat s).res.fmtBits = (writeFormat s').res.fmtBits
      ∧ (writeFormat s).mem.out = (writeFormat s').mem.out := by
  have hmask := selMaskAt_eq_of_agree h hd
  have hbits := fmtTableAt_eq_of_agree h hd
  obtain ⟨h1, h2⟩ := formatTargets_eq_of_agree h (s.draws + 1)
  have hmerged := mergedOut_eq_of_agree h.modules hv s.draws (selMaskAt s s.draws).toNat
  rw [← sideOf_eq_side hv] at hmerged
  refine ⟨congrArg RegVal.known ?index, congrArg RegVal.known hbits, ?out⟩
  case index => rw [h.eccode, hmask]
  case out =>
    unfold writeFormat
    dsimp only
    rw [← hbits, ← hmask, ← hd, ← h1, ← h2, ← h.modules.version]
    exact congrArg (fun m => embedBits _ (embedBits _ m 0 _) 0 _) hmerged

end

theorem exec_finalize_of_body {s : State} {b : Body} (h : finalizeBody s = b) :
    exec .finalize s = .next (b.finish (encode .finalize)) := by
  rw [exec, execFinalize, h]

theorem finalize_reads_operands {s s' t t' : State} (hd : s.draws = s'.draws) (h : FinalizeOperandsAgree s s')
    (ht : exec .finalize s = .next t) (ht' : exec .finalize s' = .next t') :
    t.status.flags.final = t'.status.flags.final
      ∧ (t.status.flags.final = true →
          t.res.fmtIndex = t'.res.fmtIndex ∧ t.res.fmtBits = t'.res.fmtBits ∧ t.mem.out = t'.mem.out)
      ∧ (t.status.flags.final = false → t.err = t'.err) := by
  have hversion := versionLegal_iff_of_agree h.modules
  rcases finalize_cases s with hs | ⟨hs, hv | ⟨hv, ⟨k, hk⟩ | hl⟩⟩
  · rw [exec_finalize_of_body (finalizeBody_of_not_scored hs)] at ht
    rw [exec_finalize_of_body (finalizeBody_of_not_scored (h.scored ▸ hs))] at ht'
    cases ht
    cases ht'
    exact ⟨rfl, nofun, fun _ => rfl⟩
  · rw [exec_finalize_of_body (finalizeBody_of_not_versionLegal hs hv)] at ht
    rw [exec_finalize_of_body (finalizeBody_of_not_versionLegal (h.scored ▸ hs) (hversion.not.1 hv)),
      ← h.modules.version] at ht'
    cases ht
    cases ht'
    exact ⟨rfl, nofun, fun _ => rfl⟩
  · have hk' := hk
    obtain ⟨h1, h2⟩ := formatCoords_eq_of_agree h s.draws
    rw [side_eq_of_agree h.modules, h1, h2, hd] at hk'
    rw [exec_finalize_of_body (finalizeBody_of_badFormatCoord hs hv hk)] at ht
    rw [exec_finalize_of_body (finalizeBody_of_badFormatCoord (h.scored ▸ hs) (hversion.1 hv) hk')] at ht'
    cases ht
    cases ht'
    exact ⟨rfl, nofun, fun _ => rfl⟩
  · rw [exec_finalize_of_body (finalizeBody_of_formatLegal hs hv hl)] at ht
    rw [exec_finalize_of_body (finalizeBody_of_formatLegal (h.scored ▸ hs) (hversion.1 hv)
      (formatLegal_of_agree h hd hl))] at ht'
    cases ht
    cases ht'
    have hagree : FinalizeOperandsAgree (startStep .final s) (startStep .final s') :=
      ⟨h.scored, ⟨h.modules.version, h.modules.plane, h.modules.frame⟩, h.eccode, h.selMask, h.coords, h.fmtTable⟩
    exact ⟨rfl, fun _ => writeFormat_eq_of_agree hagree hd hv, nofun⟩

/-- Settles O57: command by command, the checks see the same operands, and so do the writes after them. -/
theorem commandsReadOnlyTheirOperands : Obligations.CommandsReadOnlyTheirOperands := fun _ _ _ _ hp hd =>
  ⟨rsEncode_reads_operands hp hd, place_reads_operands hp hd, score_reads_operands hp hd, finalize_reads_operands hd⟩

end Sys2Proof.Machine
